-- ==== Sys2Proof/Word.lean ====
section
/-! DEFINITION. The word types of WCSYN: the 32-bit `Num` word of the hardware instance (spec/00_scope.md R11) and the
64-bit command word (spec/30_encoding.md R80). -/

namespace Sys2Proof

/-- One `Num` of the hardware instance: an IEEE 754 binary32 datum held as its 32 bits (R10, R11). -/
abbrev Word := BitVec 32

/-- One command word (R80). -/
abbrev CmdWord := BitVec 64

end Sys2Proof
end

