-- ==== Sys2Proof/Config.lean ====
section
/-! DEFINITION. The configuration record `CFG` of spec/00_scope.md R8 (all fields but `NUM`, which is
`Machine/Numerics.lean`'s record), its defaults, and the free values: what the spec leaves open, as opaque constants. -/

namespace Sys2Proof

/-- A decimal literal `num / 10^scale` of the spec's text (R14). -/
structure Dec where
  num   : Int
  scale : Nat
deriving DecidableEq, Repr

namespace Dec

def le (a b : Dec) : Bool := decide (a.num * 10 ^ b.scale ≤ b.num * 10 ^ a.scale)
def lt (a b : Dec) : Bool := decide (a.num * 10 ^ b.scale < b.num * 10 ^ a.scale)
def add (a b : Dec) : Dec := ⟨a.num * 10 ^ b.scale + b.num * 10 ^ a.scale, a.scale + b.scale⟩

/-- `floor(n * d)` of the exact decimal, for the constraints of R9 (assumption log 20). -/
def floorMul (d : Dec) (n : Nat) : Int := d.num * n / 10 ^ d.scale

end Dec

/-- Four like things, `k = 0..3`: the reverb combs (R42). -/
structure Four (β : Type) where
  k0 : β
  k1 : β
  k2 : β
  k3 : β
deriving DecidableEq, Repr

/-- Two like things, `j = 0..1`: the reverb all-passes (R42). -/
structure Two (β : Type) where
  j0 : β
  j1 : β
deriving DecidableEq, Repr

/-- `CFG` (R8). The names are the table's, in lower camel case. -/
structure Config where
  /-- `FS`, Hz -/
  fs           : Nat
  /-- `NVOICES` -/
  nvoices      : Nat
  /-- `NENGINES` -/
  nengines     : Nat
  /-- `BLOCK_MAX` -/
  blockMax     : Nat
  /-- `AGE_W` -/
  ageW         : Nat
  /-- `A4_HZ` -/
  a4Hz         : Dec
  cutoffMin    : Dec
  cutoffMax    : Dec
  qBase        : Dec
  qMin         : Dec
  engineVolMax : Dec
  noteoffTol   : Dec
  envTMax      : Dec
  glideMaxMs   : Dec
  detuneMax    : Dec
  rateMax      : Dec
  fbMax        : Dec
  delayMaxS    : Dec
  delayLen     : Nat
  flLen        : Nat
  flBaseS      : Dec
  flSweepS     : Dec
  combLen      : Four Nat
  apLen        : Two Nat
  revFbBase    : Dec
  revFbScale   : Dec
  revDampScale : Dec
  revInGain    : Dec
  revApG       : Dec
  revWet       : Dec
deriving DecidableEq, Repr

/-- The defaults of R8's table. -/
def Config.default : Config where
  fs           := 44100
  nvoices      := 16
  nengines     := 2
  blockMax     := 4096
  ageW         := 32
  a4Hz         := ⟨440, 0⟩
  cutoffMin    := ⟨20, 0⟩
  cutoffMax    := ⟨20000, 0⟩
  qBase        := ⟨707, 3⟩
  qMin         := ⟨5, 2⟩
  engineVolMax := ⟨3, 1⟩
  noteoffTol   := ⟨1, 1⟩
  envTMax      := ⟨10, 0⟩
  glideMaxMs   := ⟨5000, 0⟩
  detuneMax    := ⟨1200, 0⟩
  rateMax      := ⟨20, 0⟩
  fbMax        := ⟨95, 2⟩
  delayMaxS    := ⟨2, 0⟩
  delayLen     := 88200
  flLen        := 1024
  flBaseS      := ⟨1, 3⟩
  flSweepS     := ⟨4, 3⟩
  combLen      := ⟨1116, 1188, 1277, 1356⟩
  apLen        := ⟨556, 441⟩
  revFbBase    := ⟨7, 1⟩
  revFbScale   := ⟨28, 2⟩
  revDampScale := ⟨4, 1⟩
  revInGain    := ⟨3, 2⟩
  revApG       := ⟨5, 1⟩
  revWet       := ⟨3, 1⟩

/-! ## Free values

An opaque constant without a body: nothing can evaluate it, so what is proved holds whatever it is. Each is a function
of the operands, because the numerics record's fields are functions of their operands (R10, 44_filter.md R177). -/

/-- The operation a NaN comes from, so that each has free patterns of its own. -/
inductive NanOp where
  | add | sub | mul | div | floor | abs | toBits32
deriving DecidableEq, Repr

/-- R13, U10: the sign, quiet bit and payload of a NaN result are any value (assumption log 6). -/
opaque Config.nanBits : NanOp → Word → Word → Word

/-- R11, R12, U9: `exp2` at a finite operand, before the promises of R12 are put on it (assumption log 7). The operand
is given by its order key, the result is a pattern of bits. -/
opaque Config.exp2Free : Int → Nat

/-- R11: `exp2` of an infinity or a NaN (assumption log 7). -/
opaque Config.exp2NonFinite : Word → Word

/-- R11, R12, U9: `sin2pi`, before the promises of R12 are put on it (assumption log 8). -/
opaque Config.sin2piFree : Word → Word

/-- R15: `clamp` of a NaN (assumption log 15). -/
opaque Config.clampFree : Word → Word

/-- R10, R19: `toNat` outside its domain, the finite non-negative operands (assumption log 10). -/
opaque Config.toNatFree : Word → Nat

end Sys2Proof
end

