-- ==== Sys2Proof/Syntax.lean ====
section
/-! DEFINITION. The commands of WCSYN: one constructor per row of spec/opcode_table.json, with the operands its format
reads (spec/30_encoding.md R81, R84). -/

namespace Sys2Proof

/-- The engine bit `E` (R80): 0 live, 1 timeline (R18 of 00_scope.md). -/
inductive EngineSel where
  | live
  | timeline
deriving DecidableEq, Repr

/-- One command. `n` and `f` are the field `F`, `a` the field `A`, `e` the field `E`; each is raw, as the command word
holds it, and is read by Machine/Operands.lean. -/
inductive Instr where
  /-- NOP, format Z, R310 -/
  | nop
  /-- RESET, format Z, R312 -/
  | reset
  /-- GET_SAMPLE_RATE, format Z, R314 -/
  | getSampleRate
  /-- PROCESS, format N, R294 -/
  | process (n : BitVec 32)
  /-- SET_MASTER_VOLUME, format G, R298 -/
  | setMasterVolume (f : BitVec 32)
  /-- SET_ENGINE_VOLUME, format EF, R300 -/
  | setEngineVolume (e : EngineSel) (f : BitVec 32)
  /-- NOTE_ON, format EAF, R214 -/
  | noteOn (e : EngineSel) (a : BitVec 16) (f : BitVec 32)
  /-- NOTE_OFF, format EA, R218 -/
  | noteOff (e : EngineSel) (a : BitVec 16)
  /-- STOP_ALL_NOTES, format E0, R220 -/
  | stopAllNotes (e : EngineSel)
  /-- SET_WAVEFORM, format EA, R110 -/
  | setWaveform (e : EngineSel) (a : BitVec 16)
  /-- SET_ATTACK, format EF, R130 -/
  | setAttack (e : EngineSel) (f : BitVec 32)
  /-- SET_DECAY, format EF, R131 -/
  | setDecay (e : EngineSel) (f : BitVec 32)
  /-- SET_SUSTAIN, format EF, R132 -/
  | setSustain (e : EngineSel) (f : BitVec 32)
  /-- SET_RELEASE, format EF, R133 -/
  | setRelease (e : EngineSel) (f : BitVec 32)
  /-- SET_DETUNE, format EF, R112 -/
  | setDetune (e : EngineSel) (f : BitVec 32)
  /-- SET_GLIDE_TIME, format EF, R148 -/
  | setGlideTime (e : EngineSel) (f : BitVec 32)
  /-- SET_FILTER_CUTOFF, format EF, R178 -/
  | setFilterCutoff (e : EngineSel) (f : BitVec 32)
  /-- SET_FILTER_RESONANCE, format EF, R180 -/
  | setFilterResonance (e : EngineSel) (f : BitVec 32)
  /-- SET_FILTER_MODE, format EA, R182 -/
  | setFilterMode (e : EngineSel) (a : BitVec 16)
  /-- SET_FILTER_ENABLE, format EA, R183 -/
  | setFilterEnable (e : EngineSel) (a : BitVec 16)
  /-- SET_LFO_RATE, format EF, R160 -/
  | setLfoRate (e : EngineSel) (f : BitVec 32)
  /-- SET_LFO_DEPTH, format EF, R161 -/
  | setLfoDepth (e : EngineSel) (f : BitVec 32)
  /-- SET_LFO_WAVEFORM, format EA, R162 -/
  | setLfoWaveform (e : EngineSel) (a : BitVec 16)
  /-- SET_LFO_ROUTE, format EA, R163 -/
  | setLfoRoute (e : EngineSel) (a : BitVec 16)
  /-- SET_DELAY_ENABLE, format EA, R244 -/
  | setDelayEnable (e : EngineSel) (a : BitVec 16)
  /-- SET_DELAY_TIME, format EF, R245 -/
  | setDelayTime (e : EngineSel) (f : BitVec 32)
  /-- SET_DELAY_FEEDBACK, format EF, R246 -/
  | setDelayFeedback (e : EngineSel) (f : BitVec 32)
  /-- SET_DELAY_MIX, format EF, R247 -/
  | setDelayMix (e : EngineSel) (f : BitVec 32)
  /-- SET_REVERB_ENABLE, format EA, R254 -/
  | setReverbEnable (e : EngineSel) (a : BitVec 16)
  /-- SET_REVERB_ROOM, format EF, R255 -/
  | setReverbRoom (e : EngineSel) (f : BitVec 32)
  /-- SET_REVERB_DAMP, format EF, R256 -/
  | setReverbDamp (e : EngineSel) (f : BitVec 32)
  /-- SET_TREMOLO_ENABLE, format EA, R264 -/
  | setTremoloEnable (e : EngineSel) (a : BitVec 16)
  /-- SET_TREMOLO_RATE, format EF, R265 -/
  | setTremoloRate (e : EngineSel) (f : BitVec 32)
  /-- SET_TREMOLO_DEPTH, format EF, R266 -/
  | setTremoloDepth (e : EngineSel) (f : BitVec 32)
  /-- SET_FLANGER_ENABLE, format EA, R274 -/
  | setFlangerEnable (e : EngineSel) (a : BitVec 16)
  /-- SET_FLANGER_RATE, format EF, R275 -/
  | setFlangerRate (e : EngineSel) (f : BitVec 32)
  /-- SET_FLANGER_DEPTH, format EF, R276 -/
  | setFlangerDepth (e : EngineSel) (f : BitVec 32)
  /-- SET_FLANGER_FEEDBACK, format EF, R277 -/
  | setFlangerFeedback (e : EngineSel) (f : BitVec 32)
  /-- SET_FLANGER_MIX, format EF, R278 -/
  | setFlangerMix (e : EngineSel) (f : BitVec 32)
deriving DecidableEq, Repr

end Sys2Proof
end

