-- ==== Sys2Proof/WellFormed.lean ====
section
/-! DEFINITION. When a command is well formed, and when a configuration is. -/

namespace Sys2Proof

/-- STOP_ALL_NOTES has an encoding for the timeline engine only: its operand "`E`, which must be 1" (spec/46_engine.md
R220). Every other command is well formed whatever its operands (R13, R83). -/
def Instr.wf : Instr → Bool
  | .nop => true
  | .reset => true
  | .getSampleRate => true
  | .process _ => true
  | .setMasterVolume _ => true
  | .setEngineVolume _ _ => true
  | .noteOn _ _ _ => true
  | .noteOff _ _ => true
  | .stopAllNotes e => decide (e = .timeline)
  | .setWaveform _ _ => true
  | .setAttack _ _ => true
  | .setDecay _ _ => true
  | .setSustain _ _ => true
  | .setRelease _ _ => true
  | .setDetune _ _ => true
  | .setGlideTime _ _ => true
  | .setFilterCutoff _ _ => true
  | .setFilterResonance _ _ => true
  | .setFilterMode _ _ => true
  | .setFilterEnable _ _ => true
  | .setLfoRate _ _ => true
  | .setLfoDepth _ _ => true
  | .setLfoWaveform _ _ => true
  | .setLfoRoute _ _ => true
  | .setDelayEnable _ _ => true
  | .setDelayTime _ _ => true
  | .setDelayFeedback _ _ => true
  | .setDelayMix _ _ => true
  | .setReverbEnable _ _ => true
  | .setReverbRoom _ _ => true
  | .setReverbDamp _ _ => true
  | .setTremoloEnable _ _ => true
  | .setTremoloRate _ _ => true
  | .setTremoloDepth _ _ => true
  | .setFlangerEnable _ _ => true
  | .setFlangerRate _ _ => true
  | .setFlangerDepth _ _ => true
  | .setFlangerFeedback _ _ => true
  | .setFlangerMix _ _ => true

/-- The constraints a configuration must meet (spec/00_scope.md R9). DESIGN CHOICE (assumption log 20): sums, floors and
comparisons are taken on the fields' exact decimal values, not on the `Num` values the arithmetic then uses; R9 does not
say which. -/
def Config.wf (C : Config) : Bool :=
  decide (
    1000 ≤ C.fs ∧ C.fs ≤ 192000 ∧ 1 ≤ C.nvoices ∧ C.nengines = 2 ∧ 1 ≤ C.blockMax ∧ C.blockMax < 2 ^ 32 ∧
    (C.delayLen : Int) = C.delayMaxS.floorMul C.fs ∧ 1 ≤ C.delayLen ∧
    (C.flBaseS.add C.flSweepS).floorMul C.fs + 2 ≤ (C.flLen : Int) ∧
    1 ≤ C.combLen.k0 ∧ 1 ≤ C.combLen.k1 ∧ 1 ≤ C.combLen.k2 ∧ 1 ≤ C.combLen.k3 ∧ 1 ≤ C.apLen.j0 ∧ 1 ≤ C.apLen.j1 ∧
    Dec.lt ⟨0, 0⟩ C.qMin ∧ Dec.le C.qMin C.qBase ∧ Dec.lt C.qBase ⟨2, 0⟩ ∧
    Dec.le ⟨0, 0⟩ C.fbMax ∧ Dec.lt C.fbMax ⟨1, 0⟩ ∧
    Dec.lt (C.revFbBase.add C.revFbScale) ⟨1, 0⟩ ∧
    Dec.le ⟨0, 0⟩ C.revDampScale ∧ Dec.lt C.revDampScale ⟨1, 0⟩)

end Sys2Proof
end

