-- ==== Sys2Proof/Decode.lean ====
section
/-! DEFINITION. Decoding a 64-bit command word, and the encoder beside it (spec/30_encoding.md R80 to R87). Decoding is
total; a reserved word is rejected by name, and the machine then executes it as NOP (R86). -/

namespace Sys2Proof

/-! ## Fields (R80) -/

def fieldOP (w : CmdWord) : BitVec 8 := w.extractLsb' 56 8
def fieldE (w : CmdWord) : EngineSel := if w.getLsbD 55 then .timeline else .live
def fieldRSV (w : CmdWord) : BitVec 7 := w.extractLsb' 48 7
def fieldA (w : CmdWord) : BitVec 16 := w.extractLsb' 32 16
def fieldF (w : CmdWord) : BitVec 32 := w.extractLsb' 0 32

/-! ## Decoding -/

/-- What a command word is: a command, or one of the two kinds of reserved word (R86). -/
inductive Decoded where
  /-- a word of the opcode map (R84) -/
  | command (i : Instr)
  /-- an `OP` value without a row -/
  | reservedOpcode (op : BitVec 8)
  /-- `OP = 0x12` with `E = 0` -/
  | reservedStopAllLive
deriving DecidableEq, Repr

/-- The opcode map (R84). Bits the format does not read are ignored (R81, R87). -/
def decode (w : CmdWord) : Decoded :=
  match (fieldOP w).toNat with
  | 0x00 => .command .nop
  | 0x01 => .command .reset
  | 0x02 => .command .getSampleRate
  | 0x03 => .command (.process (fieldF w))
  | 0x04 => .command (.setMasterVolume (fieldF w))
  | 0x05 => .command (.setEngineVolume (fieldE w) (fieldF w))
  | 0x10 => .command (.noteOn (fieldE w) (fieldA w) (fieldF w))
  | 0x11 => .command (.noteOff (fieldE w) (fieldA w))
  | 0x12 => if fieldE w = .timeline then .command (.stopAllNotes .timeline) else .reservedStopAllLive
  | 0x20 => .command (.setWaveform (fieldE w) (fieldA w))
  | 0x21 => .command (.setAttack (fieldE w) (fieldF w))
  | 0x22 => .command (.setDecay (fieldE w) (fieldF w))
  | 0x23 => .command (.setSustain (fieldE w) (fieldF w))
  | 0x24 => .command (.setRelease (fieldE w) (fieldF w))
  | 0x25 => .command (.setDetune (fieldE w) (fieldF w))
  | 0x26 => .command (.setGlideTime (fieldE w) (fieldF w))
  | 0x30 => .command (.setFilterCutoff (fieldE w) (fieldF w))
  | 0x31 => .command (.setFilterResonance (fieldE w) (fieldF w))
  | 0x32 => .command (.setFilterMode (fieldE w) (fieldA w))
  | 0x33 => .command (.setFilterEnable (fieldE w) (fieldA w))
  | 0x38 => .command (.setLfoRate (fieldE w) (fieldF w))
  | 0x39 => .command (.setLfoDepth (fieldE w) (fieldF w))
  | 0x3A => .command (.setLfoWaveform (fieldE w) (fieldA w))
  | 0x3B => .command (.setLfoRoute (fieldE w) (fieldA w))
  | 0x40 => .command (.setDelayEnable (fieldE w) (fieldA w))
  | 0x41 => .command (.setDelayTime (fieldE w) (fieldF w))
  | 0x42 => .command (.setDelayFeedback (fieldE w) (fieldF w))
  | 0x43 => .command (.setDelayMix (fieldE w) (fieldF w))
  | 0x48 => .command (.setReverbEnable (fieldE w) (fieldA w))
  | 0x49 => .command (.setReverbRoom (fieldE w) (fieldF w))
  | 0x4A => .command (.setReverbDamp (fieldE w) (fieldF w))
  | 0x50 => .command (.setTremoloEnable (fieldE w) (fieldA w))
  | 0x51 => .command (.setTremoloRate (fieldE w) (fieldF w))
  | 0x52 => .command (.setTremoloDepth (fieldE w) (fieldF w))
  | 0x58 => .command (.setFlangerEnable (fieldE w) (fieldA w))
  | 0x59 => .command (.setFlangerRate (fieldE w) (fieldF w))
  | 0x5A => .command (.setFlangerDepth (fieldE w) (fieldF w))
  | 0x5B => .command (.setFlangerFeedback (fieldE w) (fieldF w))
  | 0x5C => .command (.setFlangerMix (fieldE w) (fieldF w))
  | _ => .reservedOpcode (fieldOP w)

/-- The command a word is executed as: "a reserved word executes as NOP" (R86, 49_system.md R310). -/
def Decoded.executedAs : Decoded → Instr
  | .command i => i
  | .reservedOpcode _ => .nop
  | .reservedStopAllLive => .nop

/-! ## Serialised words

"If a platform serialises these words into bytes it does so least significant byte first" (20_memory.md R63). -/

/-- The reading of a byte stream's first command word. -/
inductive ByteDecoded where
  /-- a whole word, and the bytes after it -/
  | word (d : Decoded) (rest : List (BitVec 8))
  /-- fewer than eight bytes are left: no command word (R80: "There is one length") -/
  | short (bytes : List (BitVec 8))
deriving DecidableEq, Repr

def decodeBytes : List (BitVec 8) → ByteDecoded
  | b0 :: b1 :: b2 :: b3 :: b4 :: b5 :: b6 :: b7 :: rest =>
    .word (decode (b7 ++ b6 ++ b5 ++ b4 ++ b3 ++ b2 ++ b1 ++ b0)) rest
  | bytes => .short bytes

/-! ## The host's reading of a word of the opcode table -/

/-- The instruction the decoder reads from the word whose bits are `w`, the bits from `nbits` up being 0. -/
def decodeTableWord (nbits w : Nat) : Option Instr :=
  match decode (BitVec.ofNat 64 (w % 2 ^ nbits)) with
  | .command i => some i
  | .reservedOpcode _ => none
  | .reservedStopAllLive => none

/-! ## Encoding -/

/-- The opcode (R84). -/
def opcode : Instr → BitVec 8
  | .nop => 0x00#8
  | .reset => 0x01#8
  | .getSampleRate => 0x02#8
  | .process _ => 0x03#8
  | .setMasterVolume _ => 0x04#8
  | .setEngineVolume _ _ => 0x05#8
  | .noteOn _ _ _ => 0x10#8
  | .noteOff _ _ => 0x11#8
  | .stopAllNotes _ => 0x12#8
  | .setWaveform _ _ => 0x20#8
  | .setAttack _ _ => 0x21#8
  | .setDecay _ _ => 0x22#8
  | .setSustain _ _ => 0x23#8
  | .setRelease _ _ => 0x24#8
  | .setDetune _ _ => 0x25#8
  | .setGlideTime _ _ => 0x26#8
  | .setFilterCutoff _ _ => 0x30#8
  | .setFilterResonance _ _ => 0x31#8
  | .setFilterMode _ _ => 0x32#8
  | .setFilterEnable _ _ => 0x33#8
  | .setLfoRate _ _ => 0x38#8
  | .setLfoDepth _ _ => 0x39#8
  | .setLfoWaveform _ _ => 0x3A#8
  | .setLfoRoute _ _ => 0x3B#8
  | .setDelayEnable _ _ => 0x40#8
  | .setDelayTime _ _ => 0x41#8
  | .setDelayFeedback _ _ => 0x42#8
  | .setDelayMix _ _ => 0x43#8
  | .setReverbEnable _ _ => 0x48#8
  | .setReverbRoom _ _ => 0x49#8
  | .setReverbDamp _ _ => 0x4A#8
  | .setTremoloEnable _ _ => 0x50#8
  | .setTremoloRate _ _ => 0x51#8
  | .setTremoloDepth _ _ => 0x52#8
  | .setFlangerEnable _ _ => 0x58#8
  | .setFlangerRate _ _ => 0x59#8
  | .setFlangerDepth _ _ => 0x5A#8
  | .setFlangerFeedback _ _ => 0x5B#8
  | .setFlangerMix _ _ => 0x5C#8

def bitE : EngineSel → BitVec 1
  | .live => 0#1
  | .timeline => 1#1

/-- The word with these fields, `RSV` zero (R80). -/
def packWord (op : BitVec 8) (e : EngineSel) (a : BitVec 16) (f : BitVec 32) : CmdWord :=
  op ++ bitE e ++ 0#7 ++ a ++ f

/-- The word of a command; "unread fields are assembled as zero" (R88). -/
def encode (i : Instr) : CmdWord :=
  match i with
  | .nop => packWord 0x00#8 .live 0#16 0#32
  | .reset => packWord 0x01#8 .live 0#16 0#32
  | .getSampleRate => packWord 0x02#8 .live 0#16 0#32
  | .process n => packWord 0x03#8 .live 0#16 n
  | .setMasterVolume f => packWord 0x04#8 .live 0#16 f
  | .setEngineVolume e f => packWord 0x05#8 e 0#16 f
  | .noteOn e a f => packWord 0x10#8 e a f
  | .noteOff e a => packWord 0x11#8 e a 0#32
  | .stopAllNotes e => packWord 0x12#8 e 0#16 0#32
  | .setWaveform e a => packWord 0x20#8 e a 0#32
  | .setAttack e f => packWord 0x21#8 e 0#16 f
  | .setDecay e f => packWord 0x22#8 e 0#16 f
  | .setSustain e f => packWord 0x23#8 e 0#16 f
  | .setRelease e f => packWord 0x24#8 e 0#16 f
  | .setDetune e f => packWord 0x25#8 e 0#16 f
  | .setGlideTime e f => packWord 0x26#8 e 0#16 f
  | .setFilterCutoff e f => packWord 0x30#8 e 0#16 f
  | .setFilterResonance e f => packWord 0x31#8 e 0#16 f
  | .setFilterMode e a => packWord 0x32#8 e a 0#32
  | .setFilterEnable e a => packWord 0x33#8 e a 0#32
  | .setLfoRate e f => packWord 0x38#8 e 0#16 f
  | .setLfoDepth e f => packWord 0x39#8 e 0#16 f
  | .setLfoWaveform e a => packWord 0x3A#8 e a 0#32
  | .setLfoRoute e a => packWord 0x3B#8 e a 0#32
  | .setDelayEnable e a => packWord 0x40#8 e a 0#32
  | .setDelayTime e f => packWord 0x41#8 e 0#16 f
  | .setDelayFeedback e f => packWord 0x42#8 e 0#16 f
  | .setDelayMix e f => packWord 0x43#8 e 0#16 f
  | .setReverbEnable e a => packWord 0x48#8 e a 0#32
  | .setReverbRoom e f => packWord 0x49#8 e 0#16 f
  | .setReverbDamp e f => packWord 0x4A#8 e 0#16 f
  | .setTremoloEnable e a => packWord 0x50#8 e a 0#32
  | .setTremoloRate e f => packWord 0x51#8 e 0#16 f
  | .setTremoloDepth e f => packWord 0x52#8 e 0#16 f
  | .setFlangerEnable e a => packWord 0x58#8 e a 0#32
  | .setFlangerRate e f => packWord 0x59#8 e 0#16 f
  | .setFlangerDepth e f => packWord 0x5A#8 e 0#16 f
  | .setFlangerFeedback e f => packWord 0x5B#8 e 0#16 f
  | .setFlangerMix e f => packWord 0x5C#8 e 0#16 f

end Sys2Proof
end

