-- ==== Sys2Proof/Machine/Numerics.lean ====
section
/-! DEFINITION. The numerics record of spec/00_scope.md R10, and the primitives R15 defines over it. Every operation of
a unit is written once over this record; the machine uses its hardware instance (Machine/Float32.lean), and R11's
reference instance is in Machine/Reference.lean. -/

namespace Sys2Proof.Machine

/-- The numerics record `CFG.NUM` (R10). `ofDec` is R14's reading of a decimal literal: the `Num` nearest the value. -/
structure Numerics (α : Type) where
  add      : α → α → α
  sub      : α → α → α
  mul      : α → α → α
  div      : α → α → α
  lt       : α → α → Bool
  le       : α → α → Bool
  eq       : α → α → Bool
  floor    : α → α
  abs      : α → α
  ofInt    : Int → α
  ofDec    : Dec → α
  toNat    : α → Nat
  ofBits32 : BitVec 32 → α
  toBits32 : α → BitVec 32
  sin2pi   : α → α
  exp2     : α → α
  /-- what `clamp` gives of a NaN, which R15 leaves open (assumption log 15) -/
  clampNaN : α → α

namespace Numerics

variable {α : Type} (N : Numerics α)

/-- R15: the first operand on a tie. -/
def min (a b : α) : α := if N.le a b then a else b

/-- R15: the first operand on a tie. -/
def max (a b : α) : α := if N.le b a then a else b

/-- R15, "for a non-NaN `v`"; a NaN is what does not equal itself. -/
def clamp (v lo hi : α) : α :=
  if N.lt v lo then lo else if N.lt hi v then hi else if N.eq v v then v else N.clampNaN v

/-- R15: `p - floor(p)`. -/
def wrap01 (p : α) : α := N.sub p (N.floor p)

/-- The literal 0. -/
def zero : α := N.ofInt 0

/-- The literal 1. -/
def one : α := N.ofInt 1

/-- The literal 0.5. -/
def half : α := N.ofDec ⟨5, 1⟩

end Numerics

/-- R15: `clampI`, on integers. -/
def clampI (n lo hi : Int) : Int := if n < lo then lo else if hi < n then hi else n

end Sys2Proof.Machine
end

