-- ==== Sys2Proof/Machine/Float32.lean ====
section
/-! DEFINITION. The hardware instance of the numerics record (spec/00_scope.md R11): IEEE 754 binary32, round to nearest
even, gradual underflow, no fused operation, overflow to infinity. A finite datum is a whole multiple of `2^-149`;
every operation computes the exact result in that unit and rounds once. -/

namespace Sys2Proof.Machine.F32

/-! ## Fields of a datum (R82) -/

def sign (w : Word) : Bool := w.getLsbD 31

/-- Bits 30:0, which order the magnitudes. -/
def magBits (w : Word) : Nat := w.toNat % 2 ^ 31

def expField (w : Word) : Nat := magBits w / 2 ^ 23
def fracField (w : Word) : Nat := w.toNat % 2 ^ 23

/-- The bits of positive infinity. -/
def infBits : Nat := 0x7F800000

def isNaN (w : Word) : Bool := decide (infBits < magBits w)
def isInf (w : Word) : Bool := decide (magBits w = infBits)
def isFinite (w : Word) : Bool := decide (magBits w < infBits)

/-- The magnitude of a finite datum in units of `2^-149`. -/
def mag (w : Word) : Nat :=
  if expField w = 0 then fracField w else (fracField w + 2 ^ 23) * 2 ^ (expField w - 1)

/-- The value of a finite datum in units of `2^-149`. -/
def scaled (w : Word) : Int := if sign w then -(mag w : Int) else (mag w : Int)

/-- The datum with this sign and these magnitude bits. -/
def pack (neg : Bool) (m : Nat) : Word := BitVec.ofNat 32 (if neg then m + 2 ^ 31 else m)

def negate (w : Word) : Word := pack (!sign w) (magBits w)

/-! ## Rounding (R11) -/

/-- The magnitude bits of the binary32 datum nearest `num/den` in units of `2^-149`, ties to even, infinity past the
largest finite one. `2^k` units are one unit in the last place there. -/
def roundMag (num den : Nat) : Nat :=
  let k := (num / den).log2 - 23
  let d := den * 2 ^ k
  let m := num / d
  let r := num % d
  let m' := if d < 2 * r ∨ (2 * r = d ∧ m % 2 = 1) then m + 1 else m
  Nat.min (k * 2 ^ 23 + m') infBits

/-- A NaN, of any sign, quiet bit and payload (R13, U10; assumption log 6). -/
def nanResult (op : NanOp) (a b : Word) : Word :=
  let r := Config.nanBits op a b
  if r &&& 0x007FFFFF#32 = 0#32 then r ||| 0x7FC00000#32 else r ||| 0x7F800000#32

/-! ## Arithmetic -/

/-- The sum, with the NaN to return when there is one. An exact zero sum is `-0` only of two negative operands. -/
def sum (nan a b : Word) : Word :=
  if isNaN a || isNaN b then nan
  else if isInf a then (if isInf b && (sign a != sign b) then nan else a)
  else if isInf b then b
  else
    let z := scaled a + scaled b
    if z = 0 then pack (sign a && sign b) 0 else pack (decide (z < 0)) (roundMag z.natAbs 1)

def add (a b : Word) : Word := sum (nanResult .add a b) a b

def sub (a b : Word) : Word := sum (nanResult .sub a b) a (negate b)

def mul (a b : Word) : Word :=
  let s := sign a != sign b
  if isNaN a || isNaN b then nanResult .mul a b
  else if isInf a || isInf b then
    (if mag a = 0 || mag b = 0 then nanResult .mul a b else pack s infBits)
  else pack s (roundMag (mag a * mag b) (2 ^ 149))

def div (a b : Word) : Word :=
  let s := sign a != sign b
  if isNaN a || isNaN b then nanResult .div a b
  else if isInf a then (if isInf b then nanResult .div a b else pack s infBits)
  else if isInf b then pack s 0
  else if mag b = 0 then (if mag a = 0 then nanResult .div a b else pack s infBits)
  else pack s (roundMag (mag a * 2 ^ 149) (mag b))

/-! ## Comparison -/

/-- Orders the data that are not NaN; the two zeros share the key 0. -/
def key (w : Word) : Int := if sign w then -(magBits w : Int) else (magBits w : Int)

def lt (a b : Word) : Bool := !isNaN a && !isNaN b && decide (key a < key b)
def le (a b : Word) : Bool := !isNaN a && !isNaN b && decide (key a ≤ key b)
def eq (a b : Word) : Bool := !isNaN a && !isNaN b && decide (key a = key b)

/-! ## Conversions -/

/-- Exact; a zero result keeps the operand's sign. -/
def floor (w : Word) : Word :=
  if isNaN w then nanResult .floor w 0
  else if isInf w then w
  else
    let n := scaled w / 2 ^ 149
    if n = 0 then pack (sign w) 0 else pack (decide (n < 0)) (roundMag (n.natAbs * 2 ^ 149) 1)

def abs (w : Word) : Word := if isNaN w then nanResult .abs w 0 else pack false (magBits w)

def ofInt (n : Int) : Word := pack (decide (n < 0)) (roundMag (n.natAbs * 2 ^ 149) 1)

/-- R14: the binary32 datum nearest a decimal literal. -/
def ofDec (d : Dec) : Word := pack (decide (d.num < 0)) (roundMag (d.num.natAbs * 2 ^ 149) (10 ^ d.scale))

/-- R10: of a finite non-negative operand; outside that domain the value is free (assumption log 10). -/
def toNat (w : Word) : Nat :=
  if isFinite w && decide (0 ≤ scaled w) then mag w / 2 ^ 149 else Config.toNatFree w

/-- R10, R13: the identity on a datum that is not a NaN; of a NaN, some NaN pattern. -/
def toBits32 (w : Word) : BitVec 32 := if isNaN w then nanResult .toBits32 w 0 else w

/-! ## The two transcendental fields, free within R12 (assumption logs 7 to 9) -/

/-- A value for the key `k` strictly between the keys `lo` and `hi`, whose values are `flo` and `fhi`: the free function
made non-decreasing by bisection. Every non-decreasing function between the two values is reached by some free function,
itself among them. -/
def monoPick : Nat → Int → Int → Nat → Nat → Int → Nat
  | 0, _, _, flo, _, _ => flo
  | fuel + 1, lo, hi, flo, fhi, k =>
    let mid := (lo + hi) / 2
    let fmid := Nat.max flo (Nat.min fhi (Config.exp2Free mid))
    if k = mid then fmid
    else if k < mid then monoPick fuel lo mid flo fmid k
    else monoPick fuel mid hi fmid fhi k

/-- The bits of `exp2` at the finite operand of key `k`: `exp2(-1) = 1/2`, `exp2(0) = 1`, `exp2(1) = 2`,
non-decreasing, positive (R12). `0x3F800000` is the key of 1. -/
def exp2Bits (k : Int) : Nat :=
  if k = -0x3F800000 then 0x3F000000
  else if k = 0 then 0x3F800000
  else if k = 0x3F800000 then 0x40000000
  else if k < -0x3F800000 then monoPick 32 (-0x7F800000) (-0x3F800000) 1 0x3F000000 k
  else if k < 0 then monoPick 32 (-0x3F800000) 0 0x3F000000 0x3F800000 k
  else if k < 0x3F800000 then monoPick 32 0 0x3F800000 0x3F800000 0x40000000 k
  else monoPick 32 0x3F800000 0x7F800000 0x40000000 infBits k

def exp2 (w : Word) : Word :=
  if isFinite w then BitVec.ofNat 32 (exp2Bits (key w)) else Config.exp2NonFinite w

/-- `sin2pi` at 0, 1/4, 1/2, 3/4 is 0, 1, 0, -1, and lies in `[-1, 1]` on `[0, 1)` (R12). -/
def sin2pi (w : Word) : Word :=
  if key w = 0 then 0#32
  else if w = 0x3E800000#32 then 0x3F800000#32
  else if w = 0x3F000000#32 then 0#32
  else if w = 0x3F400000#32 then 0xBF800000#32
  else
    let r := Config.sin2piFree w
    if le 0#32 w && lt w 0x3F800000#32 then
      (if isNaN r then 0#32
       else if lt r 0xBF800000#32 then 0xBF800000#32
       else if lt 0x3F800000#32 r then 0x3F800000#32
       else r)
    else r

end Sys2Proof.Machine.F32

namespace Sys2Proof.Machine

/-- The hardware instance of the numerics record (R11). `ofBits32` is the identity: a `Num` is held as its bits. -/
def hw : Numerics Word where
  add      := F32.add
  sub      := F32.sub
  mul      := F32.mul
  div      := F32.div
  lt       := F32.lt
  le       := F32.le
  eq       := F32.eq
  floor    := F32.floor
  abs      := F32.abs
  ofInt    := F32.ofInt
  ofDec    := F32.ofDec
  toNat    := F32.toNat
  ofBits32 := fun w => w
  toBits32 := F32.toBits32
  sin2pi   := F32.sin2pi
  exp2     := F32.exp2
  clampNaN := Config.clampFree

end Sys2Proof.Machine
end

