-- ==== Sys2Proof/Machine/State.lean ====
section
/-! DEFINITION. The architectural state (spec/10_state.md, 20_memory.md R60) and its reset values (R48;
70_reset_and_hazards.md R350, R351). The units' state is written over the type `α` of `Num` (00_scope.md R10);
`State` alone takes the hardware instance's words. -/

namespace Sys2Proof.Machine

/-! ## Sample memories (20_memory.md R60) -/

/-- A sample memory: its non-zero words as (index, word), indices strictly rising. An index not listed reads as 0, the
reset contents of every memory (R60, R65). -/
abbrev Mem (α : Type) := List (Nat × α)

/-! ## Codes -/

/-- The waveform codes 0 to 3 (40_oscillator.md R103). -/
inductive Waveform where
  | sine
  | saw
  | square
  | triangle
deriving DecidableEq, Repr

/-- The filter mode codes 0 to 2 (10_state.md R38). -/
inductive FilterMode where
  | lowPass
  | highPass
  | bandPass
deriving DecidableEq, Repr

/-- The envelope stages (10_state.md R29). -/
inductive Stage where
  | idle
  | attack
  | decay
  | sustain
  | release
deriving DecidableEq, Repr

/-! ## Units -/

/-- The parameters all voices of an engine read (10_state.md R26). -/
structure VoiceParams (α : Type) where
  waveform : Waveform
  attack   : α
  decay    : α
  sustain  : α
  release  : α
  detune   : α
  glideMs  : α
deriving DecidableEq, Repr

/-- R28. -/
structure OscState (α : Type) where
  phase : α
  freq  : α
deriving DecidableEq, Repr

/-- R29. -/
structure EnvState (α : Type) where
  stage : Stage
  level : α
deriving DecidableEq, Repr

/-- R30. -/
structure GlideState (α : Type) where
  current : α
  target  : α
  step    : α
deriving DecidableEq, Repr

/-- R28 to R33. `age` is the unsigned `AGE_W`-bit counter, saturating (R32). -/
structure VoiceState (α : Type) where
  osc      : OscState α
  env      : EnvState α
  gl       : GlideState α
  active   : Bool
  age      : Nat
  velocity : α
deriving DecidableEq, Repr

/-- R35. -/
structure LfoState (α : Type) where
  phase    : α
  rate     : α
  depth    : α
  waveform : Waveform
deriving DecidableEq, Repr

/-- R37. -/
structure FilterState (α : Type) where
  low    : α
  band   : α
  high   : α
  notch  : α
  cutoff : α
  q      : α
deriving DecidableEq, Repr

/-- R41, with the memory `DL`. -/
structure DelayState (α : Type) where
  time     : α
  feedback : α
  mix      : α
  w        : Nat
  mem      : Mem α
deriving DecidableEq, Repr

/-- One comb `k` of R42: `ci[k]`, `lp[k]`, `CB[k]`. -/
structure CombState (α : Type) where
  ci  : Nat
  lp  : α
  mem : Mem α
deriving DecidableEq, Repr

/-- One all-pass `j` of R42: `ai[j]`, `AP[j]`. -/
structure AllPassState (α : Type) where
  ai  : Nat
  mem : Mem α
deriving DecidableEq, Repr

/-- R42. -/
structure ReverbState (α : Type) where
  room  : α
  damp  : α
  combs : Four (CombState α)
  aps   : Two (AllPassState α)
deriving DecidableEq, Repr

/-- R43. -/
structure TremoloState (α : Type) where
  rate  : α
  depth : α
  phase : α
deriving DecidableEq, Repr

/-- R44, with the memory `FL`. -/
structure FlangerState (α : Type) where
  rate     : α
  depth    : α
  feedback : α
  mix      : α
  phase    : α
  w        : Nat
  mem      : Mem α
deriving DecidableEq, Repr

/-- One engine (46_engine.md R210). -/
structure EngineState (α : Type) where
  prm        : VoiceParams α
  voices     : List (VoiceState α)
  lfo        : LfoState α
  flt        : FilterState α
  baseCutoff : α
  fltMode    : FilterMode
  fltEnable  : Bool
  lfoRoute   : Bool
  dlyEnable  : Bool
  revEnable  : Bool
  trmEnable  : Bool
  flgEnable  : Bool
  dly        : DelayState α
  rev        : ReverbState α
  trm        : TremoloState α
  flg        : FlangerState α
  /-- the scratch buffer `SCR` (20_memory.md R72) -/
  scr        : Mem α
deriving DecidableEq, Repr

/-! ## Reset values (70_reset_and_hazards.md R351) -/

section Reset

variable {α : Type} (N : Numerics α)

def VoiceParams.reset : VoiceParams α where
  waveform := .sine
  attack   := N.ofDec ⟨1, 2⟩
  decay    := N.ofDec ⟨1, 1⟩
  sustain  := N.ofDec ⟨7, 1⟩
  release  := N.ofDec ⟨3, 1⟩
  detune   := N.zero
  glideMs  := N.zero

def VoiceState.reset : VoiceState α where
  osc      := ⟨N.zero, N.zero⟩
  env      := ⟨.idle, N.zero⟩
  gl       := ⟨N.zero, N.zero, N.zero⟩
  active   := false
  age      := 0
  velocity := N.zero

def LfoState.reset : LfoState α where
  phase    := N.zero
  rate     := N.one
  depth    := N.zero
  waveform := .sine

/-- `q` resets to `Q_BASE` (R37). -/
def FilterState.reset (C : Config) : FilterState α where
  low    := N.zero
  band   := N.zero
  high   := N.zero
  notch  := N.zero
  cutoff := N.ofInt 1000
  q      := N.ofDec C.qBase

def DelayState.reset : DelayState α where
  time     := N.ofDec ⟨3, 1⟩
  feedback := N.ofDec ⟨3, 1⟩
  mix      := N.ofDec ⟨3, 1⟩
  w        := 0
  mem      := []

def CombState.reset : CombState α := ⟨0, N.zero, []⟩

def AllPassState.reset : AllPassState α := ⟨0, []⟩

def ReverbState.reset : ReverbState α where
  room  := N.half
  damp  := N.half
  combs := ⟨CombState.reset N, CombState.reset N, CombState.reset N, CombState.reset N⟩
  aps   := ⟨AllPassState.reset, AllPassState.reset⟩

def TremoloState.reset : TremoloState α where
  rate  := N.ofInt 5
  depth := N.half
  phase := N.zero

def FlangerState.reset : FlangerState α where
  rate     := N.half
  depth    := N.half
  feedback := N.ofDec ⟨3, 1⟩
  mix      := N.half
  phase    := N.zero
  w        := 0
  mem      := []

def EngineState.reset (C : Config) : EngineState α where
  prm        := VoiceParams.reset N
  voices     := List.replicate C.nvoices (VoiceState.reset N)
  lfo        := LfoState.reset N
  flt        := FilterState.reset N C
  baseCutoff := N.ofInt 1000
  fltMode    := .lowPass
  fltEnable  := false
  lfoRoute   := false
  dlyEnable  := false
  revEnable  := false
  trmEnable  := false
  flgEnable  := false
  dly        := DelayState.reset N
  rev        := ReverbState.reset N
  trm        := TremoloState.reset N
  flg        := FlangerState.reset N
  scr        := []

end Reset

/-! ## The machine -/

/-- One sample on the output stream: `out_sample` and `out_last` (20_memory.md R71). -/
structure OutSample where
  word : BitVec 32
  last : Bool
deriving DecidableEq, Repr

/-- The block's state, the configuration it is built with, and the host's side of its ports, over the type `α` of `Num`:
`State` alone is the hardware instance's (00_scope.md R8, R11). -/
structure State (α : Type := Word) where
  /-- `CFG`, a constant of the machine (00_scope.md R8; assumption log 11) -/
  cfg         : Config
  /-- R24 -/
  masterVol   : α
  /-- `vol[0]`, R24 -/
  volLive     : α
  /-- `vol[1]`, R24 -/
  volTimeline : α
  /-- R25 -/
  busy        : Bool
  /-- `E[0]` -/
  live        : EngineState α
  /-- `E[1]` -/
  timeline    : EngineState α
  /-- samples emitted and not yet taken by the host, oldest first (R15, R71) -/
  outPort     : List OutSample
  /-- samples the host has taken since reset, oldest first (R71; assumption log 4) -/
  outStream   : List OutSample
  /-- words put on the response port since reset, oldest first (R15, R314; assumption log 4) -/
  rsp         : List (BitVec 32)
  /-- the host's command words, oldest first (R66; assumption log 1) -/
  cmdIn       : List CmdWord
  /-- the host's `out_ready` at the coming output steps (R361; assumption log 3) -/
  outReady    : List Bool
  /-- the host's `out_ready` at every output step after those; false of a host that stops taking samples (R361,
  93_implementation_defined.md U12; assumption log 3) -/
  outReadyEnd : Bool
  /-- `rst_n` is low at the coming step (R350; assumption log 5) -/
  rst         : Bool
deriving DecidableEq, Repr

/-- "The block raises no synchronous exception" (60_exceptions.md R320): there is no fault. -/
inductive Fault where
deriving DecidableEq, Repr

/-- Why a step can have no meaning. -/
inductive Refusal where
  /-- Raised by `exec` for a command without a meaning yet; safe. No arm raises it. -/
  | notModelled (mnemonic : String)
  /-- Raised by `step` when the configuration violates 00_scope.md R9, "refused by the model (it has no meaning)"
  (R322, U4); safe. -/
  | badConfig
deriving DecidableEq, Repr

/-- The block right after construction with the configuration `C` and the numerics `N`, nothing on any port. -/
def State.resetAt {α : Type} (N : Numerics α) (C : Config) : State α where
  cfg         := C
  masterVol   := N.one
  volLive     := N.ofDec ⟨3, 1⟩
  volTimeline := N.ofDec ⟨3, 1⟩
  busy        := false
  live        := EngineState.reset N C
  timeline    := EngineState.reset N C
  outPort     := []
  outStream   := []
  rsp         := []
  cmdIn       := []
  outReady    := []
  outReadyEnd := true
  rst         := false

/-- With the hardware instance. -/
def State.resetWith (C : Config) : State := State.resetAt hw C

/-- The machine right after reset, with the default configuration. -/
def State.reset : State := State.resetWith Config.default

end Sys2Proof.Machine
end

