-- ==== Sys2Proof/Machine/Ops.lean ====
section
/-! DEFINITION. The named operations over sample memories (spec/20_memory.md), over the state, and on the ports.

TAKING AN EXCEPTION has no operation here: "the block raises no synchronous exception" (60_exceptions.md R320), "there is
no trap entry" (R328) and "no return-from-trap command" (R330). -/

namespace Sys2Proof.Machine

/-! ## Sample memories -/

section Memory

variable {α : Type}

/-- The word at an index; `z` is what an unlisted index reads as (R60, R65). -/
def Mem.read (z : α) : Mem α → Nat → α
  | [], _ => z
  | (j, w) :: t, i => if i = j then w else Mem.read z t i

/-- Stores a word that is not zero. -/
def Mem.put (i : Nat) (v : α) : Mem α → Mem α
  | [] => [(i, v)]
  | (j, w) :: t => if i < j then (i, v) :: (j, w) :: t else if i = j then (i, v) :: t else (j, w) :: Mem.put i v t

/-- Makes an index read as zero. -/
def Mem.erase (i : Nat) : Mem α → Mem α
  | [] => []
  | (j, w) :: t => if i < j then (j, w) :: t else if i = j then t else (j, w) :: Mem.erase i t

/-- `MemWrite(M, i, v)` (00_scope.md R15), keeping the canonical form. -/
def Mem.write [DecidableEq α] (z : α) (m : Mem α) (i : Nat) (v : α) : Mem α :=
  if v = z then Mem.erase i m else Mem.put i v m

/-- Indices strictly rising from `lo`, below `len`, and no zero word. -/
def Mem.wfFrom [DecidableEq α] (z : α) (len : Nat) : Nat → Mem α → Bool
  | _, [] => true
  | lo, (j, w) :: t => decide (lo ≤ j) && decide (j < len) && decide (w ≠ z) && Mem.wfFrom z len (j + 1) t

/-- The canonical form of a memory of `len` words. -/
def Mem.wf [DecidableEq α] (z : α) (len : Nat) (m : Mem α) : Bool := Mem.wfFrom z len 0 m

/-- `(w - d) mod L`, the non-negative remainder (R62). -/
def idxBack (L w d : Nat) : Nat := (((w : Int) - (d : Int)) % (L : Int)).toNat

/-- `(w + 1) mod L` (R62). -/
def idxNext (L w : Nat) : Nat := (w + 1) % L

/-- "for i = 0 to n-1: f i", in ascending order. -/
def forSamples {σ : Type} (f : Nat → σ → σ) : Nat → σ → σ
  | 0, s => s
  | n + 1, s => f n (forSamples f n s)

/-- Zeroes the words `0 .. n-1` (R72). -/
def Mem.zeroBelow [DecidableEq α] (z : α) (n : Nat) (m : Mem α) : Mem α :=
  forSamples (fun i m => Mem.write z m i z) n m

/-- Changes the element at an index of a list, the voice pool's write (10_state.md R21). -/
def updAt (f : α → α) : Nat → List α → List α
  | _, [] => []
  | 0, a :: t => f a :: t
  | i + 1, a :: t => a :: updAt f i t

end Memory

section Machine

variable {α : Type}

/-! ## The engines and volumes, by the engine bit (46_engine.md R226) -/

def State.engine (s : State α) : EngineSel → EngineState α
  | .live => s.live
  | .timeline => s.timeline

def State.updEngine (s : State α) (e : EngineSel) (g : EngineState α → EngineState α) : State α :=
  match e with
  | .live => { s with live := g s.live }
  | .timeline => { s with timeline := g s.timeline }

def State.vol (s : State α) : EngineSel → α
  | .live => s.volLive
  | .timeline => s.volTimeline

def State.setVol (s : State α) (e : EngineSel) (v : α) : State α :=
  match e with
  | .live => { s with volLive := v }
  | .timeline => { s with volTimeline := v }

/-! ## Ports -/

/-- `respond(w)` (00_scope.md R15). -/
def State.respond (s : State α) (w : BitVec 32) : State α := { s with rsp := s.rsp ++ [w] }

/-- `emit` of a block's samples, in order (00_scope.md R15, 20_memory.md R71). -/
def State.emit (s : State α) (xs : List OutSample) : State α := { s with outPort := s.outPort ++ xs }

/-- The host's `out_ready` at the coming output step. -/
def State.hostReady (s : State α) : Bool := s.outReady.headD s.outReadyEnd

/-- The host takes the oldest sample; taking the one marked `out_last` completes the PROCESS, which lowers `busy`
(48_mixer.md R294). -/
def State.take (s : State α) : State α :=
  match s.outPort with
  | [] => { s with busy := false }
  | x :: xs => { s with busy := !x.last, outPort := xs, outStream := s.outStream ++ [x] }

/-- One output step (20_memory.md R71): with `out_ready` low nothing moves, for as long as the host keeps it so (R361,
93_implementation_defined.md U12); with it high the host takes a sample. -/
def State.drain (s : State α) : State α :=
  let s' := { s with outReady := s.outReady.tail }
  if s.hostReady then s'.take else s'

/-! ## Reset (70_reset_and_hazards.md R350) -/

/-- Every element of the block at its reset value, ports emptied; the configuration (R352) and what the host drives
stand. -/
def State.afterReset (N : Numerics α) (s : State α) : State α :=
  { State.resetAt N s.cfg with
    cmdIn := s.cmdIn, outReady := s.outReady, outReadyEnd := s.outReadyEnd, rst := s.rst }

end Machine

end Sys2Proof.Machine
end

