-- ==== Sys2Proof/Machine/Operands.lean ====
section
/-! DEFINITION. Reading the operand fields of a command (spec/30_encoding.md R82, R83). -/

namespace Sys2Proof.Machine

/-- A command that reads `F` as a `Num` (R82): discarded whole when `F` is a NaN (00_scope.md R13), else `k` of its
value. The NaN test precedes everything else (60_exceptions.md R326). -/
def withNum {α : Type} (N : Numerics α) (f : BitVec 32) (s : State α) (k : α → State α) :
    Host.Outcome (State α) Fault Refusal :=
  if F32.isNaN f then .next s else .next (k (N.ofBits32 f))

/-- A waveform code: `clampI(sint(A), 0, 3)` (R83; 40_oscillator.md R103). -/
def waveformOperand (a : BitVec 16) : Waveform :=
  match clampI a.toInt 0 3 with
  | 0 => .sine
  | 1 => .saw
  | 2 => .square
  | _ => .triangle

/-- A filter mode code: `clampI(sint(A), 0, 2)` (R83; 44_filter.md R182). -/
def modeOperand (a : BitVec 16) : FilterMode :=
  match clampI a.toInt 0 2 with
  | 0 => .lowPass
  | 1 => .highPass
  | _ => .bandPass

/-- A note number: `clampI(sint(A), 0, 127)` (R83). -/
def noteOperand (a : BitVec 16) : Int := clampI a.toInt 0 127

/-- A Boolean: `A != 0` (R83). -/
def boolOperand (a : BitVec 16) : Bool := a != 0#16

/-- PROCESS's block length: `min(uint(F), BLOCK_MAX)` (R83; 48_mixer.md R292). -/
def blockLength (C : Config) (n : BitVec 32) : Nat := Nat.min n.toNat C.blockMax

end Sys2Proof.Machine
end

