-- ==== Sys2Proof/Machine/Flags.lean ====
section
/-! DEFINITION. The flag-like state and the predicates over it (spec/10_state.md R34, R39, R40). There are no arithmetic
status flags: no operation sets a flag as a side effect of arithmetic (R40). -/

namespace Sys2Proof.Machine

variable {α : Type}

/-- `Env.isActive()` (41_envelope.md R125). -/
def EnvState.isActive (v : EnvState α) : Bool := decide (v.stage ≠ .idle)

/-- `Voice.isActive()` (45_voice.md R196). -/
def VoiceState.isActive (v : VoiceState α) : Bool := v.active || v.env.isActive

/-- `Voice.isReleasing()` (45_voice.md R197). -/
def VoiceState.isReleasing (v : VoiceState α) : Bool := !v.active && v.env.isActive

/-! The chain's enable flags (10_state.md R39), each written whole by its command. -/

def EngineState.setFltEnable (b : Bool) (E : EngineState α) : EngineState α := { E with fltEnable := b }
def EngineState.setDlyEnable (b : Bool) (E : EngineState α) : EngineState α := { E with dlyEnable := b }
def EngineState.setRevEnable (b : Bool) (E : EngineState α) : EngineState α := { E with revEnable := b }
def EngineState.setTrmEnable (b : Bool) (E : EngineState α) : EngineState α := { E with trmEnable := b }
def EngineState.setFlgEnable (b : Bool) (E : EngineState α) : EngineState α := { E with flgEnable := b }

/-- Switching the route off restores the unmodulated cutoff (43_lfo.md R163). -/
def EngineState.setLfoRoute (b : Bool) (E : EngineState α) : EngineState α :=
  { E with lfoRoute := b, flt := if b then E.flt else { E.flt with cutoff := E.baseCutoff } }

end Sys2Proof.Machine
end

