-- ==== Sys2Proof/Machine/Oscillator.lean ====
section
/-! DEFINITION. The oscillator (spec/40_oscillator.md): phase accumulator, waveform selector, detune. -/

namespace Sys2Proof.Machine

section Units

variable {α : Type} (N : Numerics α) (C : Config) (P : VoiceParams α)

/-- `wave(code, p)` (R103); the LFO uses it too (43_lfo.md R157). A code outside 0..3 cannot be represented (R104, U13). -/
def wave (c : Waveform) (p : α) : α :=
  match c with
  | .sine => N.sin2pi p
  | .saw => N.sub (N.mul (N.ofInt 2) p) N.one
  | .square => if N.lt p N.half then N.one else N.ofInt (-1)
  | .triangle =>
    if N.lt p N.half then N.sub (N.mul (N.ofInt 4) p) N.one else N.sub (N.ofInt 3) (N.mul (N.ofInt 4) p)

/-- `Osc.feff()` (R101). -/
def OscState.feff (o : OscState α) : α := N.mul o.freq (N.exp2 (N.div P.detune (N.ofInt 1200)))

/-- `Osc.process()` (R102): advance, wrap, then emit at the new phase. -/
def OscState.process (o : OscState α) : OscState α × α :=
  let inc := N.div (o.feff N P) (N.ofInt C.fs)
  let phase := N.wrap01 (N.add o.phase inc)
  ({ o with phase := phase }, wave N P.waveform phase)

/-- `Osc.resetPhase()` (R105). -/
def OscState.resetPhase (o : OscState α) : OscState α := { o with phase := N.zero }

/-- `Osc.setFrequency(f)` (R106): `max(f, 0)`. -/
def OscState.setFrequency (o : OscState α) (f : α) : OscState α := { o with freq := N.max f N.zero }

/-- `Osc.setWaveform(code)` (R107). -/
def EngineState.setWaveform (c : Waveform) (E : EngineState α) : EngineState α :=
  { E with prm := { E.prm with waveform := c } }

/-- `Osc.setDetune(cents)` (R107, R112). -/
def EngineState.setDetune (x : α) (E : EngineState α) : EngineState α :=
  { E with prm := { E.prm with detune := N.clamp x (N.ofDec ⟨-C.detuneMax.num, C.detuneMax.scale⟩) (N.ofDec C.detuneMax) } }

end Units

/-- SET_WAVEFORM (R110). -/
def execSetWaveformAt {α : Type} (e : EngineSel) (a : BitVec 16) (s : State α) :
    Host.Outcome (State α) Fault Refusal :=
  .next (s.updEngine e (EngineState.setWaveform (waveformOperand a)))

def execSetWaveform (e : EngineSel) (a : BitVec 16) (s : State) : Host.Outcome State Fault Refusal :=
  execSetWaveformAt e a s

/-- SET_DETUNE (R112). -/
def execSetDetuneAt {α : Type} (N : Numerics α) (e : EngineSel) (f : BitVec 32) (s : State α) :
    Host.Outcome (State α) Fault Refusal :=
  withNum N f s fun x => s.updEngine e (EngineState.setDetune N s.cfg x)

def execSetDetune (e : EngineSel) (f : BitVec 32) (s : State) : Host.Outcome State Fault Refusal :=
  execSetDetuneAt hw e f s

end Sys2Proof.Machine
end

