-- ==== Sys2Proof/Machine/Lfo.lean ====
section
/-! DEFINITION. The modulation LFO (spec/43_lfo.md). -/

namespace Sys2Proof.Machine

section Units

variable {α : Type} (N : Numerics α) (C : Config)

/-- `Lfo.process()` (R156): bipolar, scaled by the depth. -/
def LfoState.process (l : LfoState α) : LfoState α × α :=
  let phase := N.wrap01 (N.add l.phase (N.div l.rate (N.ofInt C.fs)))
  ({ l with phase := phase }, N.mul (wave N l.waveform phase) l.depth)

/-- A modulation rate clamped into `[0, RATE_MAX]` (R160; 47_effects.md R265, R275). -/
def modRate (x : α) : α := N.clamp x N.zero (N.ofDec C.rateMax)

def EngineState.setLfoRate (x : α) (E : EngineState α) : EngineState α :=
  { E with lfo := { E.lfo with rate := modRate N C x } }

def EngineState.setLfoDepth (x : α) (E : EngineState α) : EngineState α :=
  { E with lfo := { E.lfo with depth := N.clamp x N.zero N.one } }

def EngineState.setLfoWaveform (c : Waveform) (E : EngineState α) : EngineState α :=
  { E with lfo := { E.lfo with waveform := c } }

end Units

/-- SET_LFO_RATE (R160). -/
def execSetLfoRateAt {α : Type} (N : Numerics α) (e : EngineSel) (f : BitVec 32) (s : State α) :
    Host.Outcome (State α) Fault Refusal :=
  withNum N f s fun x => s.updEngine e (EngineState.setLfoRate N s.cfg x)

def execSetLfoRate (e : EngineSel) (f : BitVec 32) (s : State) : Host.Outcome State Fault Refusal :=
  execSetLfoRateAt hw e f s

/-- SET_LFO_DEPTH (R161). -/
def execSetLfoDepthAt {α : Type} (N : Numerics α) (e : EngineSel) (f : BitVec 32) (s : State α) :
    Host.Outcome (State α) Fault Refusal :=
  withNum N f s fun x => s.updEngine e (EngineState.setLfoDepth N x)

def execSetLfoDepth (e : EngineSel) (f : BitVec 32) (s : State) : Host.Outcome State Fault Refusal :=
  execSetLfoDepthAt hw e f s

/-- SET_LFO_WAVEFORM (R162). -/
def execSetLfoWaveformAt {α : Type} (e : EngineSel) (a : BitVec 16) (s : State α) :
    Host.Outcome (State α) Fault Refusal :=
  .next (s.updEngine e (EngineState.setLfoWaveform (waveformOperand a)))

def execSetLfoWaveform (e : EngineSel) (a : BitVec 16) (s : State) : Host.Outcome State Fault Refusal :=
  execSetLfoWaveformAt e a s

/-- SET_LFO_ROUTE (R163). -/
def execSetLfoRouteAt {α : Type} (e : EngineSel) (a : BitVec 16) (s : State α) :
    Host.Outcome (State α) Fault Refusal :=
  .next (s.updEngine e (EngineState.setLfoRoute (boolOperand a)))

def execSetLfoRoute (e : EngineSel) (a : BitVec 16) (s : State) : Host.Outcome State Fault Refusal :=
  execSetLfoRouteAt e a s

end Sys2Proof.Machine
end

