-- ==== Sys2Proof/Machine/Effects.lean ====
section
/-! DEFINITION. The four effects (spec/47_effects.md). -/

namespace Sys2Proof.Machine

section Units

variable {α : Type} (N : Numerics α) (C : Config)

/-- The dry/wet mix `x*(1-mix) + y*mix` (R242, R272). -/
def dryWet (x y mix : α) : α := N.add (N.mul x (N.sub N.one mix)) (N.mul y mix)

/-! ## Delay -/

/-- `dlyD` (R241). -/
def DelayState.samples (d : DelayState α) : Nat :=
  (clampI (N.toNat (N.floor (N.mul d.time (N.ofInt C.fs)))) 1 C.delayLen).toNat

/-- `Delay.process(x)` (R242): read, then write. -/
def DelayState.process [DecidableEq α] (d : DelayState α) (x : α) : DelayState α × α :=
  let y := Mem.read N.zero d.mem (idxBack C.delayLen d.w (d.samples N C))
  ({ d with
      mem := Mem.write N.zero d.mem d.w (N.add x (N.mul y d.feedback))
      w := idxNext C.delayLen d.w },
   dryWet N x y d.mix)

/-! ## Reverb -/

/-- One comb of R252, of length `len`: what it writes, and the accumulator with its word `y` added. -/
def CombState.process [DecidableEq α] (len : Nat) (fb d1 d2 input : α) (c : CombState α) (acc : α) : CombState α × α :=
  let y := Mem.read N.zero c.mem c.ci
  let lp := N.add (N.mul y d2) (N.mul c.lp d1)
  (⟨idxNext len c.ci, lp, Mem.write N.zero c.mem c.ci (N.add input (N.mul lp fb))⟩, N.add acc y)

/-- One all-pass of R252, of length `len`. -/
def AllPassState.process [DecidableEq α] (len : Nat) (g : α) (a : AllPassState α) (acc : α) : AllPassState α × α :=
  let b := Mem.read N.zero a.mem a.ai
  let v := N.add acc (N.mul b g)
  (⟨idxNext len a.ai, Mem.write N.zero a.mem a.ai v⟩, N.sub b (N.mul v g))

/-- `Reverb.process(x)` (R252): combs in ascending `k`, then all-passes in ascending `j`. -/
def ReverbState.process [DecidableEq α] (r : ReverbState α) (x : α) : ReverbState α × α :=
  let fb := N.add (N.ofDec C.revFbBase) (N.mul (N.ofDec C.revFbScale) r.room)
  let d1 := N.mul (N.ofDec C.revDampScale) r.damp
  let d2 := N.sub N.one d1
  let input := N.mul x (N.ofDec C.revInGain)
  let c0 := r.combs.k0.process N C.combLen.k0 fb d1 d2 input N.zero
  let c1 := r.combs.k1.process N C.combLen.k1 fb d1 d2 input c0.2
  let c2 := r.combs.k2.process N C.combLen.k2 fb d1 d2 input c1.2
  let c3 := r.combs.k3.process N C.combLen.k3 fb d1 d2 input c2.2
  let a0 := r.aps.j0.process N C.apLen.j0 (N.ofDec C.revApG) c3.2
  let a1 := r.aps.j1.process N C.apLen.j1 (N.ofDec C.revApG) a0.2
  ({ r with combs := ⟨c0.1, c1.1, c2.1, c3.1⟩, aps := ⟨a0.1, a1.1⟩ }, dryWet N x a1.2 (N.ofDec C.revWet))

/-! ## Tremolo and flanger -/

/-- The sine modulator `0.5 + 0.5 * sin2pi(p)` (R262, R272). -/
def modulator (p : α) : α := N.add N.half (N.mul N.half (N.sin2pi p))

/-- `Tremolo.process(x)` (R262). -/
def TremoloState.process (t : TremoloState α) (x : α) : TremoloState α × α :=
  let phase := N.wrap01 (N.add t.phase (N.div t.rate (N.ofInt C.fs)))
  ({ t with phase := phase }, N.mul x (N.sub N.one (N.mul t.depth (modulator N phase))))

/-- The flanger's delay in samples at a phase (R272). -/
def FlangerState.delay (f : FlangerState α) (phase : α) : α :=
  N.mul (N.ofInt C.fs)
    (N.add (N.ofDec C.flBaseS) (N.mul (N.mul (N.ofDec C.flSweepS) f.depth) (modulator N phase)))

/-- `Flanger.process(x)` (R272): linear interpolation between two words read before the write. -/
def FlangerState.process [DecidableEq α] (f : FlangerState α) (x : α) : FlangerState α × α :=
  let phase := N.wrap01 (N.add f.phase (N.div f.rate (N.ofInt C.fs)))
  let dl := f.delay N C phase
  let i0 := N.toNat (N.floor dl)
  let fr := N.sub dl (N.floor dl)
  let a := Mem.read N.zero f.mem (idxBack C.flLen f.w i0)
  let b := Mem.read N.zero f.mem (idxBack C.flLen f.w (i0 + 1))
  let y := N.add a (N.mul (N.sub b a) fr)
  ({ f with
      phase := phase
      mem := Mem.write N.zero f.mem f.w (N.add x (N.mul y f.feedback))
      w := idxNext C.flLen f.w },
   dryWet N x y f.mix)

/-! ## Registers -/

/-- A share or depth clamped into `[0, 1]`. -/
def unitClamp (x : α) : α := N.clamp x N.zero N.one

/-- A feedback clamped into `[0, FB_MAX]` (R246, R277). -/
def feedbackClamp (x : α) : α := N.clamp x N.zero (N.ofDec C.fbMax)

def EngineState.setDelayTime (x : α) (E : EngineState α) : EngineState α :=
  { E with dly := { E.dly with time := N.clamp x N.zero (N.ofDec C.delayMaxS) } }

def EngineState.setDelayFeedback (x : α) (E : EngineState α) : EngineState α :=
  { E with dly := { E.dly with feedback := feedbackClamp N C x } }

def EngineState.setDelayMix (x : α) (E : EngineState α) : EngineState α :=
  { E with dly := { E.dly with mix := unitClamp N x } }

def EngineState.setReverbRoom (x : α) (E : EngineState α) : EngineState α :=
  { E with rev := { E.rev with room := unitClamp N x } }

def EngineState.setReverbDamp (x : α) (E : EngineState α) : EngineState α :=
  { E with rev := { E.rev with damp := unitClamp N x } }

def EngineState.setTremoloRate (x : α) (E : EngineState α) : EngineState α :=
  { E with trm := { E.trm with rate := modRate N C x } }

def EngineState.setTremoloDepth (x : α) (E : EngineState α) : EngineState α :=
  { E with trm := { E.trm with depth := unitClamp N x } }

def EngineState.setFlangerRate (x : α) (E : EngineState α) : EngineState α :=
  { E with flg := { E.flg with rate := modRate N C x } }

def EngineState.setFlangerDepth (x : α) (E : EngineState α) : EngineState α :=
  { E with flg := { E.flg with depth := unitClamp N x } }

def EngineState.setFlangerFeedback (x : α) (E : EngineState α) : EngineState α :=
  { E with flg := { E.flg with feedback := feedbackClamp N C x } }

def EngineState.setFlangerMix (x : α) (E : EngineState α) : EngineState α :=
  { E with flg := { E.flg with mix := unitClamp N x } }

end Units

/-! ## Commands -/

/-- SET_DELAY_ENABLE (R244). -/
def execSetDelayEnableAt {α : Type} (e : EngineSel) (a : BitVec 16) (s : State α) :
    Host.Outcome (State α) Fault Refusal :=
  .next (s.updEngine e (EngineState.setDlyEnable (boolOperand a)))

def execSetDelayEnable (e : EngineSel) (a : BitVec 16) (s : State) : Host.Outcome State Fault Refusal :=
  execSetDelayEnableAt e a s

/-- SET_DELAY_TIME (R245). -/
def execSetDelayTimeAt {α : Type} (N : Numerics α) (e : EngineSel) (f : BitVec 32) (s : State α) :
    Host.Outcome (State α) Fault Refusal :=
  withNum N f s fun x => s.updEngine e (EngineState.setDelayTime N s.cfg x)

def execSetDelayTime (e : EngineSel) (f : BitVec 32) (s : State) : Host.Outcome State Fault Refusal :=
  execSetDelayTimeAt hw e f s

/-- SET_DELAY_FEEDBACK (R246). -/
def execSetDelayFeedbackAt {α : Type} (N : Numerics α) (e : EngineSel) (f : BitVec 32) (s : State α) :
    Host.Outcome (State α) Fault Refusal :=
  withNum N f s fun x => s.updEngine e (EngineState.setDelayFeedback N s.cfg x)

def execSetDelayFeedback (e : EngineSel) (f : BitVec 32) (s : State) : Host.Outcome State Fault Refusal :=
  execSetDelayFeedbackAt hw e f s

/-- SET_DELAY_MIX (R247). -/
def execSetDelayMixAt {α : Type} (N : Numerics α) (e : EngineSel) (f : BitVec 32) (s : State α) :
    Host.Outcome (State α) Fault Refusal :=
  withNum N f s fun x => s.updEngine e (EngineState.setDelayMix N x)

def execSetDelayMix (e : EngineSel) (f : BitVec 32) (s : State) : Host.Outcome State Fault Refusal :=
  execSetDelayMixAt hw e f s

/-- SET_REVERB_ENABLE (R254). -/
def execSetReverbEnableAt {α : Type} (e : EngineSel) (a : BitVec 16) (s : State α) :
    Host.Outcome (State α) Fault Refusal :=
  .next (s.updEngine e (EngineState.setRevEnable (boolOperand a)))

def execSetReverbEnable (e : EngineSel) (a : BitVec 16) (s : State) : Host.Outcome State Fault Refusal :=
  execSetReverbEnableAt e a s

/-- SET_REVERB_ROOM (R255). -/
def execSetReverbRoomAt {α : Type} (N : Numerics α) (e : EngineSel) (f : BitVec 32) (s : State α) :
    Host.Outcome (State α) Fault Refusal :=
  withNum N f s fun x => s.updEngine e (EngineState.setReverbRoom N x)

def execSetReverbRoom (e : EngineSel) (f : BitVec 32) (s : State) : Host.Outcome State Fault Refusal :=
  execSetReverbRoomAt hw e f s

/-- SET_REVERB_DAMP (R256). -/
def execSetReverbDampAt {α : Type} (N : Numerics α) (e : EngineSel) (f : BitVec 32) (s : State α) :
    Host.Outcome (State α) Fault Refusal :=
  withNum N f s fun x => s.updEngine e (EngineState.setReverbDamp N x)

def execSetReverbDamp (e : EngineSel) (f : BitVec 32) (s : State) : Host.Outcome State Fault Refusal :=
  execSetReverbDampAt hw e f s

/-- SET_TREMOLO_ENABLE (R264). -/
def execSetTremoloEnableAt {α : Type} (e : EngineSel) (a : BitVec 16) (s : State α) :
    Host.Outcome (State α) Fault Refusal :=
  .next (s.updEngine e (EngineState.setTrmEnable (boolOperand a)))

def execSetTremoloEnable (e : EngineSel) (a : BitVec 16) (s : State) : Host.Outcome State Fault Refusal :=
  execSetTremoloEnableAt e a s

/-- SET_TREMOLO_RATE (R265). -/
def execSetTremoloRateAt {α : Type} (N : Numerics α) (e : EngineSel) (f : BitVec 32) (s : State α) :
    Host.Outcome (State α) Fault Refusal :=
  withNum N f s fun x => s.updEngine e (EngineState.setTremoloRate N s.cfg x)

def execSetTremoloRate (e : EngineSel) (f : BitVec 32) (s : State) : Host.Outcome State Fault Refusal :=
  execSetTremoloRateAt hw e f s

/-- SET_TREMOLO_DEPTH (R266). -/
def execSetTremoloDepthAt {α : Type} (N : Numerics α) (e : EngineSel) (f : BitVec 32) (s : State α) :
    Host.Outcome (State α) Fault Refusal :=
  withNum N f s fun x => s.updEngine e (EngineState.setTremoloDepth N x)

def execSetTremoloDepth (e : EngineSel) (f : BitVec 32) (s : State) : Host.Outcome State Fault Refusal :=
  execSetTremoloDepthAt hw e f s

/-- SET_FLANGER_ENABLE (R274). -/
def execSetFlangerEnableAt {α : Type} (e : EngineSel) (a : BitVec 16) (s : State α) :
    Host.Outcome (State α) Fault Refusal :=
  .next (s.updEngine e (EngineState.setFlgEnable (boolOperand a)))

def execSetFlangerEnable (e : EngineSel) (a : BitVec 16) (s : State) : Host.Outcome State Fault Refusal :=
  execSetFlangerEnableAt e a s

/-- SET_FLANGER_RATE (R275). -/
def execSetFlangerRateAt {α : Type} (N : Numerics α) (e : EngineSel) (f : BitVec 32) (s : State α) :
    Host.Outcome (State α) Fault Refusal :=
  withNum N f s fun x => s.updEngine e (EngineState.setFlangerRate N s.cfg x)

def execSetFlangerRate (e : EngineSel) (f : BitVec 32) (s : State) : Host.Outcome State Fault Refusal :=
  execSetFlangerRateAt hw e f s

/-- SET_FLANGER_DEPTH (R276). -/
def execSetFlangerDepthAt {α : Type} (N : Numerics α) (e : EngineSel) (f : BitVec 32) (s : State α) :
    Host.Outcome (State α) Fault Refusal :=
  withNum N f s fun x => s.updEngine e (EngineState.setFlangerDepth N x)

def execSetFlangerDepth (e : EngineSel) (f : BitVec 32) (s : State) : Host.Outcome State Fault Refusal :=
  execSetFlangerDepthAt hw e f s

/-- SET_FLANGER_FEEDBACK (R277). -/
def execSetFlangerFeedbackAt {α : Type} (N : Numerics α) (e : EngineSel) (f : BitVec 32) (s : State α) :
    Host.Outcome (State α) Fault Refusal :=
  withNum N f s fun x => s.updEngine e (EngineState.setFlangerFeedback N s.cfg x)

def execSetFlangerFeedback (e : EngineSel) (f : BitVec 32) (s : State) : Host.Outcome State Fault Refusal :=
  execSetFlangerFeedbackAt hw e f s

/-- SET_FLANGER_MIX (R278). -/
def execSetFlangerMixAt {α : Type} (N : Numerics α) (e : EngineSel) (f : BitVec 32) (s : State α) :
    Host.Outcome (State α) Fault Refusal :=
  withNum N f s fun x => s.updEngine e (EngineState.setFlangerMix N x)

def execSetFlangerMix (e : EngineSel) (f : BitVec 32) (s : State) : Host.Outcome State Fault Refusal :=
  execSetFlangerMixAt hw e f s

end Sys2Proof.Machine
end

