-- ==== Sys2Proof/Machine/Filter.lean ====
section
/-! DEFINITION. The state-variable filter (spec/44_filter.md), in the Chamberlin topology of R172. -/

namespace Sys2Proof.Machine

section Units

variable {α : Type} (N : Numerics α) (C : Config)

/-- The normalised frequency `clamp(2 * cutoff / FS, 0, 0.5)` (R171). -/
def FilterState.normFreq (t : FilterState α) : α :=
  N.clamp (N.div (N.mul (N.ofInt 2) t.cutoff) (N.ofInt C.fs)) N.zero N.half

/-- `Filter.step(x)` (R172): low, high, band, notch in this order, each seeing the writes before it. -/
def FilterState.step (t : FilterState α) (x : α) : FilterState α :=
  let f := t.normFreq N C
  let low := N.add t.low (N.mul f t.band)
  let high := N.sub (N.sub x low) (N.mul t.q t.band)
  let band := N.add t.band (N.mul f high)
  { t with low := low, high := high, band := band, notch := N.add high low }

/-- The state variable a mode returns (R173). -/
def FilterState.tap (t : FilterState α) : FilterMode → α
  | .lowPass => t.low
  | .highPass => t.high
  | .bandPass => t.band

/-- `Filter.process(mode, x)` (R173). -/
def FilterState.process (mode : FilterMode) (t : FilterState α) (x : α) : FilterState α × α :=
  let t' := t.step N C x
  (t', t'.tap mode)

/-- A cutoff clamped into `[CUTOFF_MIN, CUTOFF_MAX]` (R175). -/
def cutoffClamp (c : α) : α := N.clamp c (N.ofDec C.cutoffMin) (N.ofDec C.cutoffMax)

/-- `Filter.setCutoff(c)` (R175). -/
def FilterState.setCutoff (c : α) (t : FilterState α) : FilterState α := { t with cutoff := cutoffClamp N C c }

/-- `q` of a resonance `r` in `[0, 1]` (R176): `Q_BASE - r * (Q_BASE - Q_MIN)`. -/
def qOfResonance (r : α) : α :=
  N.sub (N.ofDec C.qBase) (N.mul r (N.sub (N.ofDec C.qBase) (N.ofDec C.qMin)))

/-- The base cutoff and the filter's, written together (R178). -/
def EngineState.setCutoff (x : α) (E : EngineState α) : EngineState α :=
  let c := cutoffClamp N C x
  { E with baseCutoff := c, flt := { E.flt with cutoff := c } }

/-- R180. -/
def EngineState.setResonance (x : α) (E : EngineState α) : EngineState α :=
  { E with flt := { E.flt with q := qOfResonance N C (N.clamp x N.zero N.one) } }

def EngineState.setFltMode (m : FilterMode) (E : EngineState α) : EngineState α := { E with fltMode := m }

end Units

/-- SET_FILTER_CUTOFF (R178). -/
def execSetFilterCutoffAt {α : Type} (N : Numerics α) (e : EngineSel) (f : BitVec 32) (s : State α) :
    Host.Outcome (State α) Fault Refusal :=
  withNum N f s fun x => s.updEngine e (EngineState.setCutoff N s.cfg x)

def execSetFilterCutoff (e : EngineSel) (f : BitVec 32) (s : State) : Host.Outcome State Fault Refusal :=
  execSetFilterCutoffAt hw e f s

/-- SET_FILTER_RESONANCE (R180). -/
def execSetFilterResonanceAt {α : Type} (N : Numerics α) (e : EngineSel) (f : BitVec 32) (s : State α) :
    Host.Outcome (State α) Fault Refusal :=
  withNum N f s fun x => s.updEngine e (EngineState.setResonance N s.cfg x)

def execSetFilterResonance (e : EngineSel) (f : BitVec 32) (s : State) : Host.Outcome State Fault Refusal :=
  execSetFilterResonanceAt hw e f s

/-- SET_FILTER_MODE (R182). -/
def execSetFilterModeAt {α : Type} (e : EngineSel) (a : BitVec 16) (s : State α) :
    Host.Outcome (State α) Fault Refusal :=
  .next (s.updEngine e (EngineState.setFltMode (modeOperand a)))

def execSetFilterMode (e : EngineSel) (a : BitVec 16) (s : State) : Host.Outcome State Fault Refusal :=
  execSetFilterModeAt e a s

/-- SET_FILTER_ENABLE (R183). -/
def execSetFilterEnableAt {α : Type} (e : EngineSel) (a : BitVec 16) (s : State α) :
    Host.Outcome (State α) Fault Refusal :=
  .next (s.updEngine e (EngineState.setFltEnable (boolOperand a)))

def execSetFilterEnable (e : EngineSel) (a : BitVec 16) (s : State) : Host.Outcome State Fault Refusal :=
  execSetFilterEnableAt e a s

end Sys2Proof.Machine
end

