-- ==== Sys2Proof/Machine/Envelope.lean ====
section
/-! DEFINITION. The ADSR envelope (spec/41_envelope.md). -/

namespace Sys2Proof.Machine

section Units

variable {α : Type} (N : Numerics α) (C : Config) (P : VoiceParams α)

/-- `1 / max(1, T * FS)`: the per-sample step of a duration of `T` seconds over the full scale (R121). -/
def envStep (T : α) : α := N.div N.one (N.max N.one (N.mul T (N.ofInt C.fs)))

/-- `Env.gateOn()` (R122). -/
def EnvState.gateOn (v : EnvState α) : EnvState α := { v with stage := .attack }

/-- `Env.gateOff()` (R123), from Idle too. -/
def EnvState.gateOff (v : EnvState α) : EnvState α := { v with stage := .release }

/-- The state after one `Env.process()` (R124): at most one transition. -/
def EnvState.advance (v : EnvState α) : EnvState α :=
  match v.stage with
  | .idle => { v with level := N.zero }
  | .attack =>
    let l := N.add v.level (envStep N C P.attack)
    if N.le N.one l then ⟨.decay, N.one⟩ else { v with level := l }
  | .decay =>
    if N.le v.level P.sustain then { v with stage := .sustain }
    else
      let l := N.sub v.level (envStep N C P.decay)
      if N.le l P.sustain then ⟨.sustain, P.sustain⟩ else { v with level := l }
  | .sustain => v
  | .release =>
    let l := N.sub v.level (envStep N C P.release)
    if N.le l N.zero then ⟨.idle, N.zero⟩ else { v with level := l }

/-- `Env.process()` (R124): advance, then return the level. -/
def EnvState.process (v : EnvState α) : EnvState α × α :=
  let v' := v.advance N C P
  (v', v'.level)

/-- A duration clamped into `[0, ENV_T_MAX]` (R130). -/
def envTime (x : α) : α := N.clamp x N.zero (N.ofDec C.envTMax)

def EngineState.setAttack (x : α) (E : EngineState α) : EngineState α :=
  { E with prm := { E.prm with attack := envTime N C x } }

def EngineState.setDecay (x : α) (E : EngineState α) : EngineState α :=
  { E with prm := { E.prm with decay := envTime N C x } }

def EngineState.setSustain (x : α) (E : EngineState α) : EngineState α :=
  { E with prm := { E.prm with sustain := N.clamp x N.zero N.one } }

def EngineState.setRelease (x : α) (E : EngineState α) : EngineState α :=
  { E with prm := { E.prm with release := envTime N C x } }

end Units

/-- SET_ATTACK (R130). -/
def execSetAttackAt {α : Type} (N : Numerics α) (e : EngineSel) (f : BitVec 32) (s : State α) :
    Host.Outcome (State α) Fault Refusal :=
  withNum N f s fun x => s.updEngine e (EngineState.setAttack N s.cfg x)

def execSetAttack (e : EngineSel) (f : BitVec 32) (s : State) : Host.Outcome State Fault Refusal :=
  execSetAttackAt hw e f s

/-- SET_DECAY (R131). -/
def execSetDecayAt {α : Type} (N : Numerics α) (e : EngineSel) (f : BitVec 32) (s : State α) :
    Host.Outcome (State α) Fault Refusal :=
  withNum N f s fun x => s.updEngine e (EngineState.setDecay N s.cfg x)

def execSetDecay (e : EngineSel) (f : BitVec 32) (s : State) : Host.Outcome State Fault Refusal :=
  execSetDecayAt hw e f s

/-- SET_SUSTAIN (R132). -/
def execSetSustainAt {α : Type} (N : Numerics α) (e : EngineSel) (f : BitVec 32) (s : State α) :
    Host.Outcome (State α) Fault Refusal :=
  withNum N f s fun x => s.updEngine e (EngineState.setSustain N x)

def execSetSustain (e : EngineSel) (f : BitVec 32) (s : State) : Host.Outcome State Fault Refusal :=
  execSetSustainAt hw e f s

/-- SET_RELEASE (R133). -/
def execSetReleaseAt {α : Type} (N : Numerics α) (e : EngineSel) (f : BitVec 32) (s : State α) :
    Host.Outcome (State α) Fault Refusal :=
  withNum N f s fun x => s.updEngine e (EngineState.setRelease N s.cfg x)

def execSetRelease (e : EngineSel) (f : BitVec 32) (s : State) : Host.Outcome State Fault Refusal :=
  execSetReleaseAt hw e f s

end Sys2Proof.Machine
end

