-- ==== Sys2Proof/Machine/Glide.lean ====
section
/-! DEFINITION. The glide (spec/42_glide.md): a linear ramp in Hz whose slope is fixed when the target is set. -/

namespace Sys2Proof.Machine

section Units

variable {α : Type} (N : Numerics α) (C : Config) (P : VoiceParams α)

/-- `gN`, the number of samples of a glide (R141), a `Num`. -/
def glideSamples : α := N.max N.one (N.div (N.mul P.glideMs (N.ofInt C.fs)) (N.ofInt 1000))

/-- `Glide.setTarget(f)` (R142). -/
def GlideState.setTarget (g : GlideState α) (f : α) : GlideState α :=
  if N.eq P.glideMs N.zero then ⟨f, f, N.zero⟩
  else ⟨g.current, f, N.div (N.abs (N.sub f g.current)) (glideSamples N C P)⟩

/-- The state after one `Glide.process()` (R143). -/
def GlideState.advance (g : GlideState α) : GlideState α :=
  if N.eq P.glideMs N.zero || N.eq g.step N.zero then { g with current := g.target }
  else if N.lt g.current g.target then
    let n := N.add g.current g.step
    let n := if N.eq n g.current then g.target else n
    { g with current := N.min n g.target }
  else if N.lt g.target g.current then
    let n := N.sub g.current g.step
    let n := if N.eq n g.current then g.target else n
    { g with current := N.max n g.target }
  else g

/-- `Glide.process()` (R143): advance, then return the current frequency. -/
def GlideState.process (g : GlideState α) : GlideState α × α :=
  let g' := g.advance N P
  (g', g'.current)

/-- `Glide.getFrequency()` (R144). -/
def GlideState.getFrequency (g : GlideState α) : α := g.current

/-- The glide-time register (R148). -/
def EngineState.setGlideMs (x : α) (E : EngineState α) : EngineState α :=
  { E with prm := { E.prm with glideMs := N.clamp x N.zero (N.ofDec C.glideMaxMs) } }

end Units

/-- SET_GLIDE_TIME (R148). -/
def execSetGlideTimeAt {α : Type} (N : Numerics α) (e : EngineSel) (f : BitVec 32) (s : State α) :
    Host.Outcome (State α) Fault Refusal :=
  withNum N f s fun x => s.updEngine e (EngineState.setGlideMs N s.cfg x)

def execSetGlideTime (e : EngineSel) (f : BitVec 32) (s : State) : Host.Outcome State Fault Refusal :=
  execSetGlideTimeAt hw e f s

end Sys2Proof.Machine
end

