-- ==== Sys2Proof/Machine/Voice.lean ====
section
/-! DEFINITION. The voice (spec/45_voice.md): one oscillator, one envelope, one glide. -/

namespace Sys2Proof.Machine

section Units

variable {α : Type} (N : Numerics α) (C : Config) (P : VoiceParams α)

/-- `Voice.noteOn(freq, vel)` (R192); whether the voice was sounding is sampled before anything is written. -/
def VoiceState.noteOn (v : VoiceState α) (freq vel : α) : VoiceState α where
  gl       := v.gl.setTarget N C P freq
  osc      := if v.isActive then v.osc else v.osc.resetPhase N
  velocity := vel
  env      := v.env.gateOn
  active   := true
  age      := 0

/-- `Voice.noteOff()` (R193). -/
def VoiceState.noteOff (v : VoiceState α) : VoiceState α := { v with env := v.env.gateOff }

/-- The age after one more block, saturating at `2^AGE_W - 1` (R194). -/
def ageNext (age : Nat) : Nat := Nat.min (age + 1) (2 ^ C.ageW - 1)

/-- One sample of `Voice.process` (R194): the voice after it, and the term `o * g * velocity` it adds. -/
def VoiceState.tick (v : VoiceState α) : VoiceState α × α :=
  let g := v.gl.process N P
  let o := (v.osc.setFrequency N g.2).process N C P
  let n := v.env.process N C P
  ({ v with gl := g.1, osc := o.1, env := n.1, active := if n.1.isActive then v.active else false },
   N.mul (N.mul o.2 n.2) v.velocity)

/-- Sample `i` of the loop of R194: the term is added to the word `i` of the buffer. -/
def VoiceState.sample [DecidableEq α] (i : Nat) (x : VoiceState α × Mem α) : VoiceState α × Mem α :=
  let t := x.1.tick N C P
  (t.1, Mem.write N.zero x.2 i (N.add (Mem.read N.zero x.2 i) t.2))

/-- `Voice.process(buf, N)` (R194): a voice that is not sounding reads and writes nothing. -/
def VoiceState.process [DecidableEq α] (n : Nat) (v : VoiceState α) (buf : Mem α) : VoiceState α × Mem α :=
  if v.isActive then forSamples (VoiceState.sample N C P) n ({ v with age := ageNext C v.age }, buf) else (v, buf)

end Units

end Sys2Proof.Machine
end

