-- ==== Sys2Proof/Machine/Engine.lean ====
section
/-! DEFINITION. The engine (spec/46_engine.md): voice pool, note commands, per-sample chain. -/

namespace Sys2Proof.Machine

section Units

variable {α : Type} (N : Numerics α) (C : Config)

/-- `midiToFreq(n)` (R211); the subtraction is on integers. -/
def midiToFreq (n : Int) : α :=
  N.mul (N.ofDec C.a4Hz) (N.exp2 (N.div (N.ofInt (n - 69)) (N.ofInt 12)))

/-! ## Voice allocation (R212) -/

/-- Among the voices that satisfy `p`, one of the greatest age, the lowest index on a tie: a scan from index `i` with
the best index and age so far, replaced on a strictly greater age. -/
def oldestFrom (p : VoiceState α → Bool) : Nat → Option (Nat × Nat) → List (VoiceState α) → Option (Nat × Nat)
  | _, best, [] => best
  | i, best, v :: t =>
    let best' :=
      if p v then
        match best with
        | none => some (i, v.age)
        | some (j, a) => if a < v.age then some (i, v.age) else some (j, a)
      else best
    oldestFrom p (i + 1) best' t

/-- The least index whose voice is not sounding, counting from `i`. -/
def firstSilentFrom : Nat → List (VoiceState α) → Option Nat
  | _, [] => none
  | i, v :: t => if v.isActive then firstSilentFrom (i + 1) t else some i

/-- `Engine.allocate()` (R212): the first silent voice; else the oldest releasing voice; else the oldest voice. -/
def allocate (vs : List (VoiceState α)) : Nat :=
  match firstSilentFrom 0 vs with
  | some v => v
  | none =>
    match oldestFrom VoiceState.isReleasing 0 none vs with
    | some (v, _) => v
    | none =>
      match oldestFrom (fun _ => true) 0 none vs with
      | some (v, _) => v
      | none => 0

/-! ## Notes -/

/-- `Engine.noteOn(n, vel)` (R213). -/
def EngineState.noteOn (n : Int) (vel : α) (E : EngineState α) : EngineState α :=
  { E with voices := updAt (fun v => v.noteOn N C E.prm (midiToFreq N C n) vel) (allocate E.voices) E.voices }

/-- The test of R216: `lt(abs(sub(cur, f)), 0.1)`, on sounding and silent voices alike. -/
def noteMatches (f : α) (v : VoiceState α) : Bool :=
  N.lt (N.abs (N.sub v.gl.getFrequency f)) (N.ofDec C.noteoffTol)

/-- `Engine.noteOff(n)` (R216). -/
def EngineState.noteOff (n : Int) (E : EngineState α) : EngineState α :=
  { E with voices := E.voices.map fun v => if noteMatches N C (midiToFreq N C n) v then v.noteOff else v }

/-- `Engine.stopAll()` (R219). -/
def EngineState.stopAll (E : EngineState α) : EngineState α :=
  { E with voices := E.voices.map fun v => if v.isActive then v.noteOff else v }

/-! ## The chain (R222) -/

/-- `Engine.lfoStage()` (R223). -/
def EngineState.lfoStage (E : EngineState α) : EngineState α :=
  let m := E.lfo.process N C
  { E with lfo := m.1, flt := E.flt.setCutoff N C (N.mul E.baseCutoff (N.add N.one m.2)) }

def EngineState.filterStage (E : EngineState α) (x : α) : EngineState α × α :=
  let r := E.flt.process N C E.fltMode x
  ({ E with flt := r.1 }, r.2)

def EngineState.flangerStage [DecidableEq α] (E : EngineState α) (x : α) : EngineState α × α :=
  let r := E.flg.process N C x
  ({ E with flg := r.1 }, r.2)

def EngineState.tremoloStage (E : EngineState α) (x : α) : EngineState α × α :=
  let r := E.trm.process N C x
  ({ E with trm := r.1 }, r.2)

def EngineState.delayStage [DecidableEq α] (E : EngineState α) (x : α) : EngineState α × α :=
  let r := E.dly.process N C x
  ({ E with dly := r.1 }, r.2)

def EngineState.reverbStage [DecidableEq α] (E : EngineState α) (x : α) : EngineState α × α :=
  let r := E.rev.process N C x
  ({ E with rev := r.1 }, r.2)

/-- `Engine.chain(x)` (R222): LFO, filter, flanger, tremolo, delay, reverb, each under its own flag; a stage whose flag
is false is not invoked (R224). -/
def EngineState.chain [DecidableEq α] (E : EngineState α) (x : α) : EngineState α × α :=
  let E0 := if E.lfoRoute then E.lfoStage N C else E
  let p1 := if E0.fltEnable then E0.filterStage N C x else (E0, x)
  let p2 := if p1.1.flgEnable then p1.1.flangerStage N C p1.2 else p1
  let p3 := if p2.1.trmEnable then p2.1.tremoloStage N C p2.2 else p2
  let p4 := if p3.1.dlyEnable then p3.1.delayStage N C p3.2 else p3
  if p4.1.revEnable then p4.1.reverbStage N C p4.2 else p4

/-! ## A block (R221) -/

/-- The voices in ascending index, each adding its whole block into the buffer before the next (R221). -/
def runVoices [DecidableEq α] (P : VoiceParams α) (n : Nat) :
    List (VoiceState α) → Mem α → List (VoiceState α) × Mem α
  | [], buf => ([], buf)
  | v :: t, buf =>
    let p := v.process N C P n buf
    let q := runVoices P n t p.2
    (p.1 :: q.1, q.2)

/-- Word `i` of the scratch buffer through the chain, in place (R221). -/
def EngineState.chainAt [DecidableEq α] (i : Nat) (E : EngineState α) : EngineState α :=
  let r := E.chain N C (Mem.read N.zero E.scr i)
  { r.1 with scr := Mem.write N.zero E.scr i r.2 }

/-- `Engine.process(N)` (R221). -/
def EngineState.process [DecidableEq α] (n : Nat) (E : EngineState α) : EngineState α :=
  let r := runVoices N C E.prm n E.voices (Mem.zeroBelow N.zero n E.scr)
  forSamples (EngineState.chainAt N C) n { E with voices := r.1, scr := r.2 }

end Units

/-! ## Commands -/

/-- NOTE_ON (R214). -/
def execNoteOnAt {α : Type} (N : Numerics α) (e : EngineSel) (a : BitVec 16) (f : BitVec 32) (s : State α) :
    Host.Outcome (State α) Fault Refusal :=
  withNum N f s fun x => s.updEngine e (EngineState.noteOn N s.cfg (noteOperand a) (unitClamp N x))

def execNoteOn (e : EngineSel) (a : BitVec 16) (f : BitVec 32) (s : State) : Host.Outcome State Fault Refusal :=
  execNoteOnAt hw e a f s

/-- NOTE_OFF (R218). -/
def execNoteOffAt {α : Type} (N : Numerics α) (e : EngineSel) (a : BitVec 16) (s : State α) :
    Host.Outcome (State α) Fault Refusal :=
  .next (s.updEngine e (EngineState.noteOff N s.cfg (noteOperand a)))

def execNoteOff (e : EngineSel) (a : BitVec 16) (s : State) : Host.Outcome State Fault Refusal :=
  execNoteOffAt hw e a s

/-- STOP_ALL_NOTES (R220): "if E == 1". -/
def execStopAllNotesAt {α : Type} (e : EngineSel) (s : State α) : Host.Outcome (State α) Fault Refusal :=
  if e = .timeline then .next (s.updEngine .timeline EngineState.stopAll) else .next s

def execStopAllNotes (e : EngineSel) (s : State) : Host.Outcome State Fault Refusal := execStopAllNotesAt e s

end Sys2Proof.Machine
end

