-- ==== Sys2Proof/Machine/Mixer.lean ====
section
/-! DEFINITION. The AudioEngine (spec/48_mixer.md): PROCESS, the mixing formula, the volumes. -/

namespace Sys2Proof.Machine

section Units

variable {α : Type} (N : Numerics α)

/-- The mixing formula (R296): `timeline*vol[1]*master + live*vol[0]*master`, the timeline term first. -/
def mix (timeline live volT volL master : α) : α :=
  N.add (N.mul (N.mul timeline volT) master) (N.mul (N.mul live volL) master)

/-- `Mixer.sample(i)` (R296). -/
def State.mixerSample (s : State α) (i : Nat) : α :=
  mix N (Mem.read N.zero s.timeline.scr i) (Mem.read N.zero s.live.scr i) s.volTimeline s.volLive s.masterVol

/-- The samples of a block of `n` words, the last one marked (R294; 20_memory.md R71). -/
def State.blockSamples (s : State α) (n : Nat) : List OutSample :=
  (List.range n).map fun i => ⟨N.toBits32 (s.mixerSample N i), decide (i + 1 = n)⟩

end Units

/-- PROCESS (R294) up to its last `emit`: the timeline engine, then the live engine, then the samples. `busy` stays
raised until the host has taken the last of them ("the command completes when the host has taken the last sample"),
which is `State.drain`'s; a block of no samples completes at once (assumption log 2). -/
def execProcessAt {α : Type} [DecidableEq α] (N : Numerics α) (n : BitVec 32) (s : State α) :
    Host.Outcome (State α) Fault Refusal :=
  let len := blockLength s.cfg n
  let s1 := s.updEngine .timeline (EngineState.process N s.cfg len)
  let s2 := s1.updEngine .live (EngineState.process N s.cfg len)
  .next { s2.emit (s2.blockSamples N len) with busy := decide (0 < len) }

def execProcess (n : BitVec 32) (s : State) : Host.Outcome State Fault Refusal := execProcessAt hw n s

/-- SET_MASTER_VOLUME (R298). -/
def execSetMasterVolumeAt {α : Type} (N : Numerics α) (f : BitVec 32) (s : State α) :
    Host.Outcome (State α) Fault Refusal :=
  withNum N f s fun x => { s with masterVol := N.clamp x N.zero N.one }

def execSetMasterVolume (f : BitVec 32) (s : State) : Host.Outcome State Fault Refusal := execSetMasterVolumeAt hw f s

/-- SET_ENGINE_VOLUME (R300). -/
def execSetEngineVolumeAt {α : Type} (N : Numerics α) (e : EngineSel) (f : BitVec 32) (s : State α) :
    Host.Outcome (State α) Fault Refusal :=
  withNum N f s fun x => s.setVol e (N.clamp x N.zero (N.ofDec s.cfg.engineVolMax))

def execSetEngineVolume (e : EngineSel) (f : BitVec 32) (s : State) : Host.Outcome State Fault Refusal :=
  execSetEngineVolumeAt hw e f s

end Sys2Proof.Machine
end

