-- ==== Sys2Proof/Machine/System.lean ====
section
/-! DEFINITION. The system commands (spec/49_system.md). -/

namespace Sys2Proof.Machine

/-- NOP (R310); every reserved word executes as this (30_encoding.md R86). -/
def execNopAt {α : Type} (s : State α) : Host.Outcome (State α) Fault Refusal := .next s

def execNop (s : State) : Host.Outcome State Fault Refusal := execNopAt s

/-- RESET (R312): the effect of the hardware reset (70_reset_and_hazards.md R350). -/
def execResetAt {α : Type} (N : Numerics α) (s : State α) :
    Host.Outcome (State α) Fault Refusal := .next (s.afterReset N)

def execReset (s : State) : Host.Outcome State Fault Refusal := execResetAt hw s

/-- GET_SAMPLE_RATE (R314): "`FS` as an unsigned 32-bit integer" on the response port. -/
def execGetSampleRateAt {α : Type} (s : State α) :
    Host.Outcome (State α) Fault Refusal := .next (s.respond (BitVec.ofNat 32 s.cfg.fs))

def execGetSampleRate (s : State) : Host.Outcome State Fault Refusal := execGetSampleRateAt s

end Sys2Proof.Machine
end

