-- ==== Sys2Proof/Machine/Dispatch.lean ====
section
/-! DEFINITION. What each command does: one arm per constructor of `Instr`. -/

namespace Sys2Proof.Machine

def exec (i : Instr) (s : State) : Host.Outcome State Fault Refusal :=
  match i with
  | .nop => Sys2Proof.Machine.execNop s
  | .reset => Sys2Proof.Machine.execReset s
  | .getSampleRate => Sys2Proof.Machine.execGetSampleRate s
  | .process n => Sys2Proof.Machine.execProcess n s
  | .setMasterVolume f => Sys2Proof.Machine.execSetMasterVolume f s
  | .setEngineVolume e f => Sys2Proof.Machine.execSetEngineVolume e f s
  | .noteOn e a f => Sys2Proof.Machine.execNoteOn e a f s
  | .noteOff e a => Sys2Proof.Machine.execNoteOff e a s
  | .stopAllNotes e => Sys2Proof.Machine.execStopAllNotes e s
  | .setWaveform e a => Sys2Proof.Machine.execSetWaveform e a s
  | .setAttack e f => Sys2Proof.Machine.execSetAttack e f s
  | .setDecay e f => Sys2Proof.Machine.execSetDecay e f s
  | .setSustain e f => Sys2Proof.Machine.execSetSustain e f s
  | .setRelease e f => Sys2Proof.Machine.execSetRelease e f s
  | .setDetune e f => Sys2Proof.Machine.execSetDetune e f s
  | .setGlideTime e f => Sys2Proof.Machine.execSetGlideTime e f s
  | .setFilterCutoff e f => Sys2Proof.Machine.execSetFilterCutoff e f s
  | .setFilterResonance e f => Sys2Proof.Machine.execSetFilterResonance e f s
  | .setFilterMode e a => Sys2Proof.Machine.execSetFilterMode e a s
  | .setFilterEnable e a => Sys2Proof.Machine.execSetFilterEnable e a s
  | .setLfoRate e f => Sys2Proof.Machine.execSetLfoRate e f s
  | .setLfoDepth e f => Sys2Proof.Machine.execSetLfoDepth e f s
  | .setLfoWaveform e a => Sys2Proof.Machine.execSetLfoWaveform e a s
  | .setLfoRoute e a => Sys2Proof.Machine.execSetLfoRoute e a s
  | .setDelayEnable e a => Sys2Proof.Machine.execSetDelayEnable e a s
  | .setDelayTime e f => Sys2Proof.Machine.execSetDelayTime e f s
  | .setDelayFeedback e f => Sys2Proof.Machine.execSetDelayFeedback e f s
  | .setDelayMix e f => Sys2Proof.Machine.execSetDelayMix e f s
  | .setReverbEnable e a => Sys2Proof.Machine.execSetReverbEnable e a s
  | .setReverbRoom e f => Sys2Proof.Machine.execSetReverbRoom e f s
  | .setReverbDamp e f => Sys2Proof.Machine.execSetReverbDamp e f s
  | .setTremoloEnable e a => Sys2Proof.Machine.execSetTremoloEnable e a s
  | .setTremoloRate e f => Sys2Proof.Machine.execSetTremoloRate e f s
  | .setTremoloDepth e f => Sys2Proof.Machine.execSetTremoloDepth e f s
  | .setFlangerEnable e a => Sys2Proof.Machine.execSetFlangerEnable e a s
  | .setFlangerRate e f => Sys2Proof.Machine.execSetFlangerRate e f s
  | .setFlangerDepth e f => Sys2Proof.Machine.execSetFlangerDepth e f s
  | .setFlangerFeedback e f => Sys2Proof.Machine.execSetFlangerFeedback e f s
  | .setFlangerMix e f => Sys2Proof.Machine.execSetFlangerMix e f s

end Sys2Proof.Machine
end

