-- ==== Sys2Proof/Machine/Step.lean ====
section
/-! DEFINITION. One step. There is no program counter and no fetch (spec/10_state.md R23): the next instruction is the
next command word the host presents, accepted only while the block is not busy (20_memory.md R66). -/

namespace Sys2Proof.Machine

/-- One step of the machine whose commands are executed by `ex`, at the numerics `N`.
- A configuration that violates 00_scope.md R9 is refused (R322, U4).
- `rst_n` low: hardware reset, a block in progress abandoned (70_reset_and_hazards.md R350).
- Busy: an output step; no command is accepted (20_memory.md R66, R71).
- No command presented: the block is idle and nothing changes (60_exceptions.md R338).
- Else the oldest command word is accepted and executed; a reserved word as NOP (30_encoding.md R86). -/
def stepWith {α : Type} (N : Numerics α) (ex : Instr → State α → Host.Outcome (State α) Fault Refusal) (s : State α) :
    Host.Outcome (State α) Fault Refusal :=
  if s.cfg.wf then
    if s.rst then .next { s.afterReset N with rst := false }
    else if s.busy then .next s.drain
    else
      match s.cmdIn with
      | [] => .next s
      | w :: rest => ex (decode w).executedAs { s with cmdIn := rest }
  else .refused .badConfig

/-- One step of the machine: the hardware instance. -/
def step (s : State) : Host.Outcome State Fault Refusal := stepWith hw exec s

/-- The state with a command word where the next step accepts it. `rst_n` is high, and a PROCESS in flight is completed
first, the host having taken what it emitted (assumption log 1); nothing else changes. -/
def State.withFetchWord (s : State) (nbits w : Nat) : State :=
  { s with
    rst := false
    busy := false
    outPort := if s.busy then [] else s.outPort
    outStream := if s.busy then s.outStream ++ s.outPort else s.outStream
    cmdIn := BitVec.ofNat 64 (w % 2 ^ nbits) :: s.cmdIn }

end Sys2Proof.Machine
end

