-- ==== Sys2Proof/Machine/Generic.lean ====
section
/-! DEFINITION. The machine at any numerics record: `CFG.NUM` is a parameter of the model, and "may be instantiated
differently by the model's user" (spec/00_scope.md R8). `exec` and `step` are these at the hardware instance
(Laws/State.lean). -/

namespace Sys2Proof.Machine

variable {α : Type} [DecidableEq α] (N : Numerics α)

/-- What each command does at the numerics `N`. -/
def execAt (i : Instr) (s : State α) : Host.Outcome (State α) Fault Refusal :=
  match i with
  | .nop => execNopAt s
  | .reset => execResetAt N s
  | .getSampleRate => execGetSampleRateAt s
  | .process n => execProcessAt N n s
  | .setMasterVolume f => execSetMasterVolumeAt N f s
  | .setEngineVolume e f => execSetEngineVolumeAt N e f s
  | .noteOn e a f => execNoteOnAt N e a f s
  | .noteOff e a => execNoteOffAt N e a s
  | .stopAllNotes e => execStopAllNotesAt e s
  | .setWaveform e a => execSetWaveformAt e a s
  | .setAttack e f => execSetAttackAt N e f s
  | .setDecay e f => execSetDecayAt N e f s
  | .setSustain e f => execSetSustainAt N e f s
  | .setRelease e f => execSetReleaseAt N e f s
  | .setDetune e f => execSetDetuneAt N e f s
  | .setGlideTime e f => execSetGlideTimeAt N e f s
  | .setFilterCutoff e f => execSetFilterCutoffAt N e f s
  | .setFilterResonance e f => execSetFilterResonanceAt N e f s
  | .setFilterMode e a => execSetFilterModeAt e a s
  | .setFilterEnable e a => execSetFilterEnableAt e a s
  | .setLfoRate e f => execSetLfoRateAt N e f s
  | .setLfoDepth e f => execSetLfoDepthAt N e f s
  | .setLfoWaveform e a => execSetLfoWaveformAt e a s
  | .setLfoRoute e a => execSetLfoRouteAt e a s
  | .setDelayEnable e a => execSetDelayEnableAt e a s
  | .setDelayTime e f => execSetDelayTimeAt N e f s
  | .setDelayFeedback e f => execSetDelayFeedbackAt N e f s
  | .setDelayMix e f => execSetDelayMixAt N e f s
  | .setReverbEnable e a => execSetReverbEnableAt e a s
  | .setReverbRoom e f => execSetReverbRoomAt N e f s
  | .setReverbDamp e f => execSetReverbDampAt N e f s
  | .setTremoloEnable e a => execSetTremoloEnableAt e a s
  | .setTremoloRate e f => execSetTremoloRateAt N e f s
  | .setTremoloDepth e f => execSetTremoloDepthAt N e f s
  | .setFlangerEnable e a => execSetFlangerEnableAt e a s
  | .setFlangerRate e f => execSetFlangerRateAt N e f s
  | .setFlangerDepth e f => execSetFlangerDepthAt N e f s
  | .setFlangerFeedback e f => execSetFlangerFeedbackAt N e f s
  | .setFlangerMix e f => execSetFlangerMixAt N e f s

/-- One step at the numerics `N`. -/
def stepAt (s : State α) : Host.Outcome (State α) Fault Refusal := stepWith N (execAt N) s

end Sys2Proof.Machine
end

