-- ==== Sys2Proof/Machine/Reference.lean ====
section
/-! DEFINITION. The reference instance of the numerics record (spec/00_scope.md R11): the real numbers with exact
operations. The machine does not use it; the unit operations, written over the record, are read at it by the statements
the spec makes "in the reference instance". -/

namespace Sys2Proof.Machine

/-- The binary32 magnitude bits nearest a real magnitude in units of `2^-149`, ties to even (R11). -/
noncomputable def roundReal (x : ℝ) : Nat :=
  let k := (⌊x⌋₊).log2 - 23
  let m := ⌊x / 2 ^ k⌋₊
  let r := x / 2 ^ k - m
  let m' := if 1 / 2 < r ∨ (r = 1 / 2 ∧ m % 2 = 1) then m + 1 else m
  Nat.min (k * 2 ^ 23 + m') F32.infBits

/-- R11: exact operations; `ofBits32` the exact value of the datum (an infinity is read as `2^128` with its sign, beyond
every bound it is clamped to), `toBits32` rounds to nearest, ties to even; `sin2pi` and `exp2` the mathematical functions
(R12). Assumption log 18. -/
noncomputable def reference : Numerics ℝ where
  add      := fun a b => a + b
  sub      := fun a b => a - b
  mul      := fun a b => a * b
  div      := fun a b => a / b
  lt       := fun a b => decide (a < b)
  le       := fun a b => decide (a ≤ b)
  eq       := fun a b => decide (a = b)
  floor    := fun a => (⌊a⌋ : ℝ)
  abs      := fun a => |a|
  ofInt    := fun n => (n : ℝ)
  ofDec    := fun d => (d.num : ℝ) / 10 ^ d.scale
  toNat    := fun a => ⌊a⌋₊
  ofBits32 := fun w => (F32.scaled w : ℝ) / 2 ^ 149
  toBits32 := fun a => F32.pack (decide (a < 0)) (roundReal (|a| * 2 ^ 149))
  sin2pi   := fun p => Real.sin (2 * Real.pi * p)
  exp2     := fun x => (2 : ℝ) ^ x
  clampNaN := fun a => a

end Sys2Proof.Machine
end

