-- ==== Sys2Proof/Safety.lean ====
section
/-! DEFINITION. What holds of a state of a safe run: the structural invariant and the ranges of spec/10_state.md, in
the terms the statements use. -/

namespace Sys2Proof.Machine

/-! ## Structure -/

/-- One engine fits its configuration: `NVOICES` voices (10_state.md R21), ages of `AGE_W` bits (R32), every write
index below its memory's length (R41, R42, R44), every memory canonical and inside its length (20_memory.md R60, R62). -/
def EngineState.wf (C : Config) (E : EngineState Word) : Bool :=
  decide (
    E.voices.length = C.nvoices ∧ E.voices.all (fun v => decide (v.age < 2 ^ C.ageW)) ∧ E.dly.w < C.delayLen ∧
    Mem.wf hw.zero C.delayLen E.dly.mem ∧ E.flg.w < C.flLen ∧ Mem.wf hw.zero C.flLen E.flg.mem ∧
    E.rev.combs.k0.ci < C.combLen.k0 ∧ Mem.wf hw.zero C.combLen.k0 E.rev.combs.k0.mem ∧
    E.rev.combs.k1.ci < C.combLen.k1 ∧ Mem.wf hw.zero C.combLen.k1 E.rev.combs.k1.mem ∧
    E.rev.combs.k2.ci < C.combLen.k2 ∧ Mem.wf hw.zero C.combLen.k2 E.rev.combs.k2.mem ∧
    E.rev.combs.k3.ci < C.combLen.k3 ∧ Mem.wf hw.zero C.combLen.k3 E.rev.combs.k3.mem ∧
    E.rev.aps.j0.ai < C.apLen.j0 ∧ Mem.wf hw.zero C.apLen.j0 E.rev.aps.j0.mem ∧ E.rev.aps.j1.ai < C.apLen.j1 ∧
    Mem.wf hw.zero C.apLen.j1 E.rev.aps.j1.mem ∧ Mem.wf hw.zero C.blockMax E.scr)

/-- Of the samples waiting, the last one and no other is marked `out_last` (20_memory.md R71). -/
def lastMarked : List OutSample → Bool
  | [] => true
  | [x] => x.last
  | x :: y :: t => !x.last && lastMarked (y :: t)

/-- Both engines fit the configuration, and the block is busy exactly while samples of a PROCESS wait for the host
(10_state.md R25, 20_memory.md R66). -/
def State.wf (s : State) : Bool :=
  decide (
    EngineState.wf s.cfg s.live ∧ EngineState.wf s.cfg s.timeline ∧ (s.busy == !s.outPort.isEmpty) ∧
    lastMarked s.outPort)

/-! ## The registers of an engine

Everything of an engine a command writes directly (10_state.md R45), but `flt.cutoff`, which the LFO stage writes too
(R46). -/

structure Registers (α : Type) where
  prm         : VoiceParams α
  lfoRate     : α
  lfoDepth    : α
  lfoWaveform : Waveform
  baseCutoff  : α
  q           : α
  fltMode     : FilterMode
  fltEnable   : Bool
  lfoRoute    : Bool
  dlyEnable   : Bool
  dlyTime     : α
  dlyFeedback : α
  dlyMix      : α
  revEnable   : Bool
  revRoom     : α
  revDamp     : α
  trmEnable   : Bool
  trmRate     : α
  trmDepth    : α
  flgEnable   : Bool
  flgRate     : α
  flgDepth    : α
  flgFeedback : α
  flgMix      : α
deriving DecidableEq, Repr

def EngineState.registers {α : Type} (E : EngineState α) : Registers α where
  prm         := E.prm
  lfoRate     := E.lfo.rate
  lfoDepth    := E.lfo.depth
  lfoWaveform := E.lfo.waveform
  baseCutoff  := E.baseCutoff
  q           := E.flt.q
  fltMode     := E.fltMode
  fltEnable   := E.fltEnable
  lfoRoute    := E.lfoRoute
  dlyEnable   := E.dlyEnable
  dlyTime     := E.dly.time
  dlyFeedback := E.dly.feedback
  dlyMix      := E.dly.mix
  revEnable   := E.revEnable
  revRoom     := E.rev.room
  revDamp     := E.rev.damp
  trmEnable   := E.trmEnable
  trmRate     := E.trm.rate
  trmDepth    := E.trm.depth
  flgEnable   := E.flgEnable
  flgRate     := E.flg.rate
  flgDepth    := E.flg.depth
  flgFeedback := E.flg.feedback
  flgMix      := E.flg.mix

/-! ## Ranges -/

/-- `lo <= v <= hi`; a NaN is in no range. -/
def inRange (lo hi v : Word) : Bool := F32.le lo v && F32.le v hi

/-- `0 <= v < 1`. -/
def inUnit (v : Word) : Bool := F32.le hw.zero v && F32.lt v hw.one

/-- The bounds of the clamps are those of the table of 00_scope.md R8. R9 does not constrain them; sizes and `FS` are
free. -/
def hasDefaultBounds (C : Config) : Bool :=
  decide (
    C.cutoffMin = Config.default.cutoffMin ∧ C.cutoffMax = Config.default.cutoffMax ∧
    C.qBase = Config.default.qBase ∧ C.qMin = Config.default.qMin ∧ C.engineVolMax = Config.default.engineVolMax ∧
    C.envTMax = Config.default.envTMax ∧ C.glideMaxMs = Config.default.glideMaxMs ∧
    C.detuneMax = Config.default.detuneMax ∧ C.rateMax = Config.default.rateMax ∧ C.fbMax = Config.default.fbMax ∧
    C.delayMaxS = Config.default.delayMaxS)

/-- The state of a voice in its ranges: the velocity (10_state.md R33) and the envelope's level (R29) in `[0, 1]`, the
level 0 in Idle (41_envelope.md R124), the oscillator's frequency never negative (R28, 40_oscillator.md R108); and, where
A4_HZ is positive, the glide's frequencies never negative (42_glide.md R146) and its step not negative (R30). R9 does not
constrain A4_HZ. The step may be a NaN, of two infinite frequencies, and `osc.phase` is left out (assumption log 7). -/
def VoiceState.inRanges (C : Config) (v : VoiceState Word) : Bool :=
  decide (
    inRange hw.zero hw.one v.velocity ∧ inRange hw.zero hw.one v.env.level ∧
    (v.env.stage = .idle → F32.eq v.env.level hw.zero) ∧ F32.le hw.zero v.osc.freq ∧
    (F32.lt hw.zero (hw.ofDec C.a4Hz) →
      F32.le hw.zero v.gl.current ∧ F32.le hw.zero v.gl.target ∧ F32.lt v.gl.step hw.zero = false))

/-- Every numeric register of the table of 10_state.md R45 in its range, the modulators' phases in `[0, 1)` (R35, R43,
R44) and every voice in its ranges. -/
def EngineState.inRanges (C : Config) (E : EngineState Word) : Bool :=
  decide (
    inRange hw.zero (hw.ofDec C.envTMax) E.prm.attack ∧ inRange hw.zero (hw.ofDec C.envTMax) E.prm.decay ∧
    inRange hw.zero hw.one E.prm.sustain ∧ inRange hw.zero (hw.ofDec C.envTMax) E.prm.release ∧
    inRange (hw.ofDec ⟨-C.detuneMax.num, C.detuneMax.scale⟩) (hw.ofDec C.detuneMax) E.prm.detune ∧
    inRange hw.zero (hw.ofDec C.glideMaxMs) E.prm.glideMs ∧
    E.voices.all (VoiceState.inRanges C) ∧ inRange hw.zero (hw.ofDec C.rateMax) E.lfo.rate ∧
    inRange hw.zero hw.one E.lfo.depth ∧ inUnit E.lfo.phase ∧
    inRange (hw.ofDec C.cutoffMin) (hw.ofDec C.cutoffMax) E.baseCutoff ∧
    inRange (hw.ofDec C.cutoffMin) (hw.ofDec C.cutoffMax) E.flt.cutoff ∧
    inRange (hw.ofDec C.qMin) (hw.ofDec C.qBase) E.flt.q ∧ inRange hw.zero (hw.ofDec C.delayMaxS) E.dly.time ∧
    inRange hw.zero (hw.ofDec C.fbMax) E.dly.feedback ∧ inRange hw.zero hw.one E.dly.mix ∧
    inRange hw.zero hw.one E.rev.room ∧ inRange hw.zero hw.one E.rev.damp ∧
    inRange hw.zero (hw.ofDec C.rateMax) E.trm.rate ∧ inRange hw.zero hw.one E.trm.depth ∧ inUnit E.trm.phase ∧
    inRange hw.zero (hw.ofDec C.rateMax) E.flg.rate ∧ inRange hw.zero hw.one E.flg.depth ∧
    inRange hw.zero (hw.ofDec C.fbMax) E.flg.feedback ∧ inRange hw.zero hw.one E.flg.mix ∧ inUnit E.flg.phase)

/-- Both engines and the three volumes (10_state.md R24) in range. -/
def State.inRanges (s : State) : Bool :=
  decide (
    EngineState.inRanges s.cfg s.live ∧ EngineState.inRanges s.cfg s.timeline ∧
    inRange hw.zero hw.one s.masterVol ∧ inRange hw.zero (hw.ofDec s.cfg.engineVolMax) s.volLive ∧
    inRange hw.zero (hw.ofDec s.cfg.engineVolMax) s.volTimeline)

end Sys2Proof.Machine
end

