-- ==== Sys2Proof/Certificates/Slice0/Obligations.lean ====
section
/-! DEFINITION. The statements for the provers, and before them the words they are written in: the tables of
spec/30_encoding.md read from the spec once more, the value of a binary32 datum, and the runs of a unit. -/

namespace Sys2Proof.Spec

open Sys2Proof.Machine

/-! ## Encoding -/

/-- The fields of a word, by their bits (30_encoding.md R80). -/
def OP (w : CmdWord) : Nat := (w.extractLsb' 56 8).toNat
def E (w : CmdWord) : EngineSel := if w.getLsbD 55 then .timeline else .live
def A (w : CmdWord) : BitVec 16 := w.extractLsb' 32 16
def F (w : CmdWord) : BitVec 32 := w.extractLsb' 0 32

/-- The seven operand formats (R81). -/
inductive Format where
  | Z
  | N
  | G
  | E0
  | EA
  | EF
  | EAF

/-- The bits a command of this format is read from: `OP`, and the fields the format reads (R80, R81). -/
def Format.readBits : Format → CmdWord
  | .Z => 0xFF00000000000000#64
  | .N => 0xFF000000FFFFFFFF#64
  | .G => 0xFF000000FFFFFFFF#64
  | .E0 => 0xFF80000000000000#64
  | .EA => 0xFF80FFFF00000000#64
  | .EF => 0xFF800000FFFFFFFF#64
  | .EAF => 0xFF80FFFFFFFFFFFF#64

/-- A row of the opcode map (R84): a word `w` selects it when `w AND mask = pattern`. -/
structure Row where
  pattern : CmdWord
  mask    : CmdWord
  format  : Format
  instr   : CmdWord → Instr

/-- A row whose mask is the opcode alone. -/
def row (op : Nat) (format : Format) (instr : CmdWord → Instr) : Row :=
  ⟨BitVec.ofNat 64 (op * 2 ^ 56), 0xFF00000000000000#64, format, instr⟩

def rowsSystem : List Row := [
  row 0x00 .Z fun _ => .nop,
  row 0x01 .Z fun _ => .reset,
  row 0x02 .Z fun _ => .getSampleRate,
  row 0x03 .N fun w => .process (F w),
  row 0x04 .G fun w => .setMasterVolume (F w),
  row 0x05 .EF fun w => .setEngineVolume (E w) (F w)]

def rowsNotes : List Row := [
  row 0x10 .EAF fun w => .noteOn (E w) (A w) (F w),
  row 0x11 .EA fun w => .noteOff (E w) (A w),
  ⟨0x1280000000000000#64, 0xFF80000000000000#64, .E0, fun _ => .stopAllNotes .timeline⟩]

def rowsVoice : List Row := [
  row 0x20 .EA fun w => .setWaveform (E w) (A w),
  row 0x21 .EF fun w => .setAttack (E w) (F w),
  row 0x22 .EF fun w => .setDecay (E w) (F w),
  row 0x23 .EF fun w => .setSustain (E w) (F w),
  row 0x24 .EF fun w => .setRelease (E w) (F w),
  row 0x25 .EF fun w => .setDetune (E w) (F w),
  row 0x26 .EF fun w => .setGlideTime (E w) (F w)]

def rowsFilter : List Row := [
  row 0x30 .EF fun w => .setFilterCutoff (E w) (F w),
  row 0x31 .EF fun w => .setFilterResonance (E w) (F w),
  row 0x32 .EA fun w => .setFilterMode (E w) (A w),
  row 0x33 .EA fun w => .setFilterEnable (E w) (A w),
  row 0x38 .EF fun w => .setLfoRate (E w) (F w),
  row 0x39 .EF fun w => .setLfoDepth (E w) (F w),
  row 0x3A .EA fun w => .setLfoWaveform (E w) (A w),
  row 0x3B .EA fun w => .setLfoRoute (E w) (A w)]

def rowsEffects : List Row := [
  row 0x40 .EA fun w => .setDelayEnable (E w) (A w),
  row 0x41 .EF fun w => .setDelayTime (E w) (F w),
  row 0x42 .EF fun w => .setDelayFeedback (E w) (F w),
  row 0x43 .EF fun w => .setDelayMix (E w) (F w),
  row 0x48 .EA fun w => .setReverbEnable (E w) (A w),
  row 0x49 .EF fun w => .setReverbRoom (E w) (F w),
  row 0x4A .EF fun w => .setReverbDamp (E w) (F w),
  row 0x50 .EA fun w => .setTremoloEnable (E w) (A w),
  row 0x51 .EF fun w => .setTremoloRate (E w) (F w),
  row 0x52 .EF fun w => .setTremoloDepth (E w) (F w),
  row 0x58 .EA fun w => .setFlangerEnable (E w) (A w),
  row 0x59 .EF fun w => .setFlangerRate (E w) (F w),
  row 0x5A .EF fun w => .setFlangerDepth (E w) (F w),
  row 0x5B .EF fun w => .setFlangerFeedback (E w) (F w),
  row 0x5C .EF fun w => .setFlangerMix (E w) (F w)]

/-- The opcode map (R84). -/
def opcodeMap : List Row := rowsSystem ++ rowsNotes ++ rowsVoice ++ rowsFilter ++ rowsEffects

/-- The reserved words (R86), by the ranges the rule lists. -/
def Reserved (w : CmdWord) : Prop :=
  (0x06 ≤ OP w ∧ OP w ≤ 0x0F) ∨ (0x13 ≤ OP w ∧ OP w ≤ 0x1F) ∨ (0x27 ≤ OP w ∧ OP w ≤ 0x2F) ∨
  (0x34 ≤ OP w ∧ OP w ≤ 0x37) ∨ (0x3C ≤ OP w ∧ OP w ≤ 0x3F) ∨ (0x44 ≤ OP w ∧ OP w ≤ 0x47) ∨
  (0x4B ≤ OP w ∧ OP w ≤ 0x4F) ∨ (0x53 ≤ OP w ∧ OP w ≤ 0x57) ∨ (0x5D ≤ OP w ∧ OP w ≤ 0xFF) ∨
  (OP w = 0x12 ∧ E w = .live)

/-! ## Operands -/

/-- R82: "exponent all ones, fraction non-zero". -/
abbrev IsNaN (f : BitVec 32) : Prop := f.extractLsb' 23 8 = 255#8 ∧ f.extractLsb' 0 23 ≠ 0#23

/-- A waveform code (R83): the code the clamped signed operand selects. -/
def waveform (a : BitVec 16) : Waveform :=
  if a.toInt ≤ 0 then .sine else if a.toInt = 1 then .saw else if a.toInt = 2 then .square else .triangle

/-- A filter mode code (R83). -/
def mode (a : BitVec 16) : FilterMode :=
  if a.toInt ≤ 0 then .lowPass else if a.toInt = 1 then .highPass else .bandPass

/-- A note number (R83). -/
def note (a : BitVec 16) : Int := max 0 (min 127 a.toInt)

/-- The `F` operand of the commands that read it as a `Num` (R81: formats G, EF and EAF). -/
def numOperand : Instr → Option (BitVec 32)
  | .setMasterVolume f | .setEngineVolume _ f | .noteOn _ _ f | .setAttack _ f | .setDecay _ f | .setSustain _ f
  | .setRelease _ f | .setDetune _ f | .setGlideTime _ f | .setFilterCutoff _ f | .setFilterResonance _ f
  | .setLfoRate _ f | .setLfoDepth _ f | .setDelayTime _ f | .setDelayFeedback _ f | .setDelayMix _ f
  | .setReverbRoom _ f | .setReverbDamp _ f | .setTremoloRate _ f | .setTremoloDepth _ f | .setFlangerRate _ f
  | .setFlangerDepth _ f | .setFlangerFeedback _ f | .setFlangerMix _ f => some f
  | .nop | .reset | .getSampleRate | .process _ | .noteOff _ _ | .stopAllNotes _ | .setWaveform _ _
  | .setFilterMode _ _ | .setFilterEnable _ _ | .setLfoWaveform _ _ | .setLfoRoute _ _ | .setDelayEnable _ _
  | .setReverbEnable _ _ | .setTremoloEnable _ _ | .setFlangerEnable _ _ => none

/-- The engine a command with an `E` field acts on (46_engine.md R226). -/
def engineOf : Instr → Option EngineSel
  | .setEngineVolume e _ | .noteOn e _ _ | .noteOff e _ | .stopAllNotes e | .setWaveform e _ | .setAttack e _
  | .setDecay e _ | .setSustain e _ | .setRelease e _ | .setDetune e _ | .setGlideTime e _ | .setFilterCutoff e _
  | .setFilterResonance e _ | .setFilterMode e _ | .setFilterEnable e _ | .setLfoRate e _ | .setLfoDepth e _
  | .setLfoWaveform e _ | .setLfoRoute e _ | .setDelayEnable e _ | .setDelayTime e _ | .setDelayFeedback e _
  | .setDelayMix e _ | .setReverbEnable e _ | .setReverbRoom e _ | .setReverbDamp e _ | .setTremoloEnable e _
  | .setTremoloRate e _ | .setTremoloDepth e _ | .setFlangerEnable e _ | .setFlangerRate e _ | .setFlangerDepth e _
  | .setFlangerFeedback e _ | .setFlangerMix e _ => some e
  | .nop | .reset | .getSampleRate | .process _ | .setMasterVolume _ => none

/-! ## Commands that write a register of one engine -/

/-- What a numeric setter does, whole: the words of its opcode are this command; it always completes; a NaN discards it;
else the register of engine `e` takes the operand through `eff`, and nothing else of the state changes. -/
def NumSetter (op : Nat) (mk : EngineSel → BitVec 32 → Instr)
    (eff : Config → Word → EngineState Word → EngineState Word) : Prop :=
  (∀ w : CmdWord, OP w = op → decode w = .command (mk (E w) (F w))) ∧
  ∀ e f s, exec (mk e f) s = .next (if IsNaN f then s else s.updEngine e (eff s.cfg f))

/-- The same for a setter whose operand is the integer `A`. -/
def IntSetter (op : Nat) (mk : EngineSel → BitVec 16 → Instr)
    (eff : BitVec 16 → EngineState Word → EngineState Word) : Prop :=
  (∀ w : CmdWord, OP w = op → decode w = .command (mk (E w) (A w))) ∧
  ∀ e a s, exec (mk e a) s = .next (s.updEngine e (eff a))

/-- `clamp(x, lo, hi)` between two decimals (00_scope.md R14, R15). -/
def clampDec (lo hi : Dec) (x : Word) : Word := hw.clamp x (hw.ofDec lo) (hw.ofDec hi)

/-- Between 0 and a decimal. -/
def clampTo (hi : Dec) (x : Word) : Word := hw.clamp x 0#32 (hw.ofDec hi)

/-- Between 0 and 1. -/
def clampUnit (x : Word) : Word := hw.clamp x 0#32 0x3F800000#32

/-! ## Steps -/

/-- The next step accepts the command word `w`: the configuration is legal, `rst_n` is high, the block is not busy, and
the host presents `w`. -/
structure Accepts (s : State) (w : CmdWord) (rest : List CmdWord) : Prop where
  cfg  : s.cfg.wf = true
  rst  : s.rst = false
  busy : s.busy = false
  cmd  : s.cmdIn = w :: rest

/-- `k` steps of the machine. -/
def run (k : Nat) (s : State) : Host.Outcome State Fault Refusal := Host.Core.run core k s

/-- The value of a decimal. -/
def decimal (d : Dec) : ℚ := d.num / 10 ^ d.scale

/-! ## Reset values (70_reset_and_hazards.md R351), as binary32 patterns -/

def silentVoice : VoiceState Word where
  osc      := ⟨0#32, 0#32⟩
  env      := ⟨.idle, 0#32⟩
  gl       := ⟨0#32, 0#32, 0#32⟩
  active   := false
  age      := 0
  velocity := 0#32

/-- 0.01 s, 0.1 s, 0.7, 0.3 s; 1.0 Hz; 1000.0 Hz, Q_BASE; 0.3 s, 0.3, 0.3; 0.5, 0.5; 5.0 Hz, 0.5; 0.5 Hz, 0.5, 0.3, 0.5. -/
def resetEngine (C : Config) : EngineState Word where
  prm        := ⟨.sine, 0x3C23D70A#32, 0x3DCCCCCD#32, 0x3F333333#32, 0x3E99999A#32, 0#32, 0#32⟩
  voices     := List.replicate C.nvoices silentVoice
  lfo        := ⟨0#32, 0x3F800000#32, 0#32, .sine⟩
  flt        := ⟨0#32, 0#32, 0#32, 0#32, 0x447A0000#32, hw.ofDec C.qBase⟩
  baseCutoff := 0x447A0000#32
  fltMode    := .lowPass
  fltEnable  := false
  lfoRoute   := false
  dlyEnable  := false
  revEnable  := false
  trmEnable  := false
  flgEnable  := false
  dly        := ⟨0x3E99999A#32, 0x3E99999A#32, 0x3E99999A#32, 0, []⟩
  rev        := ⟨0x3F000000#32, 0x3F000000#32,
    ⟨⟨0, 0#32, []⟩, ⟨0, 0#32, []⟩, ⟨0, 0#32, []⟩, ⟨0, 0#32, []⟩⟩, ⟨⟨0, []⟩, ⟨0, []⟩⟩⟩
  trm        := ⟨0x40A00000#32, 0x3F000000#32, 0#32⟩
  flg        := ⟨0x3F000000#32, 0x3F000000#32, 0x3E99999A#32, 0x3F000000#32, 0#32, 0, []⟩
  scr        := []

/-! ## Voices -/

/-- R34: `active OR env.stage != Idle`. -/
abbrev Sounding {α : Type} (v : VoiceState α) : Prop := v.active = true ∨ v.env.stage ≠ .idle

/-- R34: `(NOT active) AND env.stage != Idle`. -/
abbrev Releasing {α : Type} (v : VoiceState α) : Prop := v.active = false ∧ v.env.stage ≠ .idle

/-- `midiToFreq` (46_engine.md R211), as the rule evaluates it. -/
def noteFreq (C : Config) (n : Int) : Word :=
  F32.mul (hw.ofDec C.a4Hz) (F32.exp2 (F32.div (F32.ofInt (n - 69)) (F32.ofInt 12)))

/-- A voice after `Voice.noteOn(freq, vel)` (45_voice.md R192, with 42_glide.md R141, R142 and 41_envelope.md R122). -/
def voiceAfterNoteOn (C : Config) (P : VoiceParams Word) (u : VoiceState Word) (freq vel : Word) : VoiceState Word where
  gl :=
    if F32.eq P.glideMs 0#32 then ⟨freq, freq, 0#32⟩
    else ⟨u.gl.current, freq,
      F32.div (F32.abs (F32.sub freq u.gl.current))
        (hw.max 0x3F800000#32 (F32.div (F32.mul P.glideMs (F32.ofInt C.fs)) (F32.ofInt 1000)))⟩
  osc      := if Sounding u then u.osc else { u.osc with phase := 0#32 }
  velocity := vel
  env      := ⟨.attack, u.env.level⟩
  active   := true
  age      := 0

/-- A voice after `Voice.noteOff()` (45_voice.md R193). -/
def released (v : VoiceState Word) : VoiceState Word := { v with env := ⟨.release, v.env.level⟩ }

/-! ## The streaming order (20_memory.md R73) -/

/-- The per-block actions: whether the voice sounds at the block's start, and its age. -/
def startVoice (C : Config) (v : VoiceState Word) : Bool × VoiceState Word :=
  if Sounding v then (true, { v with age := Nat.min (v.age + 1) (2 ^ C.ageW - 1) }) else (false, v)

/-- One sample of all voices, ascending: the sounding ones add their terms to the sum. -/
def streamVoices (C : Config) (P : VoiceParams Word) : List (Bool × VoiceState Word) → Word → List (Bool × VoiceState Word) × Word
  | [], sum => ([], sum)
  | (sounding, v) :: t, sum =>
    let k := v.tick hw C P
    let r := streamVoices C P t (if sounding then F32.add sum k.2 else sum)
    ((sounding, if sounding then k.1 else v) :: r.1, r.2)

/-- `n` samples, each finished before the next: the voices, then the chain. No scratch memory is read or written. -/
def stream (C : Config) : Nat → List (Bool × VoiceState Word) → EngineState Word →
    List (Bool × VoiceState Word) × EngineState Word × List Word
  | 0, vs, E => (vs, E, [])
  | n + 1, vs, E =>
    let v := streamVoices C E.prm vs 0#32
    let c := E.chain hw C v.2
    let r := stream C n v.1 c.1
    (r.1, r.2.1, c.2 :: r.2.2)

/-- What a block partition can change in an engine, taken out: ages and scratch words (48_mixer.md R297). -/
def withoutAges (E : EngineState Word) : EngineState Word :=
  { E with voices := E.voices.map fun v => { v with age := 0 }, scr := [] }

/-! ## The chain (46_engine.md R222) -/

/-- One sample step of the chain: each enabled stage, in the fixed order, is fed what the one before it returned. -/
def chain (C : Config) (E : EngineState Word) (x : Word) : EngineState Word × Word :=
  let E1 := if E.lfoRoute then E.lfoStage hw C else E
  let flt := if E.fltEnable then E1.flt.process hw C E.fltMode x else (E1.flt, x)
  let flg := if E.flgEnable then E.flg.process hw C flt.2 else (E.flg, flt.2)
  let trm := if E.trmEnable then E.trm.process hw C flg.2 else (E.trm, flg.2)
  let dly := if E.dlyEnable then E.dly.process hw C trm.2 else (E.dly, trm.2)
  let rev := if E.revEnable then E.rev.process hw C dly.2 else (E.rev, dly.2)
  ({ E1 with flt := flt.1, flg := flg.1, trm := trm.1, dly := dly.1, rev := rev.1 }, rev.2)

/-- The sine modulator of the tremolo and the flanger (47_effects.md R262, R272). -/
def swing (phase : Word) : Word := F32.add 0x3F000000#32 (F32.mul 0x3F000000#32 (F32.sin2pi phase))

/-- A modulator's phase one sample on (43_lfo.md R156; 47_effects.md R262, R272). -/
def phaseOn (C : Config) (phase rate : Word) : Word := hw.wrap01 (F32.add phase (F32.div rate (F32.ofInt C.fs)))

/-- The dry/wet mix (47_effects.md R242, R252, R272). -/
def wetMix (x y wet : Word) : Word := F32.add (F32.mul x (F32.sub 0x3F800000#32 wet)) (F32.mul y wet)

/-! ## Silence (46_engine.md R225) -/

/-- A zero of either sign. -/
abbrev IsZero (w : Word) : Prop := w = 0x00000000#32 ∨ w = 0x80000000#32

abbrev ZeroMem (m : Mem Word) : Prop := ∀ p ∈ m, IsZero p.2

/-- No sounding voice, the filter state zero, and nothing but zeros in the memories of the effects. -/
structure Quiet (E : EngineState Word) : Prop where
  voices : ∀ v ∈ E.voices, ¬ Sounding v
  filter : IsZero E.flt.low ∧ IsZero E.flt.band ∧ IsZero E.flt.high ∧ IsZero E.flt.notch
  delay  : ZeroMem E.dly.mem
  flange : ZeroMem E.flg.mem
  damp   : IsZero E.rev.combs.k0.lp ∧ IsZero E.rev.combs.k1.lp ∧ IsZero E.rev.combs.k2.lp ∧ IsZero E.rev.combs.k3.lp
  combs  : ZeroMem E.rev.combs.k0.mem ∧ ZeroMem E.rev.combs.k1.mem ∧ ZeroMem E.rev.combs.k2.mem ∧ ZeroMem E.rev.combs.k3.mem
  diff   : ZeroMem E.rev.aps.j0.mem ∧ ZeroMem E.rev.aps.j1.mem

/-- Both engines are quiet, in a state that meets the two invariants. -/
structure Silent (s : State) : Prop where
  cfg      : s.cfg = Config.default
  wf       : State.wf s = true
  inRanges : State.inRanges s = true
  quiet    : ∀ e, Quiet (s.engine e)

/-- All six chain flags false (10_state.md R39). -/
abbrev AllOff (E : EngineState Word) : Prop :=
  E.fltEnable = false ∧ E.lfoRoute = false ∧ E.dlyEnable = false ∧ E.revEnable = false ∧ E.trmEnable = false ∧
    E.flgEnable = false

/-! ## Runs of a unit -/

/-- The delay over a list of inputs: at each step the word written and the value returned. -/
def delayRun (C : Config) : DelayState Word → List Word → List (Word × Word)
  | _, [] => []
  | d, x :: t =>
    let r := d.process hw C x
    (Mem.read 0#32 r.1.mem d.w, r.2) :: delayRun C r.1 t

/-- A comb of `len` words over a list of inputs: at each step the word written and the word that left it. -/
def combRun (len : Nat) (fb d1 d2 : Word) : CombState Word → List Word → List (Word × Word)
  | _, [] => []
  | c, x :: t =>
    let r := c.process hw len fb d1 d2 x 0#32
    (Mem.read 0#32 r.1.mem c.ci, Mem.read 0#32 c.mem c.ci) :: combRun len fb d1 d2 r.1 t

/-- An all-pass of `len` words over a list of inputs: at each step the word written and the word that left it. -/
def allPassRun (len : Nat) (g : Word) : AllPassState Word → List Word → List (Word × Word)
  | _, [] => []
  | a, x :: t =>
    let r := a.process hw len g x
    (Mem.read 0#32 r.1.mem a.ai, Mem.read 0#32 a.mem a.ai) :: allPassRun len g r.1 t

/-- The filter over a list of inputs: `low`, `high`, `band`, `notch` after each step. -/
def filterRun {α : Type} (N : Numerics α) (C : Config) : FilterState α → List α → List (α × α × α × α)
  | _, [] => []
  | t, x :: xs => let r := t.step N C x; (r.low, r.high, r.band, r.notch) :: filterRun N C r xs

/-! ## Numerics -/

/-- A finite binary32 datum (30_encoding.md R82). -/
abbrev Finite (w : Word) : Prop := w.extractLsb' 23 8 ≠ 255#8

/-- The value of a finite binary32 datum, from its sign, exponent and fraction (R82). -/
def value (w : Word) : ℚ :=
  (if w.getLsbD 31 then -1 else 1) *
  (if w.extractLsb' 23 8 = 0#8 then ((w.extractLsb' 0 23).toNat : ℚ) / 2 ^ 149
    else (2 ^ 23 + (w.extractLsb' 0 23).toNat : ℚ) * 2 ^ (w.extractLsb' 23 8).toNat / 2 ^ 150)

/-- `r` is `x` rounded to nearest, ties to even, gradual underflow, overflow to infinity (00_scope.md R11). -/
def Rounded (x : ℚ) (r : Word) : Prop :=
  if |x| < 2 ^ 128 - 2 ^ 103 then
    Finite r ∧ ∀ c : Word, Finite c →
      |value r - x| ≤ |value c - x| ∧ (|value r - x| = |value c - x| → value c ≠ value r → r.getLsbD 0 = false)
  else r = if x < 0 then 0xFF800000#32 else 0x7F800000#32

/-- The properties a proof may assume of the transcendental fields (R12), of either instance. -/
structure Transcendental {α : Type} (N : Numerics α) (finite : α → Prop) : Prop where
  exp2_zero  : N.exp2 N.zero = N.one
  exp2_one   : N.exp2 N.one = N.ofInt 2
  exp2_neg   : N.exp2 (N.ofInt (-1)) = N.half
  exp2_mono  : ∀ a b, finite a → finite b → N.le a b = true → N.le (N.exp2 a) (N.exp2 b) = true
  exp2_pos   : ∀ a, finite a → N.lt N.zero (N.exp2 a) = true
  sin_0      : N.eq (N.sin2pi N.zero) N.zero = true
  sin_1      : N.sin2pi (N.ofDec ⟨25, 2⟩) = N.one
  sin_2      : N.eq (N.sin2pi N.half) N.zero = true
  sin_3      : N.sin2pi (N.ofDec ⟨75, 2⟩) = N.ofInt (-1)
  sin_bounds : ∀ p, N.le N.zero p = true → N.lt p N.one = true →
    N.le (N.ofInt (-1)) (N.sin2pi p) = true ∧ N.le (N.sin2pi p) N.one = true
  eq_exp2    : ∀ a b, N.eq a b = true → N.exp2 a = N.exp2 b
  eq_sin2pi  : ∀ a b, N.eq a b = true → N.sin2pi a = N.sin2pi b

end Sys2Proof.Spec

open Sys2Proof Sys2Proof.Machine

/-! ## Encoding -/

/-- R81, R84, R88: decoding the word of a well-formed command gives the command back, whatever its operands, and the word
holds zero in every bit its format does not read. -/
def Obligations.DecodeEncode : Prop :=
  ∀ i : Instr, i.wf = true →
    decode (encode i) = .command i ∧
    ∀ r ∈ Spec.opcodeMap, encode i &&& r.mask = r.pattern → encode i &&& ~~~r.format.readBits = 0#64

/-- R90: the worked encodings, both ways. -/
def Obligations.WorkedEncodings : Prop :=
  ∀ p ∈ [
    (0x0000000000000000#64, Instr.nop),
    (0x0100000000000000#64, Instr.reset),
    (0x0200000000000000#64, Instr.getSampleRate),
    (0x0300000000000080#64, Instr.process 128#32),
    (0x04000000BF800000#64, Instr.setMasterVolume 0xBF800000#32),
    (0x0580000040000000#64, Instr.setEngineVolume .timeline 0x40000000#32),
    (0x108000513F000000#64, Instr.noteOn .timeline 81#16 0x3F000000#32),
    (0x1100004500000000#64, Instr.noteOff .live 69#16),
    (0x1280000000000000#64, Instr.stopAllNotes .timeline),
    (0x2000000200000000#64, Instr.setWaveform .live 2#16),
    (0x3200FFFF00000000#64, Instr.setFilterMode .live 0xFFFF#16)],
  decode p.1 = .command p.2 ∧ encode p.2 = p.1

/-- R80, R84: a word selects a row of the opcode map exactly when it decodes to the row's command, with the fields of R80
as its operands; there are 39 rows, and no word selects two. -/
def Obligations.OpcodeMap : Prop :=
  Spec.opcodeMap.length = 39 ∧
  (∀ r ∈ Spec.opcodeMap, ∀ w : CmdWord, w &&& r.mask = r.pattern ↔ decode w = .command (r.instr w)) ∧
  Spec.opcodeMap.Pairwise fun r r' => ∀ w : CmdWord, ¬(w &&& r.mask = r.pattern ∧ w &&& r'.mask = r'.pattern)

/-- R81, R87: a command reads nothing but `OP` and the fields of its format: with every other bit cleared the word decodes
alike, and so executes alike. -/
def Obligations.UnreadBitsIgnored : Prop :=
  ∀ r ∈ Spec.opcodeMap, ∀ w : CmdWord, w &&& r.mask = r.pattern →
    decode w = decode (w &&& r.format.readBits) ∧
    ∀ s, exec (decode w).executedAs s = exec (decode (w &&& r.format.readBits)).executedAs s

/-- R86: the words that are no command are those the rule lists; when the block accepts one, the word is consumed and
nothing else changes. -/
def Obligations.ReservedWords : Prop :=
  (∀ w : CmdWord, (∀ i, decode w ≠ .command i) ↔ Spec.Reserved w) ∧
  ∀ s w rest, Spec.Accepts s w rest → Spec.Reserved w → step s = .next { s with cmdIn := rest }

/-! ## Steps -/

/-- A step runs the decoded command: when the word the host presents decodes to `i`, the step is `exec i` with the word
taken from the port; and so for the encoding of any well-formed command. With nothing presented nothing changes (the
model's choice: assumption log 1). -/
def Obligations.StepRunsCommand : Prop :=
  (∀ s w rest i, Spec.Accepts s w rest → decode w = .command i → step s = exec i { s with cmdIn := rest }) ∧
  (∀ s rest i, i.wf = true → Spec.Accepts s (encode i) rest → step s = exec i { s with cmdIn := rest }) ∧
  (∀ s, s.cfg.wf = true → s.rst = false → s.busy = false → s.cmdIn = [] → step s = .next s)

/-- R66, R71, R361: while the block is busy a step accepts no command. With `out_ready` low nothing moves; with it high
the oldest sample passes to the host, and the one marked `out_last` ends `busy`. (One sample a step, and the schedule that
holds `out_ready`, are the model's: assumption logs 2 and 3.) -/
def Obligations.OutputStep : Prop :=
  ∀ s, s.cfg.wf = true → s.rst = false → s.busy = true →
    (s.outReady.headD s.outReadyEnd = false → step s = .next { s with outReady := s.outReady.tail }) ∧
    (∀ x xs, s.outReady.headD s.outReadyEnd = true → s.outPort = x :: xs →
      step s = .next { s with
        busy := !x.last, outPort := xs, outStream := s.outStream ++ [x], outReady := s.outReady.tail })

/-- R66, R71, R294, R361: with the host not ready for `m` steps and ready from then on, a block in flight is delivered:
it is busy and accepts no command until `m` steps and one for each waiting sample have passed; then it is idle and the
host has every sample, in order, none dropped or repeated. With a host that never is ready the block stays busy for ever,
nothing moves and no command is accepted. (Assumption logs 2 and 3.) -/
def Obligations.BlockIsDelivered : Prop :=
  ∀ s m, s.cfg.wf = true → State.wf s = true → s.rst = false → s.busy = true →
    s.outReady = List.replicate m false →
    (s.outReadyEnd = true →
      Spec.run (m + s.outPort.length) s =
        .next { s with busy := false, outPort := [], outStream := s.outStream ++ s.outPort, outReady := [] } ∧
      ∀ k < m + s.outPort.length, ∃ t, Spec.run k s = .next t ∧ t.busy = true ∧ t.cmdIn = s.cmdIn) ∧
    (s.outReadyEnd = false →
      ∀ k, Spec.run k s = .next { s with outReady := s.outReady.drop k })

/-- R312, R350, R352: the RESET command and `rst_n` low put every element at its reset value and empty the ports,
whatever the block was doing; the configuration stands. (That the host's own inputs stand is the model's: assumption
logs 1, 3 and 5.) -/
def Obligations.ResetEffect : Prop :=
  (∀ s, exec .reset s =
    .next { State.resetWith s.cfg with
      cmdIn := s.cmdIn, outReady := s.outReady, outReadyEnd := s.outReadyEnd, rst := s.rst }) ∧
  ∀ s, s.cfg.wf = true → s.rst = true →
    step s = .next { State.resetWith s.cfg with
      cmdIn := s.cmdIn, outReady := s.outReady, outReadyEnd := s.outReadyEnd, rst := false }

/-- R48, R351: the reset value of every element, each decimal as its nearest binary32 datum, with every configuration;
with the default one `q` is 0.707 and there are 16 voices. (The values of `cmdIn`, of `outReady` and `outReadyEnd`, of
`rst` and of `cfg`, and that the decimals stand with another configuration, are the model's choices: assumption logs 1, 3,
5, 11 and 17.) -/
def Obligations.ResetValues : Prop :=
  State.reset = State.resetWith Config.default ∧
  hw.ofDec Config.default.qBase = 0x3F34FDF4#32 ∧ Config.default.nvoices = 16 ∧
  ∀ C : Config, State.resetWith C = {
    cfg         := C
    masterVol   := 0x3F800000#32
    volLive     := 0x3E99999A#32
    volTimeline := 0x3E99999A#32
    busy        := false
    live        := Spec.resetEngine C
    timeline    := Spec.resetEngine C
    outPort     := []
    outStream   := []
    rsp         := []
    cmdIn       := []
    outReady    := []
    outReadyEnd := true
    rst         := false }

/-- R9: a configuration has a meaning exactly when it meets the constraints, and one that does not is refused. The lower
bound on `FS` makes the flanger's shortest delay at least one sample. (That the constraints are on the exact decimal values
is the model's: assumption log 20.) -/
def Obligations.ConfigConstraints : Prop :=
  (∀ C : Config, C.wf = true ↔
    1000 ≤ C.fs ∧ C.fs ≤ 192000 ∧ 1 ≤ C.nvoices ∧ C.nengines = 2 ∧ 1 ≤ C.blockMax ∧ C.blockMax < 2 ^ 32 ∧
    (C.delayLen : ℤ) = ⌊Spec.decimal C.delayMaxS * C.fs⌋ ∧ 1 ≤ C.delayLen ∧
    ⌊(C.fs : ℚ) * (Spec.decimal C.flBaseS + Spec.decimal C.flSweepS)⌋ + 2 ≤ (C.flLen : ℤ) ∧
    1 ≤ C.combLen.k0 ∧ 1 ≤ C.combLen.k1 ∧ 1 ≤ C.combLen.k2 ∧ 1 ≤ C.combLen.k3 ∧ 1 ≤ C.apLen.j0 ∧ 1 ≤ C.apLen.j1 ∧
    0 < Spec.decimal C.qMin ∧ Spec.decimal C.qMin ≤ Spec.decimal C.qBase ∧ Spec.decimal C.qBase < 2 ∧
    0 ≤ Spec.decimal C.fbMax ∧ Spec.decimal C.fbMax < 1 ∧
    Spec.decimal C.revFbBase + Spec.decimal C.revFbScale < 1 ∧
    0 ≤ Spec.decimal C.revDampScale ∧ Spec.decimal C.revDampScale < 1) ∧
  (∀ s, s.cfg.wf = false → step s = .refused .badConfig) ∧
  ∀ C : Config, C.wf = true → C.flBaseS = Config.default.flBaseS → 1 ≤ ⌊(C.fs : ℚ) * Spec.decimal C.flBaseS⌋

/-- R320: no command can fail, and with a legal configuration every step answers a next state; so it is with any numerics
record in the place of the hardware instance, which R8 allows. (That a step with no command on the port and an output step
whose host is not ready answer a next state is the model's: assumption logs 1 and 3.) -/
def Obligations.NeverFails : Prop :=
  (∀ i s, ∃ t, exec i s = .next t) ∧ (∀ s, s.cfg.wf = true → ∃ t, step s = .next t) ∧
  ∀ (α : Type) [DecidableEq α] (N : Numerics α),
    (∀ i (s : State α), ∃ t, execAt N i s = .next t) ∧ ∀ s : State α, s.cfg.wf = true → ∃ t, stepAt N s = .next t

/-! ## Invariants -/

/-- The state after reset meets the structural invariant, and its registers are in their ranges; so it is with every
legal configuration with a flanger line, the ranges with the clamp bounds of the table of R8. -/
def Obligations.ResetMeetsInvariants : Prop :=
  State.wf State.reset = true ∧ State.inRanges State.reset = true ∧
  ∀ C : Config, C.wf = true → 1 ≤ C.flLen →
    State.wf (State.resetWith C) = true ∧ (hasDefaultBounds C = true → State.inRanges (State.resetWith C) = true)

/-- Every step keeps the structural invariant: `NVOICES` voices in each pool (R21, R190), ages of `AGE_W` bits (R32),
every index inside its memory (R62), every memory canonical, the block busy exactly while samples wait, the last of them
and no other marked. -/
def Obligations.StepKeepsWf : Prop :=
  ∀ s t, State.wf s = true → step s = .next t → State.wf t = true

/-- R45, R28, R29, R30, R108, R146: with the clamp bounds of the table of R8, every step keeps every register in its
range, the modulators' phases in [0, 1), every envelope's level in [0, 1] and 0 in Idle, and no frequency negative. -/
def Obligations.StepKeepsRanges : Prop :=
  ∀ s t, hasDefaultBounds s.cfg = true → State.inRanges s = true → step s = .next t → State.inRanges t = true

/-- R352: no step, and so no reset, changes the configuration. -/
def Obligations.ConfigIsConstant : Prop :=
  (∀ s t, step s = .next t → t.cfg = s.cfg) ∧ ∀ k s t, Spec.run k s = .next t → t.cfg = s.cfg

/-! ## System commands -/

/-- R310, R314: NOP changes nothing; GET_SAMPLE_RATE puts `FS`, an unsigned integer, on the response port and changes
nothing else, and it is the one command that puts anything there (RESET empties the port). -/
def Obligations.NopAndSampleRate : Prop :=
  (∀ s, exec .nop s = .next s) ∧
  (∀ s, exec .getSampleRate s = .next { s with rsp := s.rsp ++ [BitVec.ofNat 32 s.cfg.fs] }) ∧
  (∀ i s t, exec i s = .next t → t.rsp = s.rsp ∨ i = .getSampleRate ∨ (i = .reset ∧ t.rsp = [])) ∧
  (∀ C : Config, C.wf = true → (BitVec.ofNat 32 C.fs).toNat = C.fs) ∧
  (∀ w : CmdWord, Spec.OP w = 0x00 → decode w = .command .nop) ∧
  ∀ w : CmdWord, Spec.OP w = 0x02 → decode w = .command .getSampleRate

/-! ## Setters -/

/-- R298, R300: the volumes. -/
def Obligations.VolumeCommands : Prop :=
  (∀ w : CmdWord, Spec.OP w = 0x04 → decode w = .command (.setMasterVolume (Spec.F w))) ∧
  (∀ f s, exec (.setMasterVolume f) s =
    .next (if Spec.IsNaN f then s else { s with masterVol := Spec.clampUnit f })) ∧
  (∀ w : CmdWord, Spec.OP w = 0x05 → decode w = .command (.setEngineVolume (Spec.E w) (Spec.F w))) ∧
  (∀ f s, exec (.setEngineVolume .live f) s =
    .next (if Spec.IsNaN f then s else { s with volLive := Spec.clampTo s.cfg.engineVolMax f })) ∧
  (∀ f s, exec (.setEngineVolume .timeline f) s =
    .next (if Spec.IsNaN f then s else { s with volTimeline := Spec.clampTo s.cfg.engineVolMax f })) ∧
  hw.ofDec Config.default.engineVolMax = 0x3E99999A#32

/-- R110, R112, R130 to R133, R148: the parameters all voices of an engine read. -/
def Obligations.VoiceParameterCommands : Prop :=
  Spec.IntSetter 0x20 .setWaveform (fun a E => { E with prm := { E.prm with waveform := Spec.waveform a } }) ∧
  Spec.NumSetter 0x21 .setAttack (fun C x E => { E with prm := { E.prm with attack := Spec.clampTo C.envTMax x } }) ∧
  Spec.NumSetter 0x22 .setDecay (fun C x E => { E with prm := { E.prm with decay := Spec.clampTo C.envTMax x } }) ∧
  Spec.NumSetter 0x23 .setSustain (fun _ x E => { E with prm := { E.prm with sustain := Spec.clampUnit x } }) ∧
  Spec.NumSetter 0x24 .setRelease (fun C x E => { E with prm := { E.prm with release := Spec.clampTo C.envTMax x } }) ∧
  Spec.NumSetter 0x25 .setDetune (fun C x E => { E with prm := { E.prm with
    detune := Spec.clampDec ⟨-C.detuneMax.num, C.detuneMax.scale⟩ C.detuneMax x } }) ∧
  Spec.NumSetter 0x26 .setGlideTime (fun C x E => { E with prm := { E.prm with
    glideMs := Spec.clampTo C.glideMaxMs x } }) ∧
  hw.ofDec Config.default.envTMax = 0x41200000#32 ∧ hw.ofDec Config.default.detuneMax = 0x44960000#32 ∧
  hw.ofDec Config.default.glideMaxMs = 0x459C4000#32

/-- R178, R180, R182, R183: the filter's registers; the cutoff is written to `baseCutoff` and to the filter together. -/
def Obligations.FilterCommands : Prop :=
  Spec.NumSetter 0x30 .setFilterCutoff (fun C x E =>
    let c := Spec.clampDec C.cutoffMin C.cutoffMax x
    { E with baseCutoff := c, flt := { E.flt with cutoff := c } }) ∧
  Spec.NumSetter 0x31 .setFilterResonance (fun C x E => { E with flt := { E.flt with
    q := F32.sub (hw.ofDec C.qBase)
      (F32.mul (Spec.clampUnit x) (F32.sub (hw.ofDec C.qBase) (hw.ofDec C.qMin))) } }) ∧
  Spec.IntSetter 0x32 .setFilterMode (fun a E => { E with fltMode := Spec.mode a }) ∧
  Spec.IntSetter 0x33 .setFilterEnable (fun a E => { E with fltEnable := decide (a ≠ 0#16) }) ∧
  hw.ofDec Config.default.cutoffMin = 0x41A00000#32 ∧ hw.ofDec Config.default.cutoffMax = 0x469C4000#32

/-- R180: with the default bounds, a resonance at or below 0 stores exactly 0.707, one at or above 1 stores 0x3D4CCCD0,
and 0.5 stores 0x3EC1CAC1; the operand ±0 and both infinities are such resonances. -/
def Obligations.ResonanceCorners : Prop :=
  ∀ e f s, s.cfg.qBase = Config.default.qBase → s.cfg.qMin = Config.default.qMin →
    (F32.le f 0#32 = true → exec (.setFilterResonance e f) s =
      .next (s.updEngine e fun E => { E with flt := { E.flt with q := 0x3F34FDF4#32 } })) ∧
    (F32.le 0x3F800000#32 f = true → exec (.setFilterResonance e f) s =
      .next (s.updEngine e fun E => { E with flt := { E.flt with q := 0x3D4CCCD0#32 } })) ∧
    (f = 0x3F000000#32 → exec (.setFilterResonance e f) s =
      .next (s.updEngine e fun E => { E with flt := { E.flt with q := 0x3EC1CAC1#32 } }))

/-- R160 to R163: the LFO's registers; switching the route off restores the unmodulated cutoff. -/
def Obligations.LfoCommands : Prop :=
  Spec.NumSetter 0x38 .setLfoRate (fun C x E => { E with lfo := { E.lfo with rate := Spec.clampTo C.rateMax x } }) ∧
  Spec.NumSetter 0x39 .setLfoDepth (fun _ x E => { E with lfo := { E.lfo with depth := Spec.clampUnit x } }) ∧
  Spec.IntSetter 0x3A .setLfoWaveform (fun a E => { E with lfo := { E.lfo with waveform := Spec.waveform a } }) ∧
  Spec.IntSetter 0x3B .setLfoRoute (fun a E =>
    if a = 0#16 then { E with lfoRoute := false, flt := { E.flt with cutoff := E.baseCutoff } }
    else { E with lfoRoute := true }) ∧
  hw.ofDec Config.default.rateMax = 0x41A00000#32

/-- R244 to R247, R254 to R256: the delay's registers and the reverb's. -/
def Obligations.DelayAndReverbCommands : Prop :=
  Spec.IntSetter 0x40 .setDelayEnable (fun a E => { E with dlyEnable := decide (a ≠ 0#16) }) ∧
  Spec.NumSetter 0x41 .setDelayTime (fun C x E => { E with dly := { E.dly with time := Spec.clampTo C.delayMaxS x } }) ∧
  Spec.NumSetter 0x42 .setDelayFeedback (fun C x E => { E with dly := { E.dly with
    feedback := Spec.clampTo C.fbMax x } }) ∧
  Spec.NumSetter 0x43 .setDelayMix (fun _ x E => { E with dly := { E.dly with mix := Spec.clampUnit x } }) ∧
  hw.ofDec Config.default.delayMaxS = 0x40000000#32 ∧ hw.ofDec Config.default.fbMax = 0x3F733333#32 ∧
  Spec.IntSetter 0x48 .setReverbEnable (fun a E => { E with revEnable := decide (a ≠ 0#16) }) ∧
  Spec.NumSetter 0x49 .setReverbRoom (fun _ x E => { E with rev := { E.rev with room := Spec.clampUnit x } }) ∧
  Spec.NumSetter 0x4A .setReverbDamp (fun _ x E => { E with rev := { E.rev with damp := Spec.clampUnit x } })

/-- R264 to R266, R274 to R278: the tremolo's registers and the flanger's. -/
def Obligations.TremoloAndFlangerCommands : Prop :=
  Spec.IntSetter 0x50 .setTremoloEnable (fun a E => { E with trmEnable := decide (a ≠ 0#16) }) ∧
  Spec.NumSetter 0x51 .setTremoloRate (fun C x E => { E with trm := { E.trm with rate := Spec.clampTo C.rateMax x } }) ∧
  Spec.NumSetter 0x52 .setTremoloDepth (fun _ x E => { E with trm := { E.trm with depth := Spec.clampUnit x } }) ∧
  Spec.IntSetter 0x58 .setFlangerEnable (fun a E => { E with flgEnable := decide (a ≠ 0#16) }) ∧
  Spec.NumSetter 0x59 .setFlangerRate (fun C x E => { E with flg := { E.flg with rate := Spec.clampTo C.rateMax x } }) ∧
  Spec.NumSetter 0x5A .setFlangerDepth (fun _ x E => { E with flg := { E.flg with depth := Spec.clampUnit x } }) ∧
  Spec.NumSetter 0x5B .setFlangerFeedback (fun C x E => { E with flg := { E.flg with
    feedback := Spec.clampTo C.fbMax x } }) ∧
  Spec.NumSetter 0x5C .setFlangerMix (fun _ x E => { E with flg := { E.flg with mix := Spec.clampUnit x } })

/-- R82, R326: of every command that reads `F` as a `Num`, a NaN there is tested first and discards the command whole;
a reserved word with a NaN is a NOP; the test is on the bits R82 names. -/
def Obligations.NanOperandDiscards : Prop :=
  (∀ i f, Spec.numOperand i = some f → Spec.IsNaN f → ∀ s, exec i s = .next s) ∧
  (∀ w : CmdWord, Spec.Reserved w → (decode w).executedAs = .nop) ∧
  ∀ f : BitVec 32, F32.isNaN f = true ↔ Spec.IsNaN f

/-- R20, R226, R332: a command with an `E` field touches engine `e` only: it leaves the other engine and its volume,
the master volume and the ports, and nothing it does depends on the other engine or its volume. -/
def Obligations.EngineSeparation : Prop :=
  ∀ i e e' s, Spec.engineOf i = some e → e' ≠ e →
    ∃ t, exec i s = .next t ∧ t.engine e' = s.engine e' ∧ t.vol e' = s.vol e' ∧ t.masterVol = s.masterVol ∧
      t.busy = s.busy ∧ t.outPort = s.outPort ∧ t.outStream = s.outStream ∧ t.rsp = s.rsp ∧
      ∀ (X : EngineState Word) (v : Word),
        exec i ((s.updEngine e' fun _ => X).setVol e' v) = .next ((t.updEngine e' fun _ => X).setVol e' v)

/-! ## Notes -/

/-- R212: the voice allocated: the first one not sounding; else of the releasing ones one of the greatest age; else one of
the greatest age; the lowest index on a tie. -/
def Obligations.AllocationPolicy : Prop :=
  ∀ vs : List (VoiceState Word), vs ≠ [] →
    ∃ x, vs[allocate vs]? = some x ∧
      ((∃ y ∈ vs, ¬Spec.Sounding y) →
        ¬Spec.Sounding x ∧ ∀ u y, u < allocate vs → vs[u]? = some y → Spec.Sounding y) ∧
      ((∀ y ∈ vs, Spec.Sounding y) → (∃ y ∈ vs, Spec.Releasing y) →
        Spec.Releasing x ∧ ∀ u y, vs[u]? = some y → Spec.Releasing y →
          y.age < x.age ∨ (y.age = x.age ∧ allocate vs ≤ u)) ∧
      ((∀ y ∈ vs, Spec.Sounding y) → (∀ y ∈ vs, ¬Spec.Releasing y) →
        ∀ u y, vs[u]? = some y → y.age < x.age ∨ (y.age = x.age ∧ allocate vs ≤ u))

/-- R192, R213, R214: NOTE_ON rewrites the one voice `allocate` chooses, as `Voice.noteOn` says, at the note's frequency
and the clamped velocity, and nothing else; a NaN velocity discards it. -/
def Obligations.NoteOnEffect : Prop :=
  (∀ w : CmdWord, Spec.OP w = 0x10 → decode w = .command (.noteOn (Spec.E w) (Spec.A w) (Spec.F w))) ∧
  (∀ e a f s, Spec.IsNaN f → exec (.noteOn e a f) s = .next s) ∧
  ∀ e a f s u, ¬Spec.IsNaN f → (s.engine e).voices[allocate (s.engine e).voices]? = some u →
    exec (.noteOn e a f) s = .next (s.updEngine e fun E => { E with
      voices := E.voices.set (allocate E.voices)
        (Spec.voiceAfterNoteOn s.cfg E.prm u (Spec.noteFreq s.cfg (Spec.note a)) (Spec.clampUnit f)) })

/-- R216, R218: NOTE_OFF releases every voice, sounding or not, whose current frequency lies within the tolerance of the
note's, and changes nothing else. -/
def Obligations.NoteOffEffect : Prop :=
  (∀ w : CmdWord, Spec.OP w = 0x11 → decode w = .command (.noteOff (Spec.E w) (Spec.A w))) ∧
  ∀ e a s, exec (.noteOff e a) s = .next (s.updEngine e fun E => { E with
    voices := E.voices.map fun v =>
      if F32.lt (F32.abs (F32.sub v.gl.current (Spec.noteFreq s.cfg (Spec.note a)))) (hw.ofDec s.cfg.noteoffTol) = true
      then Spec.released v else v })

/-- R219, R220: STOP_ALL_NOTES releases every sounding voice of the timeline engine and wakes no silent one; without the
timeline's engine bit it does nothing. -/
def Obligations.StopAllNotesEffect : Prop :=
  (∀ s, exec (.stopAllNotes .timeline) s = .next { s with
    timeline := { s.timeline with
      voices := s.timeline.voices.map fun v => if Spec.Sounding v then Spec.released v else v } }) ∧
  (∀ s, exec (.stopAllNotes .live) s = .next s) ∧
  (∀ w : CmdWord, Spec.OP w = 0x12 → Spec.E w = .timeline → decode w = .command (.stopAllNotes .timeline)) ∧
  ∀ w : CmdWord, Spec.OP w = 0x12 → Spec.E w = .live → (decode w).executedAs = .nop

/-- R215: with every voice sounding, NOTE_ON steals: with none releasing a voice of the greatest age, else a releasing
voice of the greatest age among those, whatever the ages of the others. The stolen voice gets the new target, the new
frequency at once when the glide time is zero, stage Attack from the level it had, the new velocity and age 0; every other
voice stands. -/
def Obligations.StealingOutcome : Prop :=
  ∀ e a f s, ¬Spec.IsNaN f → (s.engine e).voices ≠ [] → (∀ v ∈ (s.engine e).voices, Spec.Sounding v) →
    ∃ (t : State) (k : Nat) (x y : VoiceState Word), exec (.noteOn e a f) s = .next t ∧
      (s.engine e).voices[k]? = some x ∧ (t.engine e).voices[k]? = some y ∧
      ((∀ v ∈ (s.engine e).voices, ¬Spec.Releasing v) → ∀ v ∈ (s.engine e).voices, v.age ≤ x.age) ∧
      ((∃ v ∈ (s.engine e).voices, Spec.Releasing v) →
        Spec.Releasing x ∧ ∀ v ∈ (s.engine e).voices, Spec.Releasing v → v.age ≤ x.age) ∧
      y.gl.target = Spec.noteFreq s.cfg (Spec.note a) ∧
      (F32.eq (s.engine e).prm.glideMs 0#32 = true → y.gl.current = Spec.noteFreq s.cfg (Spec.note a)) ∧
      (F32.eq (s.engine e).prm.glideMs 0#32 = false → y.gl.current = x.gl.current) ∧
      y.env.stage = .attack ∧ y.env.level = x.env.level ∧ y.velocity = Spec.clampUnit f ∧ y.age = 0 ∧
      y.osc = x.osc ∧ y.active = true ∧
      ∀ j, j ≠ k → (t.engine e).voices[j]? = (s.engine e).voices[j]?

/-- R211: notes 69, 81 and 57 are 440, 880 and 220 Hz, in both instances exactly; in the reference instance every note
has the frequency of the formula. -/
def Obligations.NoteFrequencies : Prop :=
  midiToFreq hw Config.default 69 = 0x43DC0000#32 ∧ midiToFreq hw Config.default 81 = 0x445C0000#32 ∧
  midiToFreq hw Config.default 57 = 0x435C0000#32 ∧
  (∀ n : Int, midiToFreq reference Config.default n = 440 * (2 : ℝ) ^ (((n : ℝ) - 69) / 12)) ∧
  midiToFreq reference Config.default 69 = 440 ∧ midiToFreq reference Config.default 81 = 880 ∧
  midiToFreq reference Config.default 57 = 220

/-! ## PROCESS -/

/-- R292, R294, R296: PROCESS runs both engines over `min(F, BLOCK_MAX)` samples and emits that many words, each the
mixing formula's, timeline term first, the last one marked; volumes, responses and inputs stand. (That the words wait on
the port after one step, and that the block is busy while there are any, are the model's: assumption log 2.) -/
def Obligations.ProcessBlock : Prop :=
  (∀ w : CmdWord, Spec.OP w = 0x03 → decode w = .command (.process (Spec.F w))) ∧
  ∀ n s,
    let len := min n.toNat s.cfg.blockMax
    let tl := s.timeline.process hw s.cfg len
    let lv := s.live.process hw s.cfg len
    exec (.process n) s = .next { s with
      timeline := tl
      live := lv
      busy := decide (0 < len)
      outPort := s.outPort ++ (List.range len).map fun i =>
        ⟨F32.toBits32 (F32.add
            (F32.mul (F32.mul (Mem.read 0#32 tl.scr i) s.volTimeline) s.masterVol)
            (F32.mul (F32.mul (Mem.read 0#32 lv.scr i) s.volLive) s.masterVol)),
          decide (i + 1 = len)⟩ }

/-- R46, R67, R72: PROCESS writes no register a command writes but `flt.cutoff` of a routed LFO, leaves every scratch word
from the block's length up, and leaves the volumes, the responses and the words presented. (That it leaves what the host
has taken is the model's: the samples are taken in the steps after it, assumption log 2.) -/
def Obligations.ProcessFrame : Prop :=
  ∀ n s, State.wf s = true → ∃ t, exec (.process n) s = .next t ∧
    t.cfg = s.cfg ∧ t.masterVol = s.masterVol ∧ t.volLive = s.volLive ∧ t.volTimeline = s.volTimeline ∧
    t.rsp = s.rsp ∧ t.outStream = s.outStream ∧ t.cmdIn = s.cmdIn ∧
    ∀ e, (t.engine e).registers = (s.engine e).registers ∧
      ((s.engine e).lfoRoute = false → (t.engine e).flt.cutoff = (s.engine e).flt.cutoff) ∧
      ∀ i, min n.toNat s.cfg.blockMax ≤ i →
        Mem.read 0#32 (t.engine e).scr i = Mem.read 0#32 (s.engine e).scr i

/-- R31, R32, R194: one sample of a voice: the glide first, the oscillator retuned with the larger of the frequency and
0, the oscillator, the envelope, the term `o * g * velocity`. A block of a sounding voice is its samples one after the
other, each term added to its word of the buffer. Over PROCESS a voice that does not sound is left as it is, even by a
block of no samples; the age of one that sounds goes up by one, saturating; velocity, glide target and glide step stand;
`active` is cleared only, and just when the envelope is found Idle. -/
def Obligations.VoiceOverBlock : Prop :=
  (∀ (C : Config) (P : VoiceParams Word) (v : VoiceState Word),
    let g := v.gl.advance hw P
    let f := if F32.le 0#32 g.current then g.current else 0#32
    let phase := hw.wrap01 (F32.add v.osc.phase
      (F32.div (F32.mul f (F32.exp2 (F32.div P.detune (F32.ofInt 1200)))) (F32.ofInt C.fs)))
    let n := v.env.advance hw C P
    v.tick hw C P =
      ({ v with gl := g, osc := ⟨phase, f⟩, env := n, active := v.active && decide (n.stage ≠ .idle) },
       F32.mul (F32.mul (wave hw P.waveform phase) n.level) v.velocity)) ∧
  (∀ (C : Config) (P : VoiceParams Word) (n : Nat) (v : VoiceState Word) (buf : Mem Word),
    (¬Spec.Sounding v → v.process hw C P n buf = (v, buf)) ∧
    (Spec.Sounding v →
      v.process hw C P 0 buf = ({ v with age := min (v.age + 1) (2 ^ C.ageW - 1) }, buf) ∧
      v.process hw C P (n + 1) buf =
        let r := v.process hw C P n buf
        let k := r.1.tick hw C P
        (k.1, Mem.write 0#32 r.2 n (F32.add (Mem.read 0#32 r.2 n) k.2)))) ∧
  ∀ n s e (k : Nat) v, (s.engine e).voices[k]? = some v →
    ∃ (t : State) (v' : VoiceState Word), exec (.process n) s = .next t ∧ (t.engine e).voices[k]? = some v' ∧
      (¬Spec.Sounding v → v' = v) ∧
      (Spec.Sounding v →
        v'.age = min (v.age + 1) (2 ^ s.cfg.ageW - 1) ∧ v'.velocity = v.velocity ∧ v'.gl.target = v.gl.target ∧
        v'.gl.step = v.gl.step ∧ (v'.active = true → v.active = true) ∧
        (v.active = true → v'.active = false → v'.env.stage = .idle) ∧
        (0 < min n.toNat s.cfg.blockMax → v'.env.stage = .idle → v'.active = false))

/-- R158, R224: over a block a stage whose flag is false stays frozen: its phase, indices, memories and state variables
are as they were. -/
def Obligations.FrozenStages : Prop :=
  ∀ n s e, ∃ t, exec (.process n) s = .next t ∧
    ((s.engine e).lfoRoute = false → (t.engine e).lfo = (s.engine e).lfo) ∧
    ((s.engine e).fltEnable = false → (t.engine e).flt = { (s.engine e).flt with cutoff := (t.engine e).flt.cutoff }) ∧
    ((s.engine e).flgEnable = false → (t.engine e).flg = (s.engine e).flg) ∧
    ((s.engine e).trmEnable = false → (t.engine e).trm = (s.engine e).trm) ∧
    ((s.engine e).dlyEnable = false → (t.engine e).dly = (s.engine e).dly) ∧
    ((s.engine e).revEnable = false → (t.engine e).rev = (s.engine e).rev)

/-- R222, R223: the chain is LFO, filter, flanger, tremolo, delay, reverb, each under its own flag and fed what the one
before it returned; with all six flags false it is the identity. The modulation stage advances the LFO and rewrites the
cutoff from `baseCutoff` by the factor `1 + m`, clamped, and writes nothing else. -/
def Obligations.ChainAndModulation : Prop :=
  (∀ (C : Config) (E : EngineState Word) (x : Word), E.chain hw C x = Spec.chain C E x) ∧
  (∀ (C : Config) (E : EngineState Word) (x : Word), Spec.AllOff E → E.chain hw C x = (E, x)) ∧
  ∀ (C : Config) (E : EngineState Word),
    let phase := Spec.phaseOn C E.lfo.phase E.lfo.rate
    let m := F32.mul (wave hw E.lfo.waveform phase) E.lfo.depth
    E.lfoStage hw C = { E with
      lfo := { E.lfo with phase := phase }
      flt := { E.flt with
        cutoff := Spec.clampDec C.cutoffMin C.cutoffMax (F32.mul E.baseCutoff (F32.add 0x3F800000#32 m)) } }

/-- R225: with no sounding voice and all effects disabled, PROCESS emits zeros, every scratch word of the block is zero,
and nothing of either engine but its scratch buffer changes. -/
def Obligations.SilentBlock : Prop :=
  ∀ n s, State.wf s = true → (∀ e, ∀ v ∈ (s.engine e).voices, ¬Spec.Sounding v) → (∀ e, Spec.AllOff (s.engine e)) →
    Spec.Finite s.masterVol → Spec.Finite s.volLive → Spec.Finite s.volTimeline →
    ∃ t, exec (.process n) s = .next t ∧
      (∀ x ∈ t.outPort.drop s.outPort.length, Spec.IsZero x.word) ∧
      ∀ e, t.engine e = { s.engine e with scr := (t.engine e).scr } ∧
        ∀ i < min n.toNat s.cfg.blockMax, Mem.read 0#32 (t.engine e).scr i = 0#32

/-- R225, the wider property: whatever stages are enabled and wherever the registers stand in their ranges, while no
voice sounds and the effects hold nothing but zeros, every step whose command is neither NOTE_ON nor NOTE_OFF leaves it so,
and PROCESS emits only zeros; and it is so after reset. (A zero may carry either sign.) -/
def Obligations.QuietStaysQuiet : Prop :=
  Spec.Silent State.reset ∧
  (∀ s t, Spec.Silent s → step s = .next t →
    (∀ w rest e a, s.cmdIn = w :: rest →
      decode w ≠ .command (.noteOff e a) ∧ ∀ f, decode w ≠ .command (.noteOn e a f)) →
    Spec.Silent t) ∧
  ∀ n s, Spec.Silent s →
    ∃ t, exec (.process n) s = .next t ∧ (∀ e, Spec.Quiet (t.engine e)) ∧
      ∀ x ∈ t.outPort.drop s.outPort.length, Spec.IsZero x.word

/-- R73: the streaming order gives what the buffered order gives: the same words, sample by sample, and the same engine
but for the scratch buffer it does without; and PROCESS emits the mix of the words the two engines stream. (That its words
wait on the port after one step is the model's: assumption log 2.) -/
def Obligations.StreamingEquivalence : Prop :=
  (∀ (C : Config) (E : EngineState Word) (n : Nat), n ≤ C.blockMax → Mem.wf 0#32 C.blockMax E.scr = true →
    let r := Spec.stream C n (E.voices.map (Spec.startVoice C)) E
    E.process hw C n = { r.2.1 with voices := r.1.map Prod.snd, scr := (E.process hw C n).scr } ∧
    ∀ i < n, r.2.2[i]? = some (Mem.read 0#32 (E.process hw C n).scr i)) ∧
  ∀ n s, State.wf s = true → ∃ t, exec (.process n) s = .next t ∧
    let len := min n.toNat s.cfg.blockMax
    let words (E : EngineState Word) := (Spec.stream s.cfg len (E.voices.map (Spec.startVoice s.cfg)) E).2.2
    t.outPort.length = s.outPort.length + len ∧
    ∀ i x y, (words s.timeline)[i]? = some x → (words s.live)[i]? = some y →
      t.outPort[s.outPort.length + i]? = some
        ⟨F32.toBits32 (F32.add (F32.mul (F32.mul x s.volTimeline) s.masterVol)
          (F32.mul (F32.mul y s.volLive) s.masterVol)), decide (i + 1 = len)⟩

/-- R297, for voices that sound through the first block: an engine's block of `a + b` samples gives the words of a block of
`a` and a block of `b` after it, bit for bit, and the same engine but for ages and scratch words. -/
def Obligations.BlockSplit : Prop :=
  ∀ (C : Config) (E : EngineState Word) (a b : Nat), a + b ≤ C.blockMax → Mem.wf 0#32 C.blockMax E.scr = true →
    (∀ (k : Nat) (v v' : VoiceState Word), E.voices[k]? = some v → (E.process hw C a).voices[k]? = some v' →
      Spec.Sounding v → Spec.Sounding v') →
    (∀ i < a, Mem.read 0#32 (E.process hw C (a + b)).scr i = Mem.read 0#32 (E.process hw C a).scr i) ∧
    (∀ i < b, Mem.read 0#32 (E.process hw C (a + b)).scr (a + i) =
      Mem.read 0#32 ((E.process hw C a).process hw C b).scr i) ∧
    Spec.withoutAges (E.process hw C (a + b)) = Spec.withoutAges ((E.process hw C a).process hw C b)

/-! ## Units -/

/-- R101, R102, R103: the oscillator advances by `feff / FS`, wraps, and emits the waveform at the new phase; the corner
values of the waveforms; detune 0, 1200 and -1200 give `feff` exactly, twice and half the frequency. -/
def Obligations.OscillatorStep : Prop :=
  (∀ (C : Config) (P : VoiceParams Word) (o : OscState Word),
    let phase := hw.wrap01 (F32.add o.phase
      (F32.div (F32.mul o.freq (F32.exp2 (F32.div P.detune (F32.ofInt 1200)))) (F32.ofInt C.fs)))
    o.process hw C P = ({ o with phase := phase }, match P.waveform with
      | .sine => F32.sin2pi phase
      | .saw => F32.sub (F32.mul 0x40000000#32 phase) 0x3F800000#32
      | .square => if F32.lt phase 0x3F000000#32 then 0x3F800000#32 else 0xBF800000#32
      | .triangle => if F32.lt phase 0x3F000000#32
        then F32.sub (F32.mul 0x40800000#32 phase) 0x3F800000#32
        else F32.sub 0x40400000#32 (F32.mul 0x40800000#32 phase))) ∧
  (∀ (P : VoiceParams Word) (o : OscState Word), Spec.Finite o.freq →
    (P.detune = 0#32 → o.feff hw P = o.freq) ∧
    (P.detune = 0x44960000#32 → o.feff hw P = F32.mul o.freq 0x40000000#32) ∧
    (P.detune = 0xC4960000#32 → o.feff hw P = F32.mul o.freq 0x3F000000#32)) ∧
  (∀ c p, wave hw c p = match c with
    | .sine => F32.sin2pi p
    | .saw => F32.sub (F32.mul 0x40000000#32 p) 0x3F800000#32
    | .square => if F32.lt p 0x3F000000#32 then 0x3F800000#32 else 0xBF800000#32
    | .triangle => if F32.lt p 0x3F000000#32
      then F32.sub (F32.mul 0x40800000#32 p) 0x3F800000#32
      else F32.sub 0x40400000#32 (F32.mul 0x40800000#32 p)) ∧
  wave hw .saw 0#32 = 0xBF800000#32 ∧ wave hw .square 0#32 = 0x3F800000#32 ∧
  wave hw .square 0x3F000000#32 = 0xBF800000#32 ∧ wave hw .triangle 0#32 = 0xBF800000#32 ∧
  wave hw .triangle 0x3E800000#32 = 0#32 ∧ wave hw .triangle 0x3F000000#32 = 0x3F800000#32 ∧
  wave hw .triangle 0x3F400000#32 = 0#32 ∧ wave hw .sine 0x3E800000#32 = 0x3F800000#32

/-- R15, R103, R108: `wrap01(p)` is `p - floor(p)`, which maps every finite non-negative datum into [0, 1), and at every
phase there each waveform lies in [-1, 1]. -/
def Obligations.WaveformBounds : Prop :=
  (∀ p, hw.wrap01 p = F32.sub p (F32.floor p)) ∧
  (∀ p : ℝ, reference.wrap01 p = Int.fract p) ∧
  (∀ p, Spec.Finite p → F32.le 0#32 p = true → inUnit (hw.wrap01 p) = true) ∧
  ∀ c p, inUnit p = true → inRange 0xBF800000#32 0x3F800000#32 (wave hw c p) = true

/-- R121 to R126: the transition table: `gateOn` goes to Attack and `gateOff` to Release from any stage, the level kept;
what `process` does in each stage; it returns the level it leaves. -/
def Obligations.EnvelopeTransitions : Prop :=
  ∀ (C : Config) (P : VoiceParams Word) (v : EnvState Word),
    let step (T : Word) := F32.div 0x3F800000#32 (hw.max 0x3F800000#32 (F32.mul T (F32.ofInt C.fs)))
    let a := F32.add v.level (step P.attack)
    let d := F32.sub v.level (step P.decay)
    let r := F32.sub v.level (step P.release)
    v.gateOn = ⟨.attack, v.level⟩ ∧ v.gateOff = ⟨.release, v.level⟩ ∧
    (v.process hw C P).2 = (v.process hw C P).1.level ∧
    (v.stage = .idle → (v.process hw C P).1 = ⟨.idle, 0#32⟩) ∧
    (v.stage = .attack → F32.le 0x3F800000#32 a = true → (v.process hw C P).1 = ⟨.decay, 0x3F800000#32⟩) ∧
    (v.stage = .attack → F32.le 0x3F800000#32 a = false → (v.process hw C P).1 = ⟨.attack, a⟩) ∧
    (v.stage = .decay → F32.le v.level P.sustain = true → (v.process hw C P).1 = ⟨.sustain, v.level⟩) ∧
    (v.stage = .decay → F32.le v.level P.sustain = false → F32.le d P.sustain = true →
      (v.process hw C P).1 = ⟨.sustain, P.sustain⟩) ∧
    (v.stage = .decay → F32.le v.level P.sustain = false → F32.le d P.sustain = false →
      (v.process hw C P).1 = ⟨.decay, d⟩) ∧
    (v.stage = .sustain → (v.process hw C P).1 = v) ∧
    (v.stage = .release → F32.le r 0#32 = true → (v.process hw C P).1 = ⟨.idle, 0#32⟩) ∧
    (v.stage = .release → F32.le r 0#32 = false → (v.process hw C P).1 = ⟨.release, r⟩)

/-- R127, in the reference instance: the level stays in [0, 1] and is 0 in Idle; within a stage it is monotone; one call
moves it by at most the step of the stage it advances, a gate event not at all. -/
def Obligations.EnvelopeContinuous : Prop :=
  ∀ (C : Config) (P : VoiceParams ℝ) (v : EnvState ℝ), 0 ≤ P.sustain → P.sustain ≤ 1 →
    0 ≤ v.level → v.level ≤ 1 → (v.stage = .idle → v.level = 0) →
    let v' := v.advance reference C P
    let step (T : ℝ) : ℝ := 1 / max 1 (T * C.fs)
    0 ≤ v'.level ∧ v'.level ≤ 1 ∧ (v'.stage = .idle → v'.level = 0) ∧
    (v.stage = .idle → v'.level = v.level) ∧
    (v.stage = .attack → v.level ≤ v'.level ∧ v'.level - v.level ≤ step P.attack) ∧
    (v.stage = .decay → v'.level ≤ v.level ∧ v.level - v'.level ≤ step P.decay) ∧
    (v.stage = .sustain → v'.level = v.level) ∧
    (v.stage = .release → v'.level ≤ v.level ∧ v.level - v'.level ≤ step P.release) ∧
    v.gateOn.level = v.level ∧ v.gateOff.level = v.level

/-- R29, R127, in the hardware instance: with the envelope's registers in their ranges the level stays in [0, 1], and
within a stage it is monotone. -/
def Obligations.EnvelopeInUnit : Prop :=
  ∀ (C : Config) (P : VoiceParams Word) (v : EnvState Word), 1000 ≤ C.fs → C.fs ≤ 192000 →
    inRange 0#32 0x41200000#32 P.attack = true → inRange 0#32 0x41200000#32 P.decay = true →
    inRange 0#32 0x41200000#32 P.release = true → inRange 0#32 0x3F800000#32 P.sustain = true →
    inRange 0#32 0x3F800000#32 v.level = true → (v.stage = .idle → F32.eq v.level 0#32 = true) →
    let v' := v.advance hw C P
    inRange 0#32 0x3F800000#32 v'.level = true ∧ (v'.stage = .idle → F32.eq v'.level 0#32 = true) ∧
    (v.stage = .attack → F32.le v.level v'.level = true) ∧
    (v.stage = .decay → F32.le v'.level v.level = true) ∧
    (v.stage = .release → F32.le v'.level v.level = true)

/-- R145, in the reference instance: after `setTarget(f)` at the frequency `c` with a glide time, the successive values
are monotone, never pass `f`, and are `f` from call number `ceil(gN)` on. -/
def Obligations.GlideArrives : Prop :=
  ∀ (C : Config) (P : VoiceParams ℝ) (g : GlideState ℝ) (f : ℝ), 0 < P.glideMs → 0 ≤ g.current → 0 ≤ f →
    let gN : ℝ := max 1 (P.glideMs * C.fs / 1000)
    let seq (k : ℕ) : ℝ := ((fun h => h.advance reference P)^[k] (g.setTarget reference C P f)).current
    seq 0 = g.current ∧
    (g.current ≤ f → ∀ k, seq k ≤ seq (k + 1) ∧ seq k ≤ f) ∧
    (f ≤ g.current → ∀ k, seq (k + 1) ≤ seq k ∧ f ≤ seq k) ∧
    ∀ k, ⌈gN⌉₊ ≤ k → seq k = f

/-- R143, R145, R146, in the hardware instance: the call itself, with its snaps and its shortened last step; it never
passes the target and never moves away from it, and one that does not arrive moves. -/
def Obligations.GlideNeverOvershoots : Prop :=
  (∀ (P : VoiceParams Word) (g : GlideState Word),
    let up := F32.add g.current g.step
    let up := if F32.eq up g.current then g.target else up
    let down := F32.sub g.current g.step
    let down := if F32.eq down g.current then g.target else down
    g.advance hw P = { g with
      current :=
        if F32.eq P.glideMs 0#32 = true ∨ F32.eq g.step 0#32 = true then g.target
        else if F32.lt g.current g.target then (if F32.le up g.target then up else g.target)
        else if F32.lt g.target g.current then (if F32.le g.target down then down else g.target)
        else g.current }) ∧
  ∀ (P : VoiceParams Word) (g : GlideState Word), Spec.Finite g.current → Spec.Finite g.target → Spec.Finite g.step →
    F32.le 0#32 g.current = true → F32.le 0#32 g.target = true → F32.le 0#32 g.step = true →
    let c := (g.advance hw P).current
    (F32.le g.current g.target = true → F32.le g.current c = true ∧ F32.le c g.target = true) ∧
    (F32.le g.target g.current = true → F32.le g.target c = true ∧ F32.le c g.current = true) ∧
    (F32.eq c g.target = true ∨ F32.eq c g.current = false) ∧ F32.le 0#32 c = true ∧
    (g.advance hw P).target = g.target ∧ (g.advance hw P).step = g.step

/-- R171, R172, R173: one step of the filter, each line seeing the writes before it, and the variable each mode returns;
the cutoff and `q` stand. -/
def Obligations.FilterRecursion : Prop :=
  ∀ (C : Config) (t : FilterState Word) (x : Word) (m : FilterMode),
    let f := hw.clamp (F32.div (F32.mul 0x40000000#32 t.cutoff) (F32.ofInt C.fs)) 0#32 0x3F000000#32
    let low := F32.add t.low (F32.mul f t.band)
    let high := F32.sub (F32.sub x low) (F32.mul t.q t.band)
    let band := F32.add t.band (F32.mul f high)
    t.process hw C m x =
      (⟨low, band, high, F32.add high low, t.cutoff, t.q⟩, match m with
        | .lowPass => low
        | .highPass => high
        | .bandPass => band)

/-- R184: the worked impulse response, exact in both instances. -/
def Obligations.FilterImpulse : Prop :=
  Spec.filterRun hw { Config.default with fs := 32768 }
      ⟨0#32, 0#32, 0#32, 0#32, 0x45800000#32, 0x3F000000#32⟩ [0x3F800000#32, 0#32, 0#32, 0#32] =
    [(0x00000000#32, 0x3F800000#32, 0x3E800000#32, 0x3F800000#32),
     (0x3D800000#32, 0xBE400000#32, 0x3E500000#32, 0xBE000000#32),
     (0x3DE80000#32, 0xBE5C0000#32, 0x3E190000#32, 0xBDD00000#32),
     (0x3E1A4000#32, 0xBE66C000#32, 0x3DBEA000#32, 0xBD990000#32)] ∧
  Spec.filterRun reference { Config.default with fs := 32768 } ⟨0, 0, 0, 0, 4096, 1 / 2⟩ [1, 0, 0, 0] =
    [(0, 1, 0.25, 1), (0.0625, -0.1875, 0.203125, -0.125),
     (0.11328125, -0.21484375, 0.1494140625, -0.1015625),
     (0.150634765625, -0.225341796875, 0.09307861328125, -0.07470703125)]

/-- R15, R241, R242: the delay's length is `floor(time * FS)` clamped between one sample and its line's length. One step
reads that far back from the write index, writes the input plus the fed-back word there, advances the index and mixes;
over any run from an empty line the word heard at a step is the one written that many steps earlier, 0 before that. A read
after a write gives the word written, and every other word stands. -/
def Obligations.DelayLine : Prop :=
  (∀ (len : Nat) (m : Mem Word) (i j : Nat) (v : Word), Mem.wf 0#32 len m = true →
    Mem.read 0#32 (Mem.write 0#32 m i v) j = if j = i then v else Mem.read 0#32 m j) ∧
  (∀ (C : Config) (d : DelayState Word), 1 ≤ C.delayLen →
    d.samples hw C = max 1 (min C.delayLen (F32.toNat (F32.floor (F32.mul d.time (F32.ofInt C.fs)))))) ∧
  (∀ (C : Config) (d : DelayState Word) (x : Word),
    let y := Mem.read 0#32 d.mem (((d.w : ℤ) - d.samples hw C) % C.delayLen).toNat
    d.process hw C x =
      (⟨d.time, d.feedback, d.mix, (d.w + 1) % C.delayLen,
        Mem.write 0#32 d.mem d.w (F32.add x (F32.mul y d.feedback))⟩, Spec.wetMix x y d.mix)) ∧
  ∀ (C : Config) (d : DelayState Word) (xs : List Word), 1 ≤ C.delayLen → d.mem = [] → d.w < C.delayLen →
    1 ≤ d.samples hw C ∧ d.samples hw C ≤ C.delayLen ∧
    ∀ i x, xs[i]? = some x →
      let y := if i < d.samples hw C then 0#32
        else (((Spec.delayRun C d xs)[i - d.samples hw C]?).map Prod.fst).getD 0#32
      (Spec.delayRun C d xs)[i]? = some
        (F32.add x (F32.mul y d.feedback),
         F32.add (F32.mul x (F32.sub 0x3F800000#32 d.mix)) (F32.mul y d.mix))

/-- R252: a comb writes the input plus the damped feedback of the word that leaves it, an all-pass the input plus its
share of the word that leaves it; each is a delay of its length: over any run from an empty line the word that leaves it at
a step is the one written `len` steps earlier, 0 before that. The reverb feeds the combs one input and adds their words in
ascending order, sends the sum through the all-passes in order, and mixes. -/
def Obligations.CombLine : Prop :=
  (∀ (len : Nat) (fb d1 d2 x acc : Word) (c : CombState Word),
    let y := Mem.read 0#32 c.mem c.ci
    let lp := F32.add (F32.mul y d2) (F32.mul c.lp d1)
    c.process hw len fb d1 d2 x acc =
      (⟨(c.ci + 1) % len, lp, Mem.write 0#32 c.mem c.ci (F32.add x (F32.mul lp fb))⟩, F32.add acc y)) ∧
  (∀ (len : Nat) (fb d1 d2 : Word) (c : CombState Word) (xs : List Word), 1 ≤ len → c.mem = [] → c.ci < len →
    ∀ i, i < xs.length →
      ((Spec.combRun len fb d1 d2 c xs)[i]?).map Prod.snd = some
        (if i < len then 0#32 else (((Spec.combRun len fb d1 d2 c xs)[i - len]?).map Prod.fst).getD 0#32)) ∧
  (∀ (len : Nat) (g x : Word) (a : AllPassState Word),
    let b := Mem.read 0#32 a.mem a.ai
    let v := F32.add x (F32.mul b g)
    a.process hw len g x = (⟨(a.ai + 1) % len, Mem.write 0#32 a.mem a.ai v⟩, F32.sub b (F32.mul v g))) ∧
  (∀ (len : Nat) (g : Word) (a : AllPassState Word) (xs : List Word), 1 ≤ len → a.mem = [] → a.ai < len →
    ∀ i, i < xs.length →
      ((Spec.allPassRun len g a xs)[i]?).map Prod.snd = some
        (if i < len then 0#32 else (((Spec.allPassRun len g a xs)[i - len]?).map Prod.fst).getD 0#32)) ∧
  ∀ (C : Config) (r : ReverbState Word) (x : Word),
    let fb := F32.add (hw.ofDec C.revFbBase) (F32.mul (hw.ofDec C.revFbScale) r.room)
    let d1 := F32.mul (hw.ofDec C.revDampScale) r.damp
    let d2 := F32.sub 0x3F800000#32 d1
    let input := F32.mul x (hw.ofDec C.revInGain)
    let c0 := r.combs.k0.process hw C.combLen.k0 fb d1 d2 input 0#32
    let c1 := r.combs.k1.process hw C.combLen.k1 fb d1 d2 input c0.2
    let c2 := r.combs.k2.process hw C.combLen.k2 fb d1 d2 input c1.2
    let c3 := r.combs.k3.process hw C.combLen.k3 fb d1 d2 input c2.2
    let a0 := r.aps.j0.process hw C.apLen.j0 (hw.ofDec C.revApG) c3.2
    let a1 := r.aps.j1.process hw C.apLen.j1 (hw.ofDec C.revApG) a0.2
    r.process hw C x =
      (⟨r.room, r.damp, ⟨c0.1, c1.1, c2.1, c3.1⟩, ⟨a0.1, a1.1⟩⟩, Spec.wetMix x a1.2 (hw.ofDec C.revWet))

/-- R262: the tremolo advances its phase and returns the input times `1 - depth * (0.5 + 0.5 * sin2pi(phase))` at the new
phase; with its registers in their ranges the phase stays in [0, 1), and that gain lies in [0, 1] and is 1 at depth 0. -/
def Obligations.TremoloGain : Prop :=
  ∀ (C : Config) (t : TremoloState Word) (x : Word),
    let phase := Spec.phaseOn C t.phase t.rate
    let gain := F32.sub 0x3F800000#32 (F32.mul t.depth (Spec.swing phase))
    t.process hw C x = (⟨t.rate, t.depth, phase⟩, F32.mul x gain) ∧
    (1000 ≤ C.fs → C.fs ≤ 192000 → inRange 0#32 0x41A00000#32 t.rate = true →
      inRange 0#32 0x3F800000#32 t.depth = true → inUnit t.phase = true →
      inUnit phase = true ∧ inRange 0#32 0x3F800000#32 gain = true ∧
      (F32.eq t.depth 0#32 = true → gain = 0x3F800000#32))

/-- R9, R272: the flanger advances its phase, reads two neighbouring words of its line, interpolates, writes the input plus
the fed-back word at the old index, advances the index, and mixes. With the sweep of R8's table the words it reads are one
to `FL_LEN - 1` samples old, so neither read fetches the word about to be written. -/
def Obligations.FlangerReads : Prop :=
  (∀ (C : Config) (f : FlangerState Word) (x : Word),
    let phase := Spec.phaseOn C f.phase f.rate
    let dl := F32.mul (F32.ofInt C.fs)
      (F32.add (hw.ofDec C.flBaseS) (F32.mul (F32.mul (hw.ofDec C.flSweepS) f.depth) (Spec.swing phase)))
    let i0 := F32.toNat (F32.floor dl)
    let fr := F32.sub dl (F32.floor dl)
    let a := Mem.read 0#32 f.mem (((f.w : ℤ) - i0) % C.flLen).toNat
    let b := Mem.read 0#32 f.mem (((f.w : ℤ) - i0 - 1) % C.flLen).toNat
    let y := F32.add a (F32.mul (F32.sub b a) fr)
    f.delay hw C phase = dl ∧
    f.process hw C x =
      (⟨f.rate, f.depth, f.feedback, f.mix, phase, (f.w + 1) % C.flLen,
        Mem.write 0#32 f.mem f.w (F32.add x (F32.mul y f.feedback))⟩, Spec.wetMix x y f.mix)) ∧
  ∀ (C : Config) (f : FlangerState Word) (phase : Word), C.wf = true →
    C.flBaseS = Config.default.flBaseS → C.flSweepS = Config.default.flSweepS →
    inRange 0#32 0x3F800000#32 f.depth = true → inUnit phase = true →
    1 ≤ F32.toNat (F32.floor (f.delay hw C phase)) ∧ F32.toNat (F32.floor (f.delay hw C phase)) + 1 ≤ C.flLen - 1

/-! ## Numerics -/

/-- R11: on finite operands the four operations of the hardware instance are the exact results rounded once, to nearest,
ties to even, with gradual underflow and overflow to infinity. -/
def Obligations.CorrectRounding : Prop :=
  ∀ a b : Word, Spec.Finite a → Spec.Finite b →
    Spec.Rounded (Spec.value a + Spec.value b) (F32.add a b) ∧
    Spec.Rounded (Spec.value a - Spec.value b) (F32.sub a b) ∧
    Spec.Rounded (Spec.value a * Spec.value b) (F32.mul a b) ∧
    (Spec.value b ≠ 0 → Spec.Rounded (Spec.value a / Spec.value b) (F32.div a b))

/-- R11, R13: the operands that are not finite, and the zeros, as IEEE 754 has them: a NaN operand gives a NaN; so do an
infinity less itself, 0 times an infinity, 0 over 0 and an infinity over one. Every other operation on an infinity, and a
division by zero, gives the infinity or the zero it should; a product's and a quotient's sign is the operands' signs'
exclusive or; an exact zero sum or difference is +0, but -0 of two operands that count as negative zeros. -/
def Obligations.SpecialOperands : Prop :=
  (∀ a b : Word, Spec.IsNaN a ∨ Spec.IsNaN b → Spec.IsNaN (F32.add a b) ∧ Spec.IsNaN (F32.sub a b) ∧
    Spec.IsNaN (F32.mul a b) ∧ Spec.IsNaN (F32.div a b)) ∧
  (∀ a b : Word, ¬Spec.IsNaN a → ¬Spec.IsNaN b →
    (Spec.IsNaN (F32.add a b) ↔ ¬Spec.Finite a ∧ ¬Spec.Finite b ∧ a ≠ b) ∧
    (Spec.IsNaN (F32.sub a b) ↔ ¬Spec.Finite a ∧ ¬Spec.Finite b ∧ a = b) ∧
    (Spec.IsNaN (F32.mul a b) ↔ (¬Spec.Finite a ∧ Spec.IsZero b) ∨ (Spec.IsZero a ∧ ¬Spec.Finite b)) ∧
    (Spec.IsNaN (F32.div a b) ↔ (¬Spec.Finite a ∧ ¬Spec.Finite b) ∨ (Spec.IsZero a ∧ Spec.IsZero b)) ∧
    (¬Spec.IsNaN (F32.mul a b) → (F32.mul a b).getLsbD 31 = (a.getLsbD 31 ^^ b.getLsbD 31)) ∧
    (¬Spec.IsNaN (F32.div a b) → (F32.div a b).getLsbD 31 = (a.getLsbD 31 ^^ b.getLsbD 31)) ∧
    (F32.add a b = 0x80000000#32 ↔ a = 0x80000000#32 ∧ b = 0x80000000#32) ∧
    (F32.sub a b = 0x80000000#32 ↔ a = 0x80000000#32 ∧ b = 0x00000000#32) ∧
    (¬Spec.Finite a → Spec.Finite b ∨ a = b → F32.add a b = a) ∧
    (¬Spec.Finite a → Spec.Finite b ∨ a ≠ b → F32.sub a b = a) ∧
    (Spec.Finite a → ¬Spec.Finite b →
      F32.add a b = b ∧ F32.sub a b = b ^^^ 0x80000000#32 ∧ Spec.IsZero (F32.div a b)) ∧
    (¬Spec.Finite a ∧ ¬Spec.IsZero b ∨ ¬Spec.IsZero a ∧ ¬Spec.Finite b → ¬Spec.Finite (F32.mul a b)) ∧
    (¬Spec.Finite a → Spec.Finite b → ¬Spec.Finite (F32.div a b)) ∧
    (Spec.Finite a → ¬Spec.IsZero a → Spec.IsZero b → ¬Spec.Finite (F32.div a b))) ∧
  ∀ a b : Word, Spec.Finite a → Spec.Finite b →
    (Spec.value a + Spec.value b = 0 → ¬(a = 0x80000000#32 ∧ b = 0x80000000#32) → F32.add a b = 0#32) ∧
    (Spec.value a - Spec.value b = 0 → ¬(a = 0x80000000#32 ∧ b = 0#32) → F32.sub a b = 0#32)

/-- R10, R11, R13, R14, R19: `floor`, `abs` and the comparisons are exact, an infinity lies beyond every finite datum and a
NaN compares with nothing; `ofInt` is exact below 2^24; a decimal literal is the nearest datum; `toNat` of a finite
non-negative datum is its integer part; `toBits32` is the identity, but gives some NaN of a NaN. (`toNat` of a datum with a
fraction, which R10 does not define, and `floor` of an infinity are the model's: assumption logs 10 and 16.) -/
def Obligations.ExactConversions : Prop :=
  (∀ a : Word, Spec.Finite a →
    Spec.Finite (F32.floor a) ∧ Spec.value (F32.floor a) = ⌊Spec.value a⌋ ∧
    Spec.Finite (F32.abs a) ∧ Spec.value (F32.abs a) = |Spec.value a| ∧
    (0 ≤ Spec.value a → F32.toNat a = ⌊Spec.value a⌋₊)) ∧
  (∀ a : Word, ¬Spec.IsNaN a → F32.toBits32 a = a) ∧
  (∀ a : Word, Spec.IsNaN a → Spec.IsNaN (F32.floor a) ∧ Spec.IsNaN (F32.abs a) ∧ Spec.IsNaN (F32.toBits32 a)) ∧
  (∀ d : Dec, Spec.Rounded (Spec.decimal d) (F32.ofDec d)) ∧
  (∀ n : ℤ, n.natAbs < 2 ^ 24 → Spec.Finite (F32.ofInt n) ∧ Spec.value (F32.ofInt n) = n) ∧
  (∀ a b : Word, Spec.Finite a → Spec.Finite b →
    (F32.lt a b = true ↔ Spec.value a < Spec.value b) ∧ (F32.le a b = true ↔ Spec.value a ≤ Spec.value b) ∧
    (F32.eq a b = true ↔ Spec.value a = Spec.value b)) ∧
  (∀ a : Word, ¬Spec.IsNaN a →
    F32.le a 0x7F800000#32 = true ∧ F32.le 0xFF800000#32 a = true ∧
    F32.lt 0x7F800000#32 a = false ∧ F32.lt a 0xFF800000#32 = false ∧
    (F32.lt a 0x7F800000#32 = true ↔ a ≠ 0x7F800000#32) ∧ (F32.lt 0xFF800000#32 a = true ↔ a ≠ 0xFF800000#32) ∧
    (F32.le 0x7F800000#32 a = true ↔ a = 0x7F800000#32) ∧ (F32.le a 0xFF800000#32 = true ↔ a = 0xFF800000#32) ∧
    (F32.eq a 0x7F800000#32 = true ↔ a = 0x7F800000#32) ∧ (F32.eq 0x7F800000#32 a = true ↔ a = 0x7F800000#32) ∧
    (F32.eq a 0xFF800000#32 = true ↔ a = 0xFF800000#32) ∧ (F32.eq 0xFF800000#32 a = true ↔ a = 0xFF800000#32)) ∧
  (F32.floor 0x7F800000#32 = 0x7F800000#32 ∧ F32.floor 0xFF800000#32 = 0xFF800000#32 ∧
    F32.abs 0x7F800000#32 = 0x7F800000#32 ∧ F32.abs 0xFF800000#32 = 0x7F800000#32) ∧
  ∀ a b : Word, Spec.IsNaN a ∨ Spec.IsNaN b → F32.lt a b = false ∧ F32.le a b = false ∧ F32.eq a b = false

/-- R12: the properties of `exp2` and `sin2pi` a proof may assume, in both instances; in the reference instance they are
the mathematical functions. -/
def Obligations.TranscendentalProperties : Prop :=
  Spec.Transcendental hw (fun w => Spec.Finite w) ∧ Spec.Transcendental reference (fun _ => True) ∧
  (∀ p, reference.sin2pi p = Real.sin (2 * Real.pi * p)) ∧ ∀ x : ℝ, reference.exp2 x = (2 : ℝ) ^ x

/-- R15: `min` and `max` return one of their operands, the first on a tie; `clamp` of a datum that is not a NaN lies
between its bounds, is the datum itself, bit for bit, when that does, and takes the infinities to the bounds. -/
def Obligations.ClampLaws : Prop :=
  (∀ a b : Word, (F32.le a b = true → hw.min a b = a) ∧ (F32.le b a = true → hw.max a b = a) ∧
    (F32.lt b a = true → hw.min a b = b) ∧ (F32.lt a b = true → hw.max a b = b)) ∧
  ∀ v lo hi : Word, ¬Spec.IsNaN v → F32.le lo hi = true →
    inRange lo hi (hw.clamp v lo hi) = true ∧ (inRange lo hi v = true → hw.clamp v lo hi = v) ∧
    (F32.lt v lo = true → hw.clamp v lo hi = lo) ∧ (F32.lt hi v = true → hw.clamp v lo hi = hi) ∧
    (Spec.Finite hi → hw.clamp 0x7F800000#32 lo hi = hi) ∧ (Spec.Finite lo → hw.clamp 0xFF800000#32 lo hi = lo)

/-- R63: a serialised word comes least significant byte first: its eight bytes read as the word does, and the bytes after
it are left; fewer than eight are no word. -/
def Obligations.SerialisedWords : Prop :=
  (∀ (w : CmdWord) (rest : List (BitVec 8)),
    decodeBytes ((List.range 8).map (fun k => w.extractLsb' (8 * k) 8) ++ rest) = .word (decode w) rest) ∧
  ∀ bs : List (BitVec 8), bs.length < 8 → decodeBytes bs = .short bs
end

