-- ==== Sys2Proof/Laws/Memory.lean ====
section
/-! SUPPORT. The laws of sample memories (spec/20_memory.md R62, R65): a word read is the last one written there, other
words stand, and every operation keeps the canonical form. -/

namespace Sys2Proof.Machine.Mem

variable {α : Type} {z : α}

@[simp] theorem read_nil (i : Nat) : Mem.read z ([] : Mem α) i = z := rfl

theorem read_cons (j : Nat) (w : α) (t : Mem α) (i : Nat) :
    Mem.read z ((j, w) :: t) i = if i = j then w else Mem.read z t i := rfl

theorem read_put_same (i : Nat) (v : α) : ∀ m : Mem α, Mem.read z (Mem.put i v m) i = v
  | [] => by simp [put, read]
  | (j, w) :: t => by
    simp only [put]
    split
    · simp [read]
    · split
      · simp [read]
      · rename_i h; simp [read, h, read_put_same i v t]

theorem read_put_other {i j : Nat} (v : α) (h : j ≠ i) : ∀ m : Mem α, Mem.read z (Mem.put i v m) j = Mem.read z m j
  | [] => by simp [put, read, h]
  | (k, w) :: t => by
    simp only [put]
    split
    · simp [read, h]
    · split
      · rename_i hk; subst hk; simp [read, h]
      · simp [read, read_put_other v h t]

theorem read_erase_other {i j : Nat} (h : j ≠ i) : ∀ m : Mem α, Mem.read z (Mem.erase i m) j = Mem.read z m j
  | [] => rfl
  | (k, w) :: t => by
    simp only [erase]
    split
    · rfl
    · split
      · rename_i hk; subst hk; simp [read, h]
      · simp [read, read_erase_other h t]

variable [DecidableEq α] {len : Nat}

theorem wfFrom_mono {lo lo' : Nat} (h : lo ≤ lo') : ∀ m : Mem α, wfFrom z len lo' m = true → wfFrom z len lo m = true
  | [], _ => rfl
  | (j, w) :: t, hm => by
    simp only [wfFrom, Bool.and_eq_true, decide_eq_true_eq] at hm ⊢
    exact ⟨⟨⟨by omega, hm.1.1.2⟩, hm.1.2⟩, hm.2⟩

/-- An index below the first one listed reads as zero. -/
theorem read_below {i : Nat} : ∀ (lo : Nat) (m : Mem α), wfFrom z len lo m = true → i < lo → Mem.read z m i = z
  | _, [], _, _ => rfl
  | lo, (j, w) :: t, hm, hi => by
    simp only [wfFrom, Bool.and_eq_true, decide_eq_true_eq] at hm
    have hij : i ≠ j := by omega
    have ht : Mem.read z t i = z := read_below (j + 1) t hm.2 (by omega)
    simp [read, hij, ht]

theorem read_erase_same {i : Nat} : ∀ (lo : Nat) (m : Mem α), wfFrom z len lo m = true → Mem.read z (Mem.erase i m) i = z
  | _, [], _ => rfl
  | lo, (j, w) :: t, hm => by
    simp only [wfFrom, Bool.and_eq_true, decide_eq_true_eq] at hm
    simp only [erase]
    split
    · rename_i hij
      have hij' : i ≠ j := by omega
      have ht : Mem.read z t i = z := read_below (j + 1) t hm.2 (by omega)
      simp [read, hij', ht]
    · split
      · rename_i hij; exact read_below (j + 1) t hm.2 (by omega)
      · rename_i hij; simp [read, hij, read_erase_same (j + 1) t hm.2]

theorem wfFrom_put {i : Nat} {v : α} (hv : v ≠ z) (hi : i < len) :
    ∀ (lo : Nat) (m : Mem α), lo ≤ i → wfFrom z len lo m = true → wfFrom z len lo (Mem.put i v m) = true
  | _, [], hlo, _ => by simp [put, wfFrom, hv, hi, hlo]
  | lo, (j, w) :: t, hlo, hm => by
    simp only [wfFrom, Bool.and_eq_true, decide_eq_true_eq] at hm
    simp only [put]
    split
    · rename_i hij
      simp only [wfFrom, Bool.and_eq_true, decide_eq_true_eq]
      exact ⟨⟨⟨hlo, hi⟩, hv⟩, ⟨⟨⟨by omega, hm.1.1.2⟩, hm.1.2⟩, hm.2⟩⟩
    · split
      · rename_i hij
        subst hij
        simp only [wfFrom, Bool.and_eq_true, decide_eq_true_eq]
        exact ⟨⟨⟨hlo, hi⟩, hv⟩, hm.2⟩
      · simp only [wfFrom, Bool.and_eq_true, decide_eq_true_eq]
        exact ⟨⟨⟨hm.1.1.1, hm.1.1.2⟩, hm.1.2⟩, wfFrom_put hv hi (j + 1) t (by omega) hm.2⟩

theorem wfFrom_erase {i : Nat} :
    ∀ (lo : Nat) (m : Mem α), wfFrom z len lo m = true → wfFrom z len lo (Mem.erase i m) = true
  | _, [], _ => rfl
  | lo, (j, w) :: t, hm => by
    have hm' := hm
    simp only [wfFrom, Bool.and_eq_true, decide_eq_true_eq] at hm'
    simp only [erase]
    split
    · exact hm
    · split
      · exact wfFrom_mono (by omega) t hm'.2
      · simp only [wfFrom, Bool.and_eq_true, decide_eq_true_eq]
        exact ⟨hm'.1, wfFrom_erase (j + 1) t hm'.2⟩

@[simp] theorem wf_nil : Mem.wf z len ([] : Mem α) = true := rfl

/-- The word read is the one last written (R65). -/
theorem read_write_same {m : Mem α} (hm : Mem.wf z len m = true) (i : Nat) (v : α) :
    Mem.read z (Mem.write z m i v) i = v := by
  unfold write
  split
  · rename_i h; rw [h]; exact read_erase_same 0 m hm
  · exact read_put_same i v m

/-- A write leaves every other word alone. -/
theorem read_write_other {i j : Nat} (h : j ≠ i) (m : Mem α) (v : α) :
    Mem.read z (Mem.write z m i v) j = Mem.read z m j := by
  unfold write
  split
  · exact read_erase_other h m
  · exact read_put_other v h m

/-- A write inside the memory keeps the canonical form. -/
theorem wf_write {m : Mem α} (hm : Mem.wf z len m = true) {i : Nat} (hi : i < len) (v : α) :
    Mem.wf z len (Mem.write z m i v) = true := by
  unfold write
  split
  · exact wfFrom_erase 0 m hm
  · rename_i h; exact wfFrom_put h hi 0 m (Nat.zero_le _) hm

theorem wf_zeroBelow {m : Mem α} (hm : Mem.wf z len m = true) : ∀ n : Nat, n ≤ len → Mem.wf z len (Mem.zeroBelow z n m) = true
  | 0, _ => hm
  | n + 1, h => wf_write (wf_zeroBelow hm n (by omega)) (by omega) z

/-- The words below `n` read as zero, the others stand (R72). -/
theorem read_zeroBelow {m : Mem α} (hm : Mem.wf z len m = true) :
    ∀ (n : Nat), n ≤ len → ∀ i, Mem.read z (Mem.zeroBelow z n m) i = if i < n then z else Mem.read z m i
  | 0, _, i => by simp [zeroBelow, forSamples]
  | n + 1, h, i => by
    have hw : Mem.wf z len (Mem.zeroBelow z n m) = true := wf_zeroBelow hm n (by omega)
    have hs : Mem.zeroBelow z (n + 1) m = Mem.write z (Mem.zeroBelow z n m) n z := rfl
    rw [hs]
    by_cases hi : i = n
    · subst hi; simp [read_write_same hw]
    · rw [read_write_other hi, read_zeroBelow hm n (by omega)]
      have : i < n ↔ i < n + 1 := by omega
      simp [this]

end Sys2Proof.Machine.Mem

namespace Sys2Proof.Machine

/-! ## Indices (R62) -/

theorem idxNext_lt {L : Nat} (h : 0 < L) (w : Nat) : idxNext L w < L := Nat.mod_lt _ h

theorem idxBack_lt {L : Nat} (h : 0 < L) (w d : Nat) : idxBack L w d < L := by
  have h1 := Int.emod_lt_of_pos ((w : Int) - d) (show (0 : Int) < L by exact_mod_cast h)
  have h2 := Int.emod_nonneg ((w : Int) - d) (show (L : Int) ≠ 0 by omega)
  unfold idxBack
  omega

/-! ## The voice pool's write -/

theorem updAt_length {α : Type} (f : α → α) : ∀ (i : Nat) (l : List α), (updAt f i l).length = l.length
  | i, [] => by cases i <;> rfl
  | 0, _ :: _ => rfl
  | i + 1, _ :: t => by simp [updAt, updAt_length f i t]

theorem updAt_getElem? {α : Type} (f : α → α) :
    ∀ (i j : Nat) (l : List α), (updAt f i l)[j]? = if j = i then l[j]?.map f else l[j]?
  | i, j, [] => by cases i <;> simp [updAt]
  | 0, 0, a :: t => by simp [updAt]
  | 0, j + 1, a :: t => by simp [updAt]
  | i + 1, 0, a :: t => by simp [updAt]
  | i + 1, j + 1, a :: t => by simp [updAt, updAt_getElem? f i j t]

/-! ## Loops -/

@[simp] theorem forSamples_zero {σ : Type} (f : Nat → σ → σ) (s : σ) : forSamples f 0 s = s := rfl

theorem forSamples_succ {σ : Type} (f : Nat → σ → σ) (n : Nat) (s : σ) :
    forSamples f (n + 1) s = f n (forSamples f n s) := rfl

/-- What one iteration keeps, the loop keeps. -/
theorem forSamples_induct {σ : Type} {f : Nat → σ → σ} {p : σ → Prop} (n : Nat) (s : σ) (h0 : p s)
    (hs : ∀ i t, i < n → p t → p (f i t)) : p (forSamples f n s) := by
  induction n with
  | zero => exact h0
  | succ n ih => exact hs n _ (Nat.lt_succ_self n) (ih fun i t hi => hs i t (by omega))

end Sys2Proof.Machine
end

