-- ==== Sys2Proof/Laws/Engine.lean ====
section
/-! SUPPORT. What the chain, a voice's block and an engine's block can change, said once: a property that each stage
keeps, the chain keeps (spec/46_engine.md R222, R224); likewise the block (R221). -/

namespace Sys2Proof.Machine

section Units

variable {α : Type} {N : Numerics α} {C : Config}

/-! ## Voices -/

/-- A sample of a voice writes neither its age nor its velocity, and can only clear `active` (spec/45_voice.md R194). -/
theorem VoiceState.tick_frame (P : VoiceParams α) (v : VoiceState α) :
    (v.tick N C P).1.age = v.age ∧ (v.tick N C P).1.velocity = v.velocity ∧
      ((v.tick N C P).1.active = true → v.active = true) := by
  refine ⟨rfl, rfl, ?_⟩
  simp only [VoiceState.tick]
  split <;> simp

variable [DecidableEq α]

/-- The sample loop of a voice writes words below `n` only, and keeps what `tick` keeps. -/
theorem VoiceState.loop_frame (P : VoiceParams α) (n : Nat) (v : VoiceState α) (buf : Mem α) :
    (forSamples (VoiceState.sample N C P) n (v, buf)).1.age = v.age ∧
    (forSamples (VoiceState.sample N C P) n (v, buf)).1.velocity = v.velocity ∧
    ((forSamples (VoiceState.sample N C P) n (v, buf)).1.active = true → v.active = true) := by
  refine forSamples_induct (p := fun x => x.1.age = v.age ∧ x.1.velocity = v.velocity ∧ (x.1.active = true → v.active = true))
    n (v, buf) ⟨rfl, rfl, id⟩ ?_
  intro i x _ h
  have ht := VoiceState.tick_frame (N := N) (C := C) P x.1
  exact ⟨ht.1.trans h.1, ht.2.1.trans h.2.1, fun ha => h.2.2 (ht.2.2 ha)⟩

theorem VoiceState.sample_read_other (P : VoiceParams α) {i j : Nat} (h : j ≠ i) (x : VoiceState α × Mem α) :
    Mem.read N.zero (VoiceState.sample N C P i x).2 j = Mem.read N.zero x.2 j :=
  Mem.read_write_other h _ _

theorem VoiceState.process_silent (P : VoiceParams α) (n : Nat) {v : VoiceState α} (h : v.isActive = false) (buf : Mem α) :
    v.process N C P n buf = (v, buf) := by simp [VoiceState.process, h]

theorem VoiceState.process_sounding (P : VoiceParams α) (n : Nat) {v : VoiceState α} (h : v.isActive = true) (buf : Mem α) :
    v.process N C P n buf = forSamples (VoiceState.sample N C P) n ({ v with age := ageNext C v.age }, buf) := by
  simp [VoiceState.process, h]

/-- R194: the age moves once per block, saturating, and only of a sounding voice; velocity stands; `active` is only
cleared. -/
theorem VoiceState.process_frame (P : VoiceParams α) (n : Nat) (v : VoiceState α) (buf : Mem α) :
    (v.process N C P n buf).1.age = (if v.isActive then ageNext C v.age else v.age) ∧
    (v.process N C P n buf).1.velocity = v.velocity ∧
    ((v.process N C P n buf).1.active = true → v.active = true) := by
  cases h : v.isActive
  · simp [VoiceState.process_silent P n h]
  · rw [VoiceState.process_sounding P n h]
    exact VoiceState.loop_frame P n { v with age := ageNext C v.age } buf

/-- A voice's block writes no word from `n` up. -/
theorem VoiceState.process_read_above (P : VoiceParams α) {n j : Nat} (hj : n ≤ j) (v : VoiceState α) (buf : Mem α) :
    Mem.read N.zero (v.process N C P n buf).2 j = Mem.read N.zero buf j := by
  cases h : v.isActive
  · simp [VoiceState.process_silent P n h]
  · rw [VoiceState.process_sounding P n h]
    refine forSamples_induct (p := fun x : VoiceState α × Mem α => Mem.read N.zero x.2 j = Mem.read N.zero buf j)
      n _ rfl ?_
    intro i x hi hx
    exact (VoiceState.sample_read_other P (by omega) x).trans hx

theorem VoiceState.process_wf (P : VoiceParams α) {n len : Nat} (hn : n ≤ len) (v : VoiceState α) {buf : Mem α}
    (hb : Mem.wf N.zero len buf = true) : Mem.wf N.zero len (v.process N C P n buf).2 = true := by
  cases h : v.isActive
  · simpa [VoiceState.process_silent P n h] using hb
  · rw [VoiceState.process_sounding P n h]
    refine forSamples_induct (p := fun x : VoiceState α × Mem α => Mem.wf N.zero len x.2 = true) n _ hb ?_
    intro i x hi hx
    exact Mem.wf_write hx (by omega) _

/-! ## The voice pool -/

theorem runVoices_length (P : VoiceParams α) (n : Nat) :
    ∀ (vs : List (VoiceState α)) (buf : Mem α), (runVoices N C P n vs buf).1.length = vs.length
  | [], _ => rfl
  | v :: t, buf => by simp [runVoices, runVoices_length P n t]

theorem runVoices_wf (P : VoiceParams α) {n len : Nat} (hn : n ≤ len) :
    ∀ (vs : List (VoiceState α)) (buf : Mem α), Mem.wf N.zero len buf = true →
      Mem.wf N.zero len (runVoices N C P n vs buf).2 = true
  | [], _, hb => hb
  | v :: t, _, hb => runVoices_wf P hn t _ (VoiceState.process_wf P hn v hb)

theorem runVoices_read_above (P : VoiceParams α) {n j : Nat} (hj : n ≤ j) :
    ∀ (vs : List (VoiceState α)) (buf : Mem α),
      Mem.read N.zero (runVoices N C P n vs buf).2 j = Mem.read N.zero buf j
  | [], _ => rfl
  | v :: t, buf => (runVoices_read_above P hj t _).trans (VoiceState.process_read_above P hj v buf)

/-- Each voice after a block is that voice after its own block, over some buffer. -/
theorem runVoices_getElem? (P : VoiceParams α) (n : Nat) :
    ∀ (vs : List (VoiceState α)) (buf : Mem α) (i : Nat) (v : VoiceState α), vs[i]? = some v →
      ∃ b : Mem α, (runVoices N C P n vs buf).1[i]? = some (v.process N C P n b).1
  | [], _, _, _, h => by simp at h
  | u :: t, buf, 0, v, h => by
    obtain rfl : u = v := by simpa using h
    exact ⟨buf, rfl⟩
  | u :: t, buf, i + 1, v, h => by
    simpa [runVoices] using runVoices_getElem? P n t _ i v (by simpa using h)

/-- A pool without a sounding voice is left as it is, and so is the buffer (46_engine.md R225). -/
theorem runVoices_silent (P : VoiceParams α) (n : Nat) :
    ∀ (vs : List (VoiceState α)) (buf : Mem α), (∀ v ∈ vs, v.isActive = false) → runVoices N C P n vs buf = (vs, buf)
  | [], _, _ => rfl
  | v :: t, buf, h => by
    have hv := VoiceState.process_silent (N := N) (C := C) P n (h v (by simp)) buf
    have ht := runVoices_silent P n t buf fun u hu => h u (by simp [hu])
    simp [runVoices, hv, ht]

/-! ## The chain -/

/-- What every enabled stage keeps, the chain keeps. -/
theorem EngineState.chain_induct {p : EngineState α → Prop} (E : EngineState α) (x : α) (h0 : p E)
    (hlfo : E.lfoRoute = true → p E → p (E.lfoStage N C))
    (hflt : ∀ E x, E.fltEnable = true → p E → p (E.filterStage N C x).1)
    (hflg : ∀ E x, E.flgEnable = true → p E → p (E.flangerStage N C x).1)
    (htrm : ∀ E x, E.trmEnable = true → p E → p (E.tremoloStage N C x).1)
    (hdly : ∀ E x, E.dlyEnable = true → p E → p (E.delayStage N C x).1)
    (hrev : ∀ E x, E.revEnable = true → p E → p (E.reverbStage N C x).1) : p (E.chain N C x).1 := by
  have stage : ∀ (q : EngineState α × α) (b : EngineState α → Bool) (f : EngineState α → α → EngineState α × α),
      p q.1 → (∀ E x, b E = true → p E → p (f E x).1) → p (if b q.1 then f q.1 q.2 else q).1 := by
    intro q b f hq hf
    split
    · exact hf _ _ ‹_› hq
    · exact hq
  have h1 : p (if E.lfoRoute then E.lfoStage N C else E) := by
    split
    · exact hlfo ‹_› h0
    · exact h0
  exact stage _ (·.revEnable) _ (stage _ (·.dlyEnable) _ (stage _ (·.trmEnable) _ (stage _ (·.flgEnable) _
    (stage (_, x) (·.fltEnable) _ h1 hflt) hflg) htrm) hdly) hrev

/-- The chain reads no voice and no scratch word, and writes none (20_memory.md R73); it writes no register. -/
theorem EngineState.chain_frame (E : EngineState α) (x : α) :
    (E.chain N C x).1.voices = E.voices ∧ (E.chain N C x).1.scr = E.scr ∧ (E.chain N C x).1.registers = E.registers := by
  refine EngineState.chain_induct (p := fun F => F.voices = E.voices ∧ F.scr = E.scr ∧ F.registers = E.registers) E x
    ⟨rfl, rfl, rfl⟩ ?_ ?_ ?_ ?_ ?_ ?_
  · exact fun _ h => h
  all_goals exact fun F x _ h => h

/-- R224: a stage whose flag is false is left as it is. -/
theorem EngineState.chain_frozen (E : EngineState α) (x : α) :
    (E.lfoRoute = false → (E.chain N C x).1.lfo = E.lfo ∧ (E.chain N C x).1.flt.cutoff = E.flt.cutoff) ∧
    (E.fltEnable = false → (E.chain N C x).1.flt = { E.flt with cutoff := (E.chain N C x).1.flt.cutoff }) ∧
    (E.flgEnable = false → (E.chain N C x).1.flg = E.flg) ∧
    (E.trmEnable = false → (E.chain N C x).1.trm = E.trm) ∧
    (E.dlyEnable = false → (E.chain N C x).1.dly = E.dly) ∧
    (E.revEnable = false → (E.chain N C x).1.rev = E.rev) := by
  have h := EngineState.chain_induct (N := N) (C := C) (p := fun F => F.registers = E.registers ∧
    (E.lfoRoute = false → F.lfo = E.lfo ∧ F.flt.cutoff = E.flt.cutoff) ∧
    (E.fltEnable = false → F.flt = { E.flt with cutoff := F.flt.cutoff }) ∧
    (E.flgEnable = false → F.flg = E.flg) ∧ (E.trmEnable = false → F.trm = E.trm) ∧
    (E.dlyEnable = false → F.dly = E.dly) ∧ (E.revEnable = false → F.rev = E.rev)) E x
    ⟨rfl, fun _ => ⟨rfl, rfl⟩, fun _ => rfl, fun _ => rfl, fun _ => rfl, fun _ => rfl, fun _ => rfl⟩
    ?_ ?_ ?_ ?_ ?_ ?_
  · exact h.2
  · intro hr ⟨hg, _, h2, h3, h4, h5, h6⟩
    exact ⟨hg, fun hf => by simp [hf] at hr, fun _ => rfl, h3, h4, h5, h6⟩
  · intro F x hr ⟨hg, h1, _, h3, h4, h5, h6⟩
    have he : F.fltEnable = E.fltEnable := congrArg Registers.fltEnable hg
    exact ⟨hg, h1, fun hf => by simp [he, hf] at hr, h3, h4, h5, h6⟩
  · intro F x hr ⟨hg, h1, h2, _, h4, h5, h6⟩
    have he : F.flgEnable = E.flgEnable := congrArg Registers.flgEnable hg
    exact ⟨hg, h1, h2, fun hf => by simp [he, hf] at hr, h4, h5, h6⟩
  · intro F x hr ⟨hg, h1, h2, h3, _, h5, h6⟩
    have he : F.trmEnable = E.trmEnable := congrArg Registers.trmEnable hg
    exact ⟨hg, h1, h2, h3, fun hf => by simp [he, hf] at hr, h5, h6⟩
  · intro F x hr ⟨hg, h1, h2, h3, h4, _, h6⟩
    have he : F.dlyEnable = E.dlyEnable := congrArg Registers.dlyEnable hg
    exact ⟨hg, h1, h2, h3, h4, fun hf => by simp [he, hf] at hr, h6⟩
  · intro F x hr ⟨hg, h1, h2, h3, h4, h5, _⟩
    have he : F.revEnable = E.revEnable := congrArg Registers.revEnable hg
    exact ⟨hg, h1, h2, h3, h4, h5, fun hf => by simp [he, hf] at hr⟩

/-! ## A block -/

/-- What the chain keeps at every sample, a block keeps, from the engine whose voices have run. -/
theorem EngineState.process_induct {p : EngineState α → Prop} (n : Nat) (E : EngineState α)
    (h0 : p { E with
      voices := (runVoices N C E.prm n E.voices (Mem.zeroBelow N.zero n E.scr)).1
      scr := (runVoices N C E.prm n E.voices (Mem.zeroBelow N.zero n E.scr)).2 })
    (hs : ∀ i F, i < n → p F → p (EngineState.chainAt N C i F)) : p (E.process N C n) :=
  forSamples_induct n _ h0 hs

/-- The chain runs over the voices as their block left them, and over no register. -/
theorem EngineState.process_frame (n : Nat) (E : EngineState α) :
    (E.process N C n).voices = (runVoices N C E.prm n E.voices (Mem.zeroBelow N.zero n E.scr)).1 ∧
    (E.process N C n).registers = E.registers := by
  refine EngineState.process_induct (p := fun F => F.voices = _ ∧ F.registers = E.registers) n E ⟨rfl, rfl⟩ ?_
  intro i F _ h
  have hc := EngineState.chain_frame (N := N) (C := C) F (Mem.read N.zero F.scr i)
  exact ⟨hc.1.trans h.1, hc.2.2.trans h.2⟩

/-- 20_memory.md R72: words from `n` up are not touched. -/
theorem EngineState.process_read_above {n j len : Nat} (hn : n ≤ len) (hj : n ≤ j) (E : EngineState α)
    (hw : Mem.wf N.zero len E.scr = true) :
    Mem.read N.zero (E.process N C n).scr j = Mem.read N.zero E.scr j := by
  refine EngineState.process_induct (p := fun F => Mem.read N.zero F.scr j = Mem.read N.zero E.scr j) n E ?_ ?_
  · refine (runVoices_read_above E.prm hj E.voices _).trans ?_
    rw [Mem.read_zeroBelow hw n hn]
    simp [Nat.not_lt.mpr hj]
  · intro i F hi h
    exact (Mem.read_write_other (by omega) _ _).trans h

theorem EngineState.process_scr_wf {n len : Nat} (hn : n ≤ len) (E : EngineState α)
    (hw : Mem.wf N.zero len E.scr = true) : Mem.wf N.zero len (E.process N C n).scr = true := by
  refine EngineState.process_induct (p := fun F => Mem.wf N.zero len F.scr = true) n E ?_ ?_
  · exact runVoices_wf E.prm hn E.voices _ (Mem.wf_zeroBelow hw n hn)
  · intro i F hi h
    exact Mem.wf_write h (by omega) _

end Units

end Sys2Proof.Machine
end

