-- ==== Sys2Proof/Laws/Float32.lean ====
section
/-! SUPPORT. The laws of binary32 arithmetic (spec/00_scope.md R11): the data are ordered as their values are, and each
operation's result stands to every datum as the exact result does. Bounds on results follow without unfolding an
operation. -/

namespace Sys2Proof.Machine.F32

/-! ## Magnitudes -/

/-- The magnitude of magnitude bits, in units of `2^-149`; above the finite ones it goes on as if exponents did. -/
def magOf (m : Nat) : Nat := if m / 2 ^ 23 = 0 then m % 2 ^ 23 else (m % 2 ^ 23 + 2 ^ 23) * 2 ^ (m / 2 ^ 23 - 1)

theorem mag_eq (w : Word) : mag w = magOf (magBits w) := by
  have : w.toNat % 2 ^ 31 % 2 ^ 23 = w.toNat % 2 ^ 23 := by omega
  simp only [mag, magOf, expField, fracField, magBits, this]
  rfl

/-- A magnitude written with `j` units of `2^k`. -/
theorem magOf_scale {k j : Nat} (h : k = 0 ∨ 2 ^ 23 ≤ j) (hj : j ≤ 2 ^ 24) : magOf (k * 2 ^ 23 + j) = j * 2 ^ k := by
  rcases Nat.lt_or_ge j (2 ^ 23) with hlt | hge
  · obtain rfl : k = 0 := by omega
    have h1 : (0 * 2 ^ 23 + j) / 2 ^ 23 = 0 := by omega
    have h2 : (0 * 2 ^ 23 + j) % 2 ^ 23 = j := by omega
    simp only [magOf, h1, h2, if_true, Nat.pow_zero, Nat.mul_one]
  · rcases Nat.lt_or_ge j (2 ^ 24) with hlt | hge'
    · have h1 : (k * 2 ^ 23 + j) / 2 ^ 23 = k + 1 := by omega
      have h2 : (k * 2 ^ 23 + j) % 2 ^ 23 = j - 2 ^ 23 := by omega
      have h3 : j - 2 ^ 23 + 2 ^ 23 = j := by omega
      simp only [magOf, h1, h2, h3, Nat.add_one_ne_zero, if_false, Nat.add_sub_cancel]
    · obtain rfl : j = 2 ^ 24 := by omega
      have h1 : (k * 2 ^ 23 + 2 ^ 24) / 2 ^ 23 = k + 2 := by omega
      have h2 : (k * 2 ^ 23 + 2 ^ 24) % 2 ^ 23 = 0 := by omega
      have h3 : k + 2 - 1 = k + 1 := by omega
      have h4 : k + 2 ≠ 0 := by omega
      simp only [magOf, h1, h2, h3, h4, if_false, Nat.zero_add]
      rw [Nat.pow_succ 2 k]; ring

theorem magOf_succ (m : Nat) : magOf m < magOf (m + 1) := by
  rcases Nat.lt_or_ge m (2 ^ 23) with h | h
  · have h1 := magOf_scale (k := 0) (j := m) (.inl rfl) (by omega)
    have h2 := magOf_scale (k := 0) (j := m + 1) (.inl rfl) (by omega)
    simp only [Nat.zero_mul, Nat.zero_add, Nat.pow_zero, Nat.mul_one] at h1 h2
    omega
  · obtain ⟨k, j, rfl, hj1, hj2⟩ : ∃ k j, m = k * 2 ^ 23 + j ∧ 2 ^ 23 ≤ j ∧ j < 2 ^ 24 :=
      ⟨m / 2 ^ 23 - 1, m % 2 ^ 23 + 2 ^ 23, by omega, by omega, by omega⟩
    rw [magOf_scale (.inr hj1) (by omega), Nat.add_assoc, magOf_scale (.inr (by omega)) (by omega)]
    exact Nat.mul_lt_mul_of_pos_right (Nat.lt_succ_self j) (by positivity)

theorem magOf_strictMono : StrictMono magOf := strictMono_nat_of_lt_succ magOf_succ

@[simp] theorem magOf_zero : magOf 0 = 0 := by decide

theorem magOf_le_iff {a b : Nat} : magOf a ≤ magOf b ↔ a ≤ b := magOf_strictMono.le_iff_le

/-! ## Rounding -/

/-- `roundMag` before it stops at infinity. -/
def roundBits (num den : Nat) : Nat :=
  let k := (num / den).log2 - 23
  let d := den * 2 ^ k
  let m := num / d
  let r := num % d
  let m' := if d < 2 * r ∨ (2 * r = d ∧ m % 2 = 1) then m + 1 else m
  k * 2 ^ 23 + m'

theorem roundMag_eq (num den : Nat) : roundMag num den = Nat.min (roundBits num den) infBits := rfl

theorem roundMag_le (num den : Nat) : roundMag num den ≤ infBits := Nat.min_le_right _ _

/-- How a number stands to the unit `2^k` it is rounded to: it has `m` whole units, `m` of 24 bits, full ones when the
unit is not the least. -/
theorem round_unit {num den : Nat} (hd : 0 < den) :
    ∃ k m r, num = den * 2 ^ k * m + r ∧ r < den * 2 ^ k ∧ m < 2 ^ 24 ∧ (k = 0 ∨ 2 ^ 23 ≤ m) ∧
      roundBits num den =
        k * 2 ^ 23 + (if den * 2 ^ k < 2 * r ∨ (2 * r = den * 2 ^ k ∧ m % 2 = 1) then m + 1 else m) := by
  refine ⟨(num / den).log2 - 23, num / (den * 2 ^ ((num / den).log2 - 23)),
    num % (den * 2 ^ ((num / den).log2 - 23)), (Nat.div_add_mod _ _).symm,
    Nat.mod_lt _ (by positivity), ?_, ?_, rfl⟩
  · rw [← Nat.div_div_eq_div_mul, Nat.div_lt_iff_lt_mul (by positivity), ← Nat.pow_add]
    refine Nat.lt_of_lt_of_le (Nat.lt_log2_self (n := num / den)) (Nat.pow_le_pow_right (by omega) (by omega))
  · rcases Nat.eq_zero_or_pos ((num / den).log2 - 23) with h | h
    · exact .inl h
    · right
      have hne : num / den ≠ 0 := by
        intro h0; rw [h0] at h; simp at h
      rw [← Nat.div_div_eq_div_mul, Nat.le_div_iff_mul_le (by positivity), ← Nat.pow_add]
      have : 23 + ((num / den).log2 - 23) = (num / den).log2 := by omega
      rw [this]
      exact Nat.log2_self_le hne

/-- A number not above a magnitude rounds to bits not above it. -/
theorem roundBits_le {num den c : Nat} (hd : 0 < den) (h : num ≤ magOf c * den) : roundBits num den ≤ c := by
  obtain ⟨k, m, r, hnum, hr, hm, hk, he⟩ := round_unit (num := num) hd
  rw [he]
  have hD : 0 < den * 2 ^ k := by positivity
  rcases Nat.lt_or_ge c (k * 2 ^ 23 + 2 ^ 24) with hc | hc
  · -- `c` is `j` units of `2^k`
    obtain ⟨j, rfl, hj, hj'⟩ : ∃ j, c = k * 2 ^ 23 + j ∧ (k = 0 ∨ 2 ^ 23 ≤ j) ∧ j ≤ 2 ^ 24 := by
      rcases Nat.eq_zero_or_pos k with h0 | h0
      · exact ⟨c, by subst h0; omega, .inl h0, by subst h0; omega⟩
      · have hlow : k * 2 ^ 23 + 2 ^ 23 ≤ c := by
          rw [← magOf_le_iff, magOf_scale (.inr (le_refl _)) (by omega)]
          have h1 : den * 2 ^ k * 2 ^ 23 ≤ num := by
            rw [hnum]
            exact le_trans (Nat.mul_le_mul_left _ (by omega)) (Nat.le_add_right _ _)
          have h2 : 2 ^ 23 * 2 ^ k * den ≤ magOf c * den := by
            calc 2 ^ 23 * 2 ^ k * den = den * 2 ^ k * 2 ^ 23 := by ring
              _ ≤ _ := le_trans h1 h
          exact Nat.le_of_mul_le_mul_right h2 hd
        exact ⟨c - k * 2 ^ 23, by omega, .inr (by omega), by omega⟩
    rw [magOf_scale hj hj'] at h
    have h' : den * 2 ^ k * m + r ≤ den * 2 ^ k * j := by
      rw [← hnum]; calc num ≤ _ := h
        _ = _ := by ring
    have hmj : m ≤ j := by
      by_contra hlt
      have : den * 2 ^ k * (j + 1) ≤ den * 2 ^ k * m := Nat.mul_le_mul_left _ (by omega)
      rw [Nat.mul_succ] at this
      omega
    split
    · rename_i hup
      have hr0 : 0 < r := by omega
      have : m ≠ j := by rintro rfl; omega
      omega
    · omega
  · split <;> omega

/-- A number not below a magnitude rounds to bits not below it. -/
theorem le_roundBits {num den c : Nat} (hd : 0 < den) (h : magOf c * den ≤ num) : c ≤ roundBits num den := by
  obtain ⟨k, m, r, hnum, hr, hm, hk, he⟩ := round_unit (num := num) hd
  rw [he]
  have hD : 0 < den * 2 ^ k := by positivity
  suffices c ≤ k * 2 ^ 23 + m by split <;> omega
  by_contra hc
  -- the next magnitude up is above the number
  have h1 : magOf (k * 2 ^ 23 + (m + 1)) ≤ magOf c := magOf_le_iff.2 (by omega)
  rw [magOf_scale (by omega) (by omega)] at h1
  have h2 : (m + 1) * 2 ^ k * den ≤ num := le_trans (Nat.mul_le_mul_right _ h1) h
  have h3 : (m + 1) * 2 ^ k * den = den * 2 ^ k * m + den * 2 ^ k := by ring
  omega

/-- A magnitude is rounded to itself. -/
theorem roundBits_magOf (c : Nat) {den : Nat} (hd : 0 < den) : roundBits (magOf c * den) den = c :=
  le_antisymm (roundBits_le hd (le_refl _)) (le_roundBits hd (le_refl _))

/-- Rounding is to nearest: no magnitude is nearer (twice the distances, in units of `2^-149 / den`). -/
theorem roundBits_nearest {num den : Nat} (hd : 0 < den) (c : Nat) :
    |(magOf (roundBits num den) * den : ℤ) - num| ≤ |(magOf c * den : ℤ) - num| := by
  obtain ⟨k, m, r, hnum, hr, hm, hk, he⟩ := round_unit (num := num) hd
  have hlo : magOf (k * 2 ^ 23 + m) = m * 2 ^ k := magOf_scale hk (by omega)
  have hhi : magOf (k * 2 ^ 23 + (m + 1)) = (m + 1) * 2 ^ k := magOf_scale (by omega) (by omega)
  have hnumZ : (num : ℤ) = den * 2 ^ k * m + r := by exact_mod_cast hnum
  have hrZ : (r : ℤ) < den * 2 ^ k := by exact_mod_cast hr
  have hr0 : (0 : ℤ) ≤ r := by positivity
  -- where `c` stands
  have hc : (magOf c * den : ℤ) ≤ m * 2 ^ k * den ∨ ((m : ℤ) + 1) * 2 ^ k * den ≤ magOf c * den := by
    rcases Nat.lt_or_ge c (k * 2 ^ 23 + (m + 1)) with h | h
    · left
      have := magOf_le_iff.2 (show c ≤ k * 2 ^ 23 + m by omega)
      rw [hlo] at this
      exact_mod_cast Nat.mul_le_mul_right den this
    · right
      have := magOf_le_iff.2 h
      rw [hhi] at this
      exact_mod_cast Nat.mul_le_mul_right den this
  have e1 : (m : ℤ) * 2 ^ k * den = den * 2 ^ k * m := by ring
  have e2 : ((m : ℤ) + 1) * 2 ^ k * den = den * 2 ^ k * m + den * 2 ^ k := by ring
  have hdist : ((den : ℤ) * 2 ^ k ≤ 2 * r ∧ |(magOf (roundBits num den) * den : ℤ) - num| = den * 2 ^ k - r) ∨
      ((2 * r : ℤ) ≤ den * 2 ^ k ∧ |(magOf (roundBits num den) * den : ℤ) - num| = r) := by
    rw [he]
    split
    · rename_i hup
      left
      constructor
      · have : den * 2 ^ k ≤ 2 * r := by omega
        exact_mod_cast this
      · rw [hhi]; push_cast; rw [hnumZ, e2, abs_of_nonneg (by linarith)]; ring
    · rename_i hdn
      right
      constructor
      · have : 2 * r ≤ den * 2 ^ k := by omega
        exact_mod_cast this
      · rw [hlo]; push_cast; rw [hnumZ, e1, abs_of_nonpos (by linarith)]; ring
  rcases hdist with ⟨h1, h2⟩ | ⟨h1, h2⟩ <;> rcases hc with h | h
  · rw [h2, hnumZ, abs_of_nonpos (by linarith)]; linarith
  · rw [h2, hnumZ, abs_of_nonneg (by linarith)]; linarith
  · rw [h2, hnumZ, abs_of_nonpos (by linarith)]; linarith
  · rw [h2, hnumZ, abs_of_nonneg (by linarith)]; linarith

/-- On a tie the bits are even. -/
theorem roundBits_tie {num den : Nat} (hd : 0 < den) {c : Nat} (hne : c ≠ roundBits num den)
    (h : |(magOf (roundBits num den) * den : ℤ) - num| = |(magOf c * den : ℤ) - num|) : roundBits num den % 2 = 0 := by
  obtain ⟨k, m, r, hnum, hr, hm, hk, he⟩ := round_unit (num := num) hd
  have hlo : magOf (k * 2 ^ 23 + m) = m * 2 ^ k := magOf_scale hk (by omega)
  have hhi : magOf (k * 2 ^ 23 + (m + 1)) = (m + 1) * 2 ^ k := magOf_scale (by omega) (by omega)
  have hnumZ : (num : ℤ) = den * 2 ^ k * m + r := by exact_mod_cast hnum
  have hrZ : (r : ℤ) < den * 2 ^ k := by exact_mod_cast hr
  have hr0 : (0 : ℤ) ≤ r := by positivity
  have e1 : (m : ℤ) * 2 ^ k * den = den * 2 ^ k * m := by ring
  have e2 : ((m : ℤ) + 1) * 2 ^ k * den = den * 2 ^ k * m + den * 2 ^ k := by ring
  have hcZ : (magOf c * den : ℤ) ≤ m * 2 ^ k * den ∨ ((m : ℤ) + 1) * 2 ^ k * den ≤ magOf c * den := by
    rcases Nat.lt_or_ge c (k * 2 ^ 23 + (m + 1)) with h | h
    · left
      have := magOf_le_iff.2 (show c ≤ k * 2 ^ 23 + m by omega)
      rw [hlo] at this
      exact_mod_cast Nat.mul_le_mul_right den this
    · right
      have := magOf_le_iff.2 h
      rw [hhi] at this
      exact_mod_cast Nat.mul_le_mul_right den this
  have same : ∀ b : Nat, (magOf c * den : ℤ) = magOf b * den → c = b := by
    intro b hb
    have : magOf c * den = magOf b * den := by exact_mod_cast hb
    exact magOf_strictMono.injective (Nat.eq_of_mul_eq_mul_right hd this)
  by_cases hup : den * 2 ^ k < 2 * r ∨ (2 * r = den * 2 ^ k ∧ m % 2 = 1)
  · rw [if_pos hup] at he
    rw [he] at h hne ⊢
    have hup1 : (den : ℤ) * 2 ^ k ≤ 2 * r := by
      have : den * 2 ^ k ≤ 2 * r := by omega
      exact_mod_cast this
    rw [hhi] at h
    push_cast at h
    rw [hnumZ, e2, abs_of_nonneg (by linarith)] at h
    rcases hcZ with hc | hc
    · rw [abs_of_nonpos (by linarith)] at h
      have h2r : (2 * r : ℤ) = den * 2 ^ k := by linarith
      have : 2 * r = den * 2 ^ k := by exact_mod_cast h2r
      omega
    · rw [abs_of_nonneg (by linarith)] at h
      exact absurd (same (k * 2 ^ 23 + (m + 1)) (by rw [hhi]; push_cast; linarith)) hne
  · rw [if_neg hup] at he
    rw [he] at h hne ⊢
    rw [hlo] at h
    push_cast at h
    have hdn1 : (2 * r : ℤ) ≤ den * 2 ^ k := by
      have : 2 * r ≤ den * 2 ^ k := by omega
      exact_mod_cast this
    rw [hnumZ, e1, abs_of_nonpos (by linarith)] at h
    rcases hcZ with hc | hc
    · rw [abs_of_nonpos (by linarith)] at h
      exact absurd (same (k * 2 ^ 23 + m) (by rw [hlo]; push_cast; linarith)) hne
    · rw [abs_of_nonneg (by linarith)] at h
      have h2r : (2 * r : ℤ) = den * 2 ^ k := by linarith
      have : 2 * r = den * 2 ^ k := by exact_mod_cast h2r
      omega

/-- A whole number of at most 24 bits is a magnitude, at any scale of `2^23` units or more. -/
theorem exists_magOf {j e : Nat} (hj : j ≤ 2 ^ 24) (he : 23 ≤ e) : ∃ c, magOf c = j * 2 ^ e := by
  rcases Nat.eq_zero_or_pos j with rfl | h0
  · exact ⟨0, by simp⟩
  · rcases Nat.eq_or_lt_of_le hj with rfl | hlt
    · exact ⟨e * 2 ^ 23 + 2 ^ 24, magOf_scale (.inr (by omega)) (by omega)⟩
    · have hl : j.log2 < 24 := (Nat.log2_lt (by omega)).2 hlt
      have h1 : 2 ^ j.log2 ≤ j := Nat.log2_self_le (by omega)
      have h2 : j < 2 ^ (j.log2 + 1) := Nat.lt_log2_self
      have h3 : j * 2 ^ (23 - j.log2) < 2 ^ 24 := by
        calc j * 2 ^ (23 - j.log2) < 2 ^ (j.log2 + 1) * 2 ^ (23 - j.log2) :=
              Nat.mul_lt_mul_of_pos_right h2 (by positivity)
          _ = 2 ^ 24 := by rw [← Nat.pow_add]; congr 1; omega
      have h4 : 2 ^ 23 ≤ j * 2 ^ (23 - j.log2) := by
        calc 2 ^ 23 = 2 ^ j.log2 * 2 ^ (23 - j.log2) := by rw [← Nat.pow_add]; congr 1; omega
          _ ≤ _ := Nat.mul_le_mul_right _ h1
      refine ⟨(e - (23 - j.log2)) * 2 ^ 23 + j * 2 ^ (23 - j.log2), ?_⟩
      rw [magOf_scale (.inr h4) (by omega), Nat.mul_assoc, ← Nat.pow_add]
      congr 2; omega

/-! ## Order -/

@[simp] theorem magBits_lt (w : Word) : magBits w < 2 ^ 31 := Nat.mod_lt _ (by positivity)

theorem sign_pack {neg : Bool} {m : Nat} (hm : m < 2 ^ 31) : sign (pack neg m) = neg := by
  have h : ∀ n : Nat, n < 2 ^ 32 → (BitVec.ofNat 32 n).getLsbD 31 = decide (2 ^ 31 ≤ n) := by
    intro n hn
    rw [BitVec.getLsbD_ofNat, Nat.testBit_eq_decide_div_mod_eq]
    have : n / 2 ^ 31 % 2 = 1 ↔ 2 ^ 31 ≤ n := by omega
    simp only [Nat.reducePow] at *
    simp [this]
  cases neg
  · simp only [sign, pack]; rw [h _ (by simpa using by omega)]; simp; omega
  · simp only [sign, pack]; rw [h _ (by simpa using by omega)]; simp

theorem magBits_pack {neg : Bool} {m : Nat} (hm : m < 2 ^ 31) : magBits (pack neg m) = m := by
  cases neg <;> simp only [magBits, pack, BitVec.toNat_ofNat] <;> simp <;> omega

theorem key_pack {neg : Bool} {m : Nat} (hm : m < 2 ^ 31) : key (pack neg m) = if neg then -(m : ℤ) else m := by
  simp only [key, sign_pack hm, magBits_pack hm]

theorem scaled_eq (w : Word) : scaled w = if sign w then -(magOf (magBits w) : ℤ) else magOf (magBits w) := by
  simp only [scaled, mag_eq]

/-- The keys are ordered as the values. -/
theorem key_le_iff (a b : Word) : key a ≤ key b ↔ scaled a ≤ scaled b := by
  have h : ∀ x y : Nat, (magOf x : ℤ) ≤ magOf y ↔ (x : ℤ) ≤ y := by
    intro x y; rw [Nat.cast_le, Nat.cast_le]; exact magOf_le_iff
  have hx := h (magBits a) (magBits b)
  have hy := h (magBits b) (magBits a)
  have ha := h (magBits a) 0
  have hb := h (magBits b) 0
  simp only [magOf_zero, Nat.cast_zero] at ha hb
  have pa : (0 : ℤ) ≤ magOf (magBits a) := by positivity
  have pb : (0 : ℤ) ≤ magOf (magBits b) := by positivity
  simp only [key, scaled_eq]
  cases sign a <;> cases sign b <;> simp only [Bool.false_eq_true, if_true, if_false] <;> omega

/-- The value of a datum; an infinity reads as `2^128` with its sign. -/
def val (w : Word) : ℚ := (scaled w : ℚ) / 2 ^ 149

theorem scaled_le_iff (a b : Word) : scaled a ≤ scaled b ↔ val a ≤ val b := by
  unfold val
  rw [div_le_div_iff_of_pos_right (by positivity), Int.cast_le]

theorem key_le_iff_val (a b : Word) : key a ≤ key b ↔ val a ≤ val b := (key_le_iff a b).trans (scaled_le_iff a b)

theorem le_iff {a b : Word} (ha : isNaN a = false) (hb : isNaN b = false) : le a b = true ↔ val a ≤ val b := by
  simp [le, ha, hb, key_le_iff_val]

theorem lt_iff {a b : Word} (ha : isNaN a = false) (hb : isNaN b = false) : lt a b = true ↔ val a < val b := by
  rw [← not_le, ← key_le_iff_val]
  simp [lt, ha, hb]

theorem eq_iff {a b : Word} (ha : isNaN a = false) (hb : isNaN b = false) : eq a b = true ↔ val a = val b := by
  have h : val a = val b ↔ key a = key b := by
    rw [le_antisymm_iff, ← key_le_iff_val, ← key_le_iff_val, ← le_antisymm_iff]
  rw [h]; simp [eq, ha, hb]

theorem isNaN_of_finite {w : Word} (h : isFinite w = true) : isNaN w = false := by
  simp only [isFinite, isNaN, decide_eq_true_eq, decide_eq_false_iff_not] at *; omega

theorem isInf_of_finite {w : Word} (h : isFinite w = true) : isInf w = false := by
  simp only [isFinite, isInf, decide_eq_true_eq, decide_eq_false_iff_not] at *; omega

theorem not_isNaN_of_le {a b : Word} (h : le a b = true) : isNaN a = false ∧ isNaN b = false := by
  simp [le] at h; exact ⟨h.1.1, h.1.2⟩

theorem not_isNaN_pack {neg : Bool} {m : Nat} (hm : m ≤ infBits) : isNaN (pack neg m) = false := by
  have h : m < 2 ^ 31 := Nat.lt_of_le_of_lt hm (by decide)
  simp only [isNaN, magBits_pack h, decide_eq_false_iff_not]; omega

/-- What lies between two finite data is finite. -/
theorem finite_between {a r b : Word} (ha : isFinite a = true) (hb : isFinite b = true)
    (h1 : le a r = true) (h2 : le r b = true) : isFinite r = true := by
  simp only [isFinite, decide_eq_true_eq] at ha hb ⊢
  simp [le] at h1 h2
  have k1 := h1.2
  have k2 := h2.2
  simp only [key] at k1 k2
  have := (h1.1.2)
  cases hs : sign r <;> simp only [hs, Bool.false_eq_true, if_true, if_false] at k1 k2
  · cases hsb : sign b <;> simp only [hsb, Bool.false_eq_true, if_true, if_false] at k2 <;> omega
  · cases hsa : sign a <;> simp only [hsa, Bool.false_eq_true, if_true, if_false] at k1 <;> omega

/-! ## Results of operations -/

/-- `r` is not a NaN and stands to every datum as `x` does: what is needed of `x` rounded. -/
structure Rounds (x : ℚ) (r : Word) : Prop where
  num : isNaN r = false
  le  : ∀ c, isNaN c = false → x ≤ val c → key r ≤ key c
  ge  : ∀ c, isNaN c = false → val c ≤ x → key c ≤ key r

namespace Rounds

variable {x : ℚ} {r c : Word}

theorem le_of (h : Rounds x r) (hc : isNaN c = false) (hx : x ≤ val c) : F32.le r c = true := by
  simp [F32.le, h.num, hc, h.le c hc hx]

theorem ge_of (h : Rounds x r) (hc : isNaN c = false) (hx : val c ≤ x) : F32.le c r = true := by
  simp [F32.le, h.num, hc, h.ge c hc hx]

theorem val_le (h : Rounds x r) (hc : isNaN c = false) (hx : x ≤ val c) : val r ≤ val c :=
  (key_le_iff_val r c).1 (h.le c hc hx)

theorem val_ge (h : Rounds x r) (hc : isNaN c = false) (hx : val c ≤ x) : val c ≤ val r :=
  (key_le_iff_val c r).1 (h.ge c hc hx)

/-- An exact result that is a datum is the result. -/
theorem exact (h : Rounds x r) (hc : isNaN c = false) (hx : val c = x) : val r = x :=
  le_antisymm (hx ▸ h.val_le hc hx.ge) (hx ▸ h.val_ge hc hx.le)

end Rounds

/-- A signed number rounded to magnitude bits. -/
theorem rounds_pack {neg : Bool} {num den : Nat} {x : ℚ} (hd : 0 < den)
    (hx : x = (if neg then -(num : ℚ) else num) / (den * 2 ^ 149)) : Rounds x (pack neg (roundMag num den)) := by
  have hlt : roundMag num den < 2 ^ 31 := Nat.lt_of_le_of_lt (roundMag_le num den) (by decide)
  have hD : (0 : ℚ) < den * 2 ^ 149 := by positivity
  refine ⟨not_isNaN_pack (roundMag_le num den), ?_, ?_⟩
  · intro c hc hle
    have hmc : magBits c ≤ infBits := by simpa [isNaN] using hc
    have hz : (if neg then -(num : ℤ) else num) ≤ scaled c * den := by
      rw [hx, val, div_le_div_iff₀ hD (by positivity)] at hle
      have h' : (if neg then -(num : ℚ) else num) * 2 ^ 149 ≤ ((scaled c : ℚ) * den) * 2 ^ 149 := by
        calc _ ≤ _ := hle
          _ = _ := by ring
      have h'' := le_of_mul_le_mul_right h' (by positivity)
      cases neg <;> simp only [Bool.false_eq_true, if_true, if_false] at h'' ⊢ <;> exact_mod_cast h''
    rw [key_pack hlt, key]
    rw [scaled_eq] at hz
    cases neg <;> cases hs : sign c <;> simp only [hs, Bool.false_eq_true, if_true, if_false] at hz ⊢
    · have : roundBits num den ≤ magBits c := roundBits_le hd (by exact_mod_cast hz)
      rw [roundMag_eq]
      exact_mod_cast le_trans (Nat.min_le_left _ _) this
    · have h0 : (magOf (magBits c) : ℤ) * den ≤ 0 ∧ (num : ℤ) ≤ 0 := by
        constructor <;> nlinarith [show (0 : ℤ) ≤ magOf (magBits c) * den by positivity, show (0 : ℤ) ≤ num by positivity]
      have hn : num = 0 := by have := h0.2; omega
      have hm : magOf (magBits c) * den = 0 := by
        have := h0.1
        have : magOf (magBits c) * den ≤ 0 := by exact_mod_cast this
        omega
      have hm0 : magOf (magBits c) = 0 := by
        rcases Nat.mul_eq_zero.1 hm with h | h
        · exact h
        · omega
      have hc0 : magBits c ≤ 0 := by rw [← magOf_le_iff, hm0]; exact Nat.zero_le _
      have hr0 : roundBits num den ≤ 0 := roundBits_le hd (by rw [hn]; exact Nat.zero_le _)
      have : roundMag num den = 0 := by
        rw [roundMag_eq]; exact Nat.le_zero.1 (le_trans (Nat.min_le_left _ _) hr0)
      omega
    · have : (0 : ℤ) ≤ roundMag num den := by positivity
      have : (0 : ℤ) ≤ magBits c := by positivity
      omega
    · have h1 : magOf (magBits c) * den ≤ num := by
        have : (magOf (magBits c) : ℤ) * den ≤ num := by linarith
        exact_mod_cast this
      have : magBits c ≤ roundMag num den := by
        rw [roundMag_eq]; exact le_min (le_roundBits hd h1) hmc
      omega
  · intro c hc hge
    have hmc : magBits c ≤ infBits := by simpa [isNaN] using hc
    have hz : scaled c * den ≤ (if neg then -(num : ℤ) else num) := by
      rw [hx, val, div_le_div_iff₀ (by positivity) hD] at hge
      have h' : ((scaled c : ℚ) * den) * 2 ^ 149 ≤ (if neg then -(num : ℚ) else num) * 2 ^ 149 := by
        calc _ = _ := by ring
          _ ≤ _ := hge
      have h'' := le_of_mul_le_mul_right h' (by positivity)
      cases neg <;> simp only [Bool.false_eq_true, if_true, if_false] at h'' ⊢ <;> exact_mod_cast h''
    rw [key_pack hlt, key]
    rw [scaled_eq] at hz
    cases neg <;> cases hs : sign c <;> simp only [hs, Bool.false_eq_true, if_true, if_false] at hz ⊢
    · have h1 : magOf (magBits c) * den ≤ num := by exact_mod_cast hz
      have : magBits c ≤ roundMag num den := by
        rw [roundMag_eq]; exact le_min (le_roundBits hd h1) hmc
      exact_mod_cast this
    · have : (0 : ℤ) ≤ roundMag num den := by positivity
      have : (0 : ℤ) ≤ magBits c := by positivity
      omega
    · have h0 : (magOf (magBits c) : ℤ) * den ≤ 0 ∧ (num : ℤ) ≤ 0 := by
        constructor <;> nlinarith [show (0 : ℤ) ≤ magOf (magBits c) * den by positivity, show (0 : ℤ) ≤ num by positivity]
      have hn : num = 0 := by have := h0.2; omega
      have hm : magOf (magBits c) * den = 0 := by
        have := h0.1
        have : magOf (magBits c) * den ≤ 0 := by exact_mod_cast this
        omega
      have hm0 : magOf (magBits c) = 0 := by
        rcases Nat.mul_eq_zero.1 hm with h | h
        · exact h
        · omega
      have hc0 : magBits c ≤ 0 := by rw [← magOf_le_iff, hm0]; exact Nat.zero_le _
      have : (0 : ℤ) ≤ roundMag num den := by positivity
      have hr0 : roundBits num den ≤ 0 := roundBits_le hd (by rw [hn]; exact Nat.zero_le _)
      have : roundMag num den = 0 := by
        rw [roundMag_eq]; exact Nat.le_zero.1 (le_trans (Nat.min_le_left _ _) hr0)
      omega
    · have h1 : num ≤ magOf (magBits c) * den := by
        have : (num : ℤ) ≤ (magOf (magBits c) : ℤ) * den := by linarith
        exact_mod_cast this
      have : roundMag num den ≤ magBits c := by
        rw [roundMag_eq]; exact le_trans (Nat.min_le_left _ _) (roundBits_le hd h1)
      omega

theorem isNaN_negate (w : Word) : isNaN (negate w) = isNaN w := by
  simp only [isNaN, negate, magBits_pack (magBits_lt w)]

theorem isFinite_negate (w : Word) : isFinite (negate w) = isFinite w := by
  simp only [isFinite, negate, magBits_pack (magBits_lt w)]

theorem val_negate (w : Word) : val (negate w) = -val w := by
  simp only [val, scaled_eq, negate, sign_pack (magBits_lt w), magBits_pack (magBits_lt w)]
  cases sign w <;> simp <;> ring

/-- A number by its sign and its absolute value. -/
theorem int_sign_abs (z : ℤ) : (z : ℚ) = if decide (z < 0) then -(z.natAbs : ℚ) else (z.natAbs : ℚ) := by
  rw [Nat.cast_natAbs, Int.cast_abs]
  rcases lt_or_ge z 0 with h | h
  · have hq : (z : ℚ) < 0 := by exact_mod_cast h
    simp [h, abs_of_neg hq]
  · have hq : (0 : ℚ) ≤ z := by exact_mod_cast h
    simp [not_lt.2 h, abs_of_nonneg hq]

theorem rounds_sum (nan : Word) {a b : Word} (ha : isFinite a = true) (hb : isFinite b = true) :
    Rounds (val a + val b) (sum nan a b) := by
  have hx : val a + val b = ((scaled a + scaled b : ℤ) : ℚ) / (((1 : Nat) : ℚ) * 2 ^ 149) := by
    simp only [val]; push_cast; ring
  simp only [sum, isNaN_of_finite ha, isNaN_of_finite hb, isInf_of_finite ha, isInf_of_finite hb, Bool.or_false,
    Bool.false_eq_true, if_false]
  generalize scaled a + scaled b = z at hx
  split
  · rename_i h0
    have h := rounds_pack (neg := sign a && sign b) (num := 0) (den := 1) (x := val a + val b) (by omega)
      (by rw [hx, h0]; simp)
    have hr : roundMag 0 1 = 0 := by decide
    rwa [hr] at h
  · refine rounds_pack (by omega) ?_
    rw [hx]
    congr 1
    exact int_sign_abs z

theorem rounds_add {a b : Word} (ha : isFinite a = true) (hb : isFinite b = true) :
    Rounds (val a + val b) (add a b) := rounds_sum _ ha hb

theorem rounds_sub {a b : Word} (ha : isFinite a = true) (hb : isFinite b = true) :
    Rounds (val a - val b) (sub a b) := by
  have h := rounds_sum (nanResult .sub a b) ha (b := negate b) (by rw [isFinite_negate]; exact hb)
  rw [val_negate, ← sub_eq_add_neg] at h
  exact h

theorem val_sign_mag (w : Word) : val w = (if sign w then -(mag w : ℚ) else mag w) / 2 ^ 149 := by
  simp only [val, scaled]
  cases sign w <;> simp

theorem rounds_mul {a b : Word} (ha : isFinite a = true) (hb : isFinite b = true) :
    Rounds (val a * val b) (mul a b) := by
  simp only [mul, isNaN_of_finite ha, isNaN_of_finite hb, isInf_of_finite ha, isInf_of_finite hb, Bool.or_false,
    Bool.false_eq_true, if_false]
  refine rounds_pack (by positivity) ?_
  rw [val_sign_mag, val_sign_mag]
  cases sign a <;> cases sign b <;> simp <;> ring

theorem rounds_div {a b : Word} (ha : isFinite a = true) (hb : isFinite b = true) (h0 : val b ≠ 0) :
    Rounds (val a / val b) (div a b) := by
  have hm : mag b ≠ 0 := by
    intro h; rw [val_sign_mag, h] at h0; simp at h0
  simp only [div, isNaN_of_finite ha, isNaN_of_finite hb, isInf_of_finite ha, isInf_of_finite hb, Bool.or_false,
    Bool.false_eq_true, if_false, hm]
  refine rounds_pack (Nat.pos_of_ne_zero hm) ?_
  have hq : (mag b : ℚ) ≠ 0 := by exact_mod_cast hm
  rw [val_sign_mag, val_sign_mag]
  cases sign a <;> cases sign b <;> simp <;> field_simp <;> norm_num

/-- A signed number scaled to units. -/
theorem scaled_cast (z : ℤ) :
    (if decide (z < 0) = true then -((z.natAbs * 2 ^ 149 : ℕ) : ℚ) else ((z.natAbs * 2 ^ 149 : ℕ) : ℚ)) = z * 2 ^ 149 := by
  conv_rhs => rw [int_sign_abs z]
  rw [Nat.cast_mul, Nat.cast_pow, Nat.cast_ofNat]
  split <;> ring

theorem rounds_ofInt (n : ℤ) : Rounds n (ofInt n) := by
  refine rounds_pack (by omega) ?_
  rw [scaled_cast, Nat.cast_one, one_mul, mul_div_assoc, div_self (by positivity), mul_one]

theorem rounds_ofDec (d : Dec) : Rounds (d.num / 10 ^ d.scale) (ofDec d) := by
  refine rounds_pack (by positivity) ?_
  rw [scaled_cast, Nat.cast_pow, Nat.cast_ofNat, mul_div_mul_right _ _ (by positivity)]

end Sys2Proof.Machine.F32
end

