-- ==== Sys2Proof/Laws/PerInstr.lean ====
section
/-! SUPPORT. Laws stated for all commands, one lemma per constructor: the encoder puts a command's opcode in `OP`
(spec/30_encoding.md R80, R84). -/

namespace Sys2Proof.Laws

theorem fieldOP_packWord (op : BitVec 8) (e : EngineSel) (a : BitVec 16) (f : BitVec 32) :
    fieldOP (packWord op e a f) = op := by
  apply BitVec.eq_of_getLsbD_eq
  intro i hi
  simp only [fieldOP, packWord, BitVec.getLsbD_extractLsb', BitVec.getLsbD_append]
  have h1 : ¬ 56 + i < 32 := by omega
  have h2 : ¬ 56 + i - 32 < 16 := by omega
  have h3 : ¬ 56 + i - 32 - 16 < 7 := by omega
  have h4 : ¬ 56 + i - 32 - 16 - 7 < 1 := by omega
  have h5 : 56 + i - 32 - 16 - 7 - 1 = i := by omega
  simp [hi, h1, h2, h3, h4, h5]

/-- `OP` of the encoded word is the command's opcode. -/
def OpcodeField.Statement (i : Instr) : Prop := fieldOP (encode i) = opcode i

theorem OpcodeField.nop : OpcodeField.Statement .nop := fieldOP_packWord _ _ _ _
theorem OpcodeField.reset : OpcodeField.Statement .reset := fieldOP_packWord _ _ _ _
theorem OpcodeField.getSampleRate : OpcodeField.Statement .getSampleRate := fieldOP_packWord _ _ _ _
theorem OpcodeField.process (n : BitVec 32) : OpcodeField.Statement (.process n) := fieldOP_packWord _ _ _ _
theorem OpcodeField.setMasterVolume (f : BitVec 32) : OpcodeField.Statement (.setMasterVolume f) := fieldOP_packWord _ _ _ _
theorem OpcodeField.setEngineVolume (e : EngineSel) (f : BitVec 32) : OpcodeField.Statement (.setEngineVolume e f) := fieldOP_packWord _ _ _ _
theorem OpcodeField.noteOn (e : EngineSel) (a : BitVec 16) (f : BitVec 32) : OpcodeField.Statement (.noteOn e a f) := fieldOP_packWord _ _ _ _
theorem OpcodeField.noteOff (e : EngineSel) (a : BitVec 16) : OpcodeField.Statement (.noteOff e a) := fieldOP_packWord _ _ _ _
theorem OpcodeField.stopAllNotes (e : EngineSel) : OpcodeField.Statement (.stopAllNotes e) := fieldOP_packWord _ _ _ _
theorem OpcodeField.setWaveform (e : EngineSel) (a : BitVec 16) : OpcodeField.Statement (.setWaveform e a) := fieldOP_packWord _ _ _ _
theorem OpcodeField.setAttack (e : EngineSel) (f : BitVec 32) : OpcodeField.Statement (.setAttack e f) := fieldOP_packWord _ _ _ _
theorem OpcodeField.setDecay (e : EngineSel) (f : BitVec 32) : OpcodeField.Statement (.setDecay e f) := fieldOP_packWord _ _ _ _
theorem OpcodeField.setSustain (e : EngineSel) (f : BitVec 32) : OpcodeField.Statement (.setSustain e f) := fieldOP_packWord _ _ _ _
theorem OpcodeField.setRelease (e : EngineSel) (f : BitVec 32) : OpcodeField.Statement (.setRelease e f) := fieldOP_packWord _ _ _ _
theorem OpcodeField.setDetune (e : EngineSel) (f : BitVec 32) : OpcodeField.Statement (.setDetune e f) := fieldOP_packWord _ _ _ _
theorem OpcodeField.setGlideTime (e : EngineSel) (f : BitVec 32) : OpcodeField.Statement (.setGlideTime e f) := fieldOP_packWord _ _ _ _
theorem OpcodeField.setFilterCutoff (e : EngineSel) (f : BitVec 32) : OpcodeField.Statement (.setFilterCutoff e f) := fieldOP_packWord _ _ _ _
theorem OpcodeField.setFilterResonance (e : EngineSel) (f : BitVec 32) : OpcodeField.Statement (.setFilterResonance e f) := fieldOP_packWord _ _ _ _
theorem OpcodeField.setFilterMode (e : EngineSel) (a : BitVec 16) : OpcodeField.Statement (.setFilterMode e a) := fieldOP_packWord _ _ _ _
theorem OpcodeField.setFilterEnable (e : EngineSel) (a : BitVec 16) : OpcodeField.Statement (.setFilterEnable e a) := fieldOP_packWord _ _ _ _
theorem OpcodeField.setLfoRate (e : EngineSel) (f : BitVec 32) : OpcodeField.Statement (.setLfoRate e f) := fieldOP_packWord _ _ _ _
theorem OpcodeField.setLfoDepth (e : EngineSel) (f : BitVec 32) : OpcodeField.Statement (.setLfoDepth e f) := fieldOP_packWord _ _ _ _
theorem OpcodeField.setLfoWaveform (e : EngineSel) (a : BitVec 16) : OpcodeField.Statement (.setLfoWaveform e a) := fieldOP_packWord _ _ _ _
theorem OpcodeField.setLfoRoute (e : EngineSel) (a : BitVec 16) : OpcodeField.Statement (.setLfoRoute e a) := fieldOP_packWord _ _ _ _
theorem OpcodeField.setDelayEnable (e : EngineSel) (a : BitVec 16) : OpcodeField.Statement (.setDelayEnable e a) := fieldOP_packWord _ _ _ _
theorem OpcodeField.setDelayTime (e : EngineSel) (f : BitVec 32) : OpcodeField.Statement (.setDelayTime e f) := fieldOP_packWord _ _ _ _
theorem OpcodeField.setDelayFeedback (e : EngineSel) (f : BitVec 32) : OpcodeField.Statement (.setDelayFeedback e f) := fieldOP_packWord _ _ _ _
theorem OpcodeField.setDelayMix (e : EngineSel) (f : BitVec 32) : OpcodeField.Statement (.setDelayMix e f) := fieldOP_packWord _ _ _ _
theorem OpcodeField.setReverbEnable (e : EngineSel) (a : BitVec 16) : OpcodeField.Statement (.setReverbEnable e a) := fieldOP_packWord _ _ _ _
theorem OpcodeField.setReverbRoom (e : EngineSel) (f : BitVec 32) : OpcodeField.Statement (.setReverbRoom e f) := fieldOP_packWord _ _ _ _
theorem OpcodeField.setReverbDamp (e : EngineSel) (f : BitVec 32) : OpcodeField.Statement (.setReverbDamp e f) := fieldOP_packWord _ _ _ _
theorem OpcodeField.setTremoloEnable (e : EngineSel) (a : BitVec 16) : OpcodeField.Statement (.setTremoloEnable e a) := fieldOP_packWord _ _ _ _
theorem OpcodeField.setTremoloRate (e : EngineSel) (f : BitVec 32) : OpcodeField.Statement (.setTremoloRate e f) := fieldOP_packWord _ _ _ _
theorem OpcodeField.setTremoloDepth (e : EngineSel) (f : BitVec 32) : OpcodeField.Statement (.setTremoloDepth e f) := fieldOP_packWord _ _ _ _
theorem OpcodeField.setFlangerEnable (e : EngineSel) (a : BitVec 16) : OpcodeField.Statement (.setFlangerEnable e a) := fieldOP_packWord _ _ _ _
theorem OpcodeField.setFlangerRate (e : EngineSel) (f : BitVec 32) : OpcodeField.Statement (.setFlangerRate e f) := fieldOP_packWord _ _ _ _
theorem OpcodeField.setFlangerDepth (e : EngineSel) (f : BitVec 32) : OpcodeField.Statement (.setFlangerDepth e f) := fieldOP_packWord _ _ _ _
theorem OpcodeField.setFlangerFeedback (e : EngineSel) (f : BitVec 32) : OpcodeField.Statement (.setFlangerFeedback e f) := fieldOP_packWord _ _ _ _
theorem OpcodeField.setFlangerMix (e : EngineSel) (f : BitVec 32) : OpcodeField.Statement (.setFlangerMix e f) := fieldOP_packWord _ _ _ _

end Sys2Proof.Laws
end

