-- ==== Sys2Proof/Laws/State.lean ====
section
/-! SUPPORT. One lemma per field of `State` and update, so that no proof unfolds an update. -/

namespace Sys2Proof.Machine

namespace State

section Updates

variable {α : Type}

/-! ## `updEngine` -/

@[simp] theorem updEngine_cfg (s : State α) (e : EngineSel) (g : EngineState α → EngineState α) :
    (s.updEngine e g).cfg = s.cfg := by cases e <;> rfl
@[simp] theorem updEngine_masterVol (s : State α) (e : EngineSel) (g : EngineState α → EngineState α) :
    (s.updEngine e g).masterVol = s.masterVol := by cases e <;> rfl
@[simp] theorem updEngine_volLive (s : State α) (e : EngineSel) (g : EngineState α → EngineState α) :
    (s.updEngine e g).volLive = s.volLive := by cases e <;> rfl
@[simp] theorem updEngine_volTimeline (s : State α) (e : EngineSel) (g : EngineState α → EngineState α) :
    (s.updEngine e g).volTimeline = s.volTimeline := by cases e <;> rfl
@[simp] theorem updEngine_busy (s : State α) (e : EngineSel) (g : EngineState α → EngineState α) :
    (s.updEngine e g).busy = s.busy := by cases e <;> rfl
@[simp] theorem updEngine_outPort (s : State α) (e : EngineSel) (g : EngineState α → EngineState α) :
    (s.updEngine e g).outPort = s.outPort := by cases e <;> rfl
@[simp] theorem updEngine_outStream (s : State α) (e : EngineSel) (g : EngineState α → EngineState α) :
    (s.updEngine e g).outStream = s.outStream := by cases e <;> rfl
@[simp] theorem updEngine_rsp (s : State α) (e : EngineSel) (g : EngineState α → EngineState α) :
    (s.updEngine e g).rsp = s.rsp := by cases e <;> rfl
@[simp] theorem updEngine_cmdIn (s : State α) (e : EngineSel) (g : EngineState α → EngineState α) :
    (s.updEngine e g).cmdIn = s.cmdIn := by cases e <;> rfl
@[simp] theorem updEngine_outReady (s : State α) (e : EngineSel) (g : EngineState α → EngineState α) :
    (s.updEngine e g).outReady = s.outReady := by cases e <;> rfl
@[simp] theorem updEngine_outReadyEnd (s : State α) (e : EngineSel) (g : EngineState α → EngineState α) :
    (s.updEngine e g).outReadyEnd = s.outReadyEnd := by cases e <;> rfl
@[simp] theorem updEngine_rst (s : State α) (e : EngineSel) (g : EngineState α → EngineState α) :
    (s.updEngine e g).rst = s.rst := by cases e <;> rfl
@[simp] theorem updEngine_live_live (s : State α) (g : EngineState α → EngineState α) :
    (s.updEngine .live g).live = g s.live := rfl
@[simp] theorem updEngine_live_timeline (s : State α) (g : EngineState α → EngineState α) :
    (s.updEngine .live g).timeline = s.timeline := rfl
@[simp] theorem updEngine_timeline_live (s : State α) (g : EngineState α → EngineState α) :
    (s.updEngine .timeline g).live = s.live := rfl
@[simp] theorem updEngine_timeline_timeline (s : State α) (g : EngineState α → EngineState α) :
    (s.updEngine .timeline g).timeline = g s.timeline := rfl
@[simp] theorem engine_live (s : State α) : s.engine .live = s.live := rfl
@[simp] theorem engine_timeline (s : State α) : s.engine .timeline = s.timeline := rfl
@[simp] theorem updEngine_engine_same (s : State α) (e : EngineSel) (g : EngineState α → EngineState α) :
    (s.updEngine e g).engine e = g (s.engine e) := by cases e <;> rfl
theorem updEngine_engine_other (s : State α) (e e' : EngineSel) (g : EngineState α → EngineState α)
    (h : e' ≠ e) : (s.updEngine e g).engine e' = s.engine e' := by
  cases e <;> cases e' <;> simp_all
@[simp] theorem updEngine_vol (s : State α) (e e' : EngineSel) (g : EngineState α → EngineState α) :
    (s.updEngine e g).vol e' = s.vol e' := by cases e <;> cases e' <;> rfl

/-! ## `setVol` -/

@[simp] theorem setVol_cfg (s : State α) (e : EngineSel) (v : α) : (s.setVol e v).cfg = s.cfg := by cases e <;> rfl
@[simp] theorem setVol_masterVol (s : State α) (e : EngineSel) (v : α) : (s.setVol e v).masterVol = s.masterVol := by cases e <;> rfl
@[simp] theorem setVol_busy (s : State α) (e : EngineSel) (v : α) : (s.setVol e v).busy = s.busy := by cases e <;> rfl
@[simp] theorem setVol_live (s : State α) (e : EngineSel) (v : α) : (s.setVol e v).live = s.live := by cases e <;> rfl
@[simp] theorem setVol_timeline (s : State α) (e : EngineSel) (v : α) : (s.setVol e v).timeline = s.timeline := by cases e <;> rfl
@[simp] theorem setVol_outPort (s : State α) (e : EngineSel) (v : α) : (s.setVol e v).outPort = s.outPort := by cases e <;> rfl
@[simp] theorem setVol_outStream (s : State α) (e : EngineSel) (v : α) : (s.setVol e v).outStream = s.outStream := by cases e <;> rfl
@[simp] theorem setVol_rsp (s : State α) (e : EngineSel) (v : α) : (s.setVol e v).rsp = s.rsp := by cases e <;> rfl
@[simp] theorem setVol_cmdIn (s : State α) (e : EngineSel) (v : α) : (s.setVol e v).cmdIn = s.cmdIn := by cases e <;> rfl
@[simp] theorem setVol_outReady (s : State α) (e : EngineSel) (v : α) : (s.setVol e v).outReady = s.outReady := by cases e <;> rfl
@[simp] theorem setVol_outReadyEnd (s : State α) (e : EngineSel) (v : α) : (s.setVol e v).outReadyEnd = s.outReadyEnd := by cases e <;> rfl
@[simp] theorem setVol_rst (s : State α) (e : EngineSel) (v : α) : (s.setVol e v).rst = s.rst := by cases e <;> rfl
@[simp] theorem setVol_vol_same (s : State α) (e : EngineSel) (v : α) : (s.setVol e v).vol e = v := by
  cases e <;> rfl
theorem setVol_vol_other (s : State α) (e e' : EngineSel) (v : α) (h : e' ≠ e) :
    (s.setVol e v).vol e' = s.vol e' := by
  cases e <;> cases e' <;> first | rfl | exact absurd rfl h
@[simp] theorem setVol_engine (s : State α) (e e' : EngineSel) (v : α) :
    (s.setVol e v).engine e' = s.engine e' := by cases e <;> cases e' <;> rfl

/-! ## `respond` -/

@[simp] theorem respond_cfg (s : State α) (w : BitVec 32) : (s.respond w).cfg = s.cfg := rfl
@[simp] theorem respond_masterVol (s : State α) (w : BitVec 32) : (s.respond w).masterVol = s.masterVol := rfl
@[simp] theorem respond_volLive (s : State α) (w : BitVec 32) : (s.respond w).volLive = s.volLive := rfl
@[simp] theorem respond_volTimeline (s : State α) (w : BitVec 32) : (s.respond w).volTimeline = s.volTimeline := rfl
@[simp] theorem respond_busy (s : State α) (w : BitVec 32) : (s.respond w).busy = s.busy := rfl
@[simp] theorem respond_live (s : State α) (w : BitVec 32) : (s.respond w).live = s.live := rfl
@[simp] theorem respond_timeline (s : State α) (w : BitVec 32) : (s.respond w).timeline = s.timeline := rfl
@[simp] theorem respond_outPort (s : State α) (w : BitVec 32) : (s.respond w).outPort = s.outPort := rfl
@[simp] theorem respond_outStream (s : State α) (w : BitVec 32) : (s.respond w).outStream = s.outStream := rfl
@[simp] theorem respond_rsp (s : State α) (w : BitVec 32) : (s.respond w).rsp = s.rsp ++ [w] := rfl
@[simp] theorem respond_cmdIn (s : State α) (w : BitVec 32) : (s.respond w).cmdIn = s.cmdIn := rfl
@[simp] theorem respond_outReady (s : State α) (w : BitVec 32) : (s.respond w).outReady = s.outReady := rfl
@[simp] theorem respond_outReadyEnd (s : State α) (w : BitVec 32) : (s.respond w).outReadyEnd = s.outReadyEnd := rfl
@[simp] theorem respond_rst (s : State α) (w : BitVec 32) : (s.respond w).rst = s.rst := rfl

/-! ## `emit` -/

@[simp] theorem emit_cfg (s : State α) (xs : List OutSample) : (s.emit xs).cfg = s.cfg := rfl
@[simp] theorem emit_masterVol (s : State α) (xs : List OutSample) : (s.emit xs).masterVol = s.masterVol := rfl
@[simp] theorem emit_volLive (s : State α) (xs : List OutSample) : (s.emit xs).volLive = s.volLive := rfl
@[simp] theorem emit_volTimeline (s : State α) (xs : List OutSample) : (s.emit xs).volTimeline = s.volTimeline := rfl
@[simp] theorem emit_busy (s : State α) (xs : List OutSample) : (s.emit xs).busy = s.busy := rfl
@[simp] theorem emit_live (s : State α) (xs : List OutSample) : (s.emit xs).live = s.live := rfl
@[simp] theorem emit_timeline (s : State α) (xs : List OutSample) : (s.emit xs).timeline = s.timeline := rfl
@[simp] theorem emit_outPort (s : State α) (xs : List OutSample) : (s.emit xs).outPort = s.outPort ++ xs := rfl
@[simp] theorem emit_outStream (s : State α) (xs : List OutSample) : (s.emit xs).outStream = s.outStream := rfl
@[simp] theorem emit_rsp (s : State α) (xs : List OutSample) : (s.emit xs).rsp = s.rsp := rfl
@[simp] theorem emit_cmdIn (s : State α) (xs : List OutSample) : (s.emit xs).cmdIn = s.cmdIn := rfl
@[simp] theorem emit_outReady (s : State α) (xs : List OutSample) : (s.emit xs).outReady = s.outReady := rfl
@[simp] theorem emit_outReadyEnd (s : State α) (xs : List OutSample) : (s.emit xs).outReadyEnd = s.outReadyEnd := rfl
@[simp] theorem emit_rst (s : State α) (xs : List OutSample) : (s.emit xs).rst = s.rst := rfl

/-! ## `take` and `drain`: only the ports and `busy` move -/

@[simp] theorem take_cfg (s : State α) : s.take.cfg = s.cfg := by unfold take; split <;> rfl
@[simp] theorem take_masterVol (s : State α) : s.take.masterVol = s.masterVol := by unfold take; split <;> rfl
@[simp] theorem take_volLive (s : State α) : s.take.volLive = s.volLive := by unfold take; split <;> rfl
@[simp] theorem take_volTimeline (s : State α) : s.take.volTimeline = s.volTimeline := by unfold take; split <;> rfl
@[simp] theorem take_live (s : State α) : s.take.live = s.live := by unfold take; split <;> rfl
@[simp] theorem take_timeline (s : State α) : s.take.timeline = s.timeline := by unfold take; split <;> rfl
@[simp] theorem take_rsp (s : State α) : s.take.rsp = s.rsp := by unfold take; split <;> rfl
@[simp] theorem take_cmdIn (s : State α) : s.take.cmdIn = s.cmdIn := by unfold take; split <;> rfl
@[simp] theorem take_outReadyEnd (s : State α) : s.take.outReadyEnd = s.outReadyEnd := by unfold take; split <;> rfl
@[simp] theorem take_rst (s : State α) : s.take.rst = s.rst := by unfold take; split <;> rfl
@[simp] theorem take_outReady (s : State α) : s.take.outReady = s.outReady := by unfold take; split <;> rfl
theorem take_cons {s : State α} {x : OutSample} {xs : List OutSample} (h : s.outPort = x :: xs) :
    s.take = { s with busy := !x.last, outPort := xs, outStream := s.outStream ++ [x] } := by unfold take; rw [h]

@[simp] theorem drain_cfg (s : State α) : s.drain.cfg = s.cfg := by simp only [drain]; split <;> simp
@[simp] theorem drain_masterVol (s : State α) : s.drain.masterVol = s.masterVol := by simp only [drain]; split <;> simp
@[simp] theorem drain_volLive (s : State α) : s.drain.volLive = s.volLive := by simp only [drain]; split <;> simp
@[simp] theorem drain_volTimeline (s : State α) : s.drain.volTimeline = s.volTimeline := by simp only [drain]; split <;> simp
@[simp] theorem drain_live (s : State α) : s.drain.live = s.live := by simp only [drain]; split <;> simp
@[simp] theorem drain_timeline (s : State α) : s.drain.timeline = s.timeline := by simp only [drain]; split <;> simp
@[simp] theorem drain_rsp (s : State α) : s.drain.rsp = s.rsp := by simp only [drain]; split <;> simp
@[simp] theorem drain_cmdIn (s : State α) : s.drain.cmdIn = s.cmdIn := by simp only [drain]; split <;> simp
@[simp] theorem drain_outReadyEnd (s : State α) : s.drain.outReadyEnd = s.outReadyEnd := by simp only [drain]; split <;> simp
@[simp] theorem drain_rst (s : State α) : s.drain.rst = s.rst := by simp only [drain]; split <;> simp
@[simp] theorem drain_outReady (s : State α) : s.drain.outReady = s.outReady.tail := by simp only [drain]; split <;> simp
theorem drain_ready {s : State α} (h : s.hostReady = true) :
    s.drain = ({ s with outReady := s.outReady.tail } : State α).take := by simp only [drain, h, if_true]
theorem drain_stalled {s : State α} (h : s.hostReady = false) : s.drain = { s with outReady := s.outReady.tail } := by
  simp [drain, h]

/-! ## `afterReset` -/

@[simp] theorem afterReset_cfg (N : Numerics α) (s : State α) : (s.afterReset N).cfg = s.cfg := rfl
@[simp] theorem afterReset_masterVol (N : Numerics α) (s : State α) : (s.afterReset N).masterVol = (State.resetAt N s.cfg).masterVol := rfl
@[simp] theorem afterReset_volLive (N : Numerics α) (s : State α) : (s.afterReset N).volLive = (State.resetAt N s.cfg).volLive := rfl
@[simp] theorem afterReset_volTimeline (N : Numerics α) (s : State α) : (s.afterReset N).volTimeline = (State.resetAt N s.cfg).volTimeline := rfl
@[simp] theorem afterReset_busy (N : Numerics α) (s : State α) : (s.afterReset N).busy = (State.resetAt N s.cfg).busy := rfl
@[simp] theorem afterReset_live (N : Numerics α) (s : State α) : (s.afterReset N).live = (State.resetAt N s.cfg).live := rfl
@[simp] theorem afterReset_timeline (N : Numerics α) (s : State α) : (s.afterReset N).timeline = (State.resetAt N s.cfg).timeline := rfl
@[simp] theorem afterReset_outPort (N : Numerics α) (s : State α) : (s.afterReset N).outPort = (State.resetAt N s.cfg).outPort := rfl
@[simp] theorem afterReset_outStream (N : Numerics α) (s : State α) : (s.afterReset N).outStream = (State.resetAt N s.cfg).outStream := rfl
@[simp] theorem afterReset_rsp (N : Numerics α) (s : State α) : (s.afterReset N).rsp = (State.resetAt N s.cfg).rsp := rfl
@[simp] theorem afterReset_cmdIn (N : Numerics α) (s : State α) : (s.afterReset N).cmdIn = s.cmdIn := rfl
@[simp] theorem afterReset_outReady (N : Numerics α) (s : State α) : (s.afterReset N).outReady = s.outReady := rfl
@[simp] theorem afterReset_outReadyEnd (N : Numerics α) (s : State α) : (s.afterReset N).outReadyEnd = s.outReadyEnd := rfl
@[simp] theorem afterReset_rst (N : Numerics α) (s : State α) : (s.afterReset N).rst = s.rst := rfl

end Updates

/-! ## `withFetchWord` -/

@[simp] theorem withFetchWord_cfg (s : State) (n w : Nat) : (s.withFetchWord n w).cfg = s.cfg := rfl
@[simp] theorem withFetchWord_masterVol (s : State) (n w : Nat) : (s.withFetchWord n w).masterVol = s.masterVol := rfl
@[simp] theorem withFetchWord_volLive (s : State) (n w : Nat) : (s.withFetchWord n w).volLive = s.volLive := rfl
@[simp] theorem withFetchWord_volTimeline (s : State) (n w : Nat) : (s.withFetchWord n w).volTimeline = s.volTimeline := rfl
@[simp] theorem withFetchWord_busy (s : State) (n w : Nat) : (s.withFetchWord n w).busy = false := rfl
@[simp] theorem withFetchWord_live (s : State) (n w : Nat) : (s.withFetchWord n w).live = s.live := rfl
@[simp] theorem withFetchWord_timeline (s : State) (n w : Nat) : (s.withFetchWord n w).timeline = s.timeline := rfl
@[simp] theorem withFetchWord_rsp (s : State) (n w : Nat) : (s.withFetchWord n w).rsp = s.rsp := rfl
@[simp] theorem withFetchWord_cmdIn (s : State) (n w : Nat) :
    (s.withFetchWord n w).cmdIn = BitVec.ofNat 64 (w % 2 ^ n) :: s.cmdIn := rfl
@[simp] theorem withFetchWord_outReady (s : State) (n w : Nat) : (s.withFetchWord n w).outReady = s.outReady := rfl
@[simp] theorem withFetchWord_outReadyEnd (s : State) (n w : Nat) : (s.withFetchWord n w).outReadyEnd = s.outReadyEnd := rfl
@[simp] theorem withFetchWord_rst (s : State) (n w : Nat) : (s.withFetchWord n w).rst = false := rfl

end State

/-! ## The hardware instance's fields -/

@[simp] theorem hw_add : hw.add = F32.add := rfl
@[simp] theorem hw_sub : hw.sub = F32.sub := rfl
@[simp] theorem hw_mul : hw.mul = F32.mul := rfl
@[simp] theorem hw_div : hw.div = F32.div := rfl
@[simp] theorem hw_lt : hw.lt = F32.lt := rfl
@[simp] theorem hw_le : hw.le = F32.le := rfl
@[simp] theorem hw_eq : hw.eq = F32.eq := rfl
@[simp] theorem hw_floor : hw.floor = F32.floor := rfl
@[simp] theorem hw_abs : hw.abs = F32.abs := rfl
@[simp] theorem hw_ofInt : hw.ofInt = F32.ofInt := rfl
@[simp] theorem hw_ofDec : hw.ofDec = F32.ofDec := rfl
@[simp] theorem hw_toNat : hw.toNat = F32.toNat := rfl
@[simp] theorem hw_toBits32 : hw.toBits32 = F32.toBits32 := rfl
@[simp] theorem hw_sin2pi : hw.sin2pi = F32.sin2pi := rfl
@[simp] theorem hw_exp2 : hw.exp2 = F32.exp2 := rfl
@[simp] theorem hw_ofBits32 (w : Word) : hw.ofBits32 w = w := rfl
theorem hw_zero : hw.zero = 0#32 := by decide
theorem hw_one : hw.one = 0x3F800000#32 := by decide
theorem hw_half : hw.half = 0x3F000000#32 := by decide

/-! ## A command with a `Num` operand -/

theorem withNum_nan {α : Type} (N : Numerics α) {f : BitVec 32} (h : F32.isNaN f = true) (s : State α) (k : α → State α) :
    withNum N f s k = .next s := by simp [withNum, h]

theorem withNum_num {α : Type} (N : Numerics α) {f : BitVec 32} (h : F32.isNaN f = false) (s : State α) (k : α → State α) :
    withNum N f s k = .next (k (N.ofBits32 f)) := by simp [withNum, h]

theorem blockLength_le (C : Config) (n : BitVec 32) : blockLength C n ≤ C.blockMax := Nat.min_le_right _ _

/-! ## The machine is the hardware instance of the machine at any numerics record -/

theorem exec_eq_execAt (i : Instr) (s : State) : exec i s = execAt hw i s := by cases i <;> rfl

theorem step_eq_stepAt (s : State) : step s = stepAt hw s := by
  unfold step stepAt
  rw [show exec = execAt hw from funext fun i => funext fun s => exec_eq_execAt i s]

/-! ## What a step can do -/

/-- Every next state of a step, at any numerics: the hardware reset, an output step, an idle step, or a command's. -/
theorem stepWith_cases {α : Type} {N : Numerics α} {ex : Instr → State α → Host.Outcome (State α) Fault Refusal}
    {s t : State α} (h : stepWith N ex s = .next t) :
    s.cfg.wf = true ∧
    ((s.rst = true ∧ t = { s.afterReset N with rst := false }) ∨
     (s.rst = false ∧ s.busy = true ∧ t = s.drain) ∨
     (s.rst = false ∧ s.busy = false ∧ s.cmdIn = [] ∧ t = s) ∨
     (s.rst = false ∧ s.busy = false ∧
       ∃ w rest, s.cmdIn = w :: rest ∧ ex (decode w).executedAs { s with cmdIn := rest } = .next t)) := by
  unfold stepWith at h
  split at h
  case isFalse => cases h
  case isTrue hwf =>
    refine ⟨hwf, ?_⟩
    split at h
    case isTrue hr => cases h; exact .inl ⟨hr, rfl⟩
    case isFalse hr =>
      have hr : s.rst = false := by simpa using hr
      split at h
      case isTrue hb => cases h; exact .inr (.inl ⟨hr, hb, rfl⟩)
      case isFalse hb =>
        have hb : s.busy = false := by simpa using hb
        split at h
        case h_1 hc => cases h; exact .inr (.inr (.inl ⟨hr, hb, hc, rfl⟩))
        case h_2 w rest hc => exact .inr (.inr (.inr ⟨hr, hb, w, rest, hc, h⟩))

/-- The same of the machine. -/
theorem step_cases {s t : State} (h : step s = .next t) :
    s.cfg.wf = true ∧
    ((s.rst = true ∧ t = { s.afterReset hw with rst := false }) ∨
     (s.rst = false ∧ s.busy = true ∧ t = s.drain) ∨
     (s.rst = false ∧ s.busy = false ∧ s.cmdIn = [] ∧ t = s) ∨
     (s.rst = false ∧ s.busy = false ∧
       ∃ w rest, s.cmdIn = w :: rest ∧ exec (decode w).executedAs { s with cmdIn := rest } = .next t)) :=
  stepWith_cases h

end Sys2Proof.Machine
end

