-- ==== Sys2Proof/Tests/Slice0.lean ====
section
/-! SUPPORT. Small tests of single steps and decodings, each expected value taken from spec/95_test_vectors.md or from
the rule named (none was read off the model), and one witness for the hypotheses of every statement. -/

namespace Sys2Proof.Tests

open Sys2Proof.Machine

-- One theorem after the other: elaborated side by side, so many evaluations at once run out of threads.
set_option Elab.async false

/-! ## Well-formedness -/

theorem test_wf_stopAllNotes : Instr.wf (.stopAllNotes .live) = false ∧ Instr.wf (.stopAllNotes .timeline) = true := by
  decide

theorem test_cfg_default : Config.wf Config.default = true := by decide

/-- R9, each constraint violated alone, and the boundary values that satisfy it. -/
theorem test_cfg_refused_rates :
    Config.wf { Config.default with fs := 999, delayLen := 1998 } = false ∧
    Config.wf { Config.default with fs := 1000, delayLen := 2000 } = true ∧
    Config.wf { Config.default with fs := 192001, delayLen := 384002 } = false ∧
    Config.wf { Config.default with fs := 192000, delayLen := 384000 } = true := by decide

theorem test_cfg_refused_sizes :
    Config.wf { Config.default with nvoices := 0 } = false ∧
    Config.wf { Config.default with nengines := 1 } = false ∧
    Config.wf { Config.default with blockMax := 0 } = false ∧
    Config.wf { Config.default with blockMax := 2 ^ 32 } = false ∧
    Config.wf { Config.default with delayLen := 88199 } = false ∧
    Config.wf { Config.default with delayMaxS := ⟨0, 0⟩, delayLen := 0 } = false ∧
    Config.wf { Config.default with flLen := 221 } = false ∧
    Config.wf { Config.default with flLen := 222 } = true := by decide

theorem test_cfg_refused_lines :
    Config.wf { Config.default with combLen := ⟨0, 1188, 1277, 1356⟩ } = false ∧
    Config.wf { Config.default with combLen := ⟨1116, 0, 1277, 1356⟩ } = false ∧
    Config.wf { Config.default with combLen := ⟨1116, 1188, 0, 1356⟩ } = false ∧
    Config.wf { Config.default with combLen := ⟨1116, 1188, 1277, 0⟩ } = false ∧
    Config.wf { Config.default with apLen := ⟨0, 441⟩ } = false ∧
    Config.wf { Config.default with apLen := ⟨556, 0⟩ } = false := by decide

theorem test_cfg_refused_coefficients :
    Config.wf { Config.default with qMin := ⟨0, 0⟩ } = false ∧
    Config.wf { Config.default with qMin := ⟨708, 3⟩ } = false ∧
    Config.wf { Config.default with qBase := ⟨2, 0⟩ } = false ∧
    Config.wf { Config.default with fbMax := ⟨-1, 2⟩ } = false ∧
    Config.wf { Config.default with fbMax := ⟨1, 0⟩ } = false ∧
    Config.wf { Config.default with revFbScale := ⟨3, 1⟩ } = false ∧
    Config.wf { Config.default with revDampScale := ⟨-1, 1⟩ } = false ∧
    Config.wf { Config.default with revDampScale := ⟨1, 0⟩ } = false := by decide

/-! ## Decoding: words written out from 30_encoding.md R80, R84, R90 and the vectors -/

theorem test_decode_system :
    decode 0x0000000000000000#64 = .command .nop ∧
    decode 0x0100000000000000#64 = .command .reset ∧
    decode 0x0200000000000000#64 = .command .getSampleRate ∧
    decode 0x0300000000000080#64 = .command (.process 128#32) ∧
    decode 0x04000000BF800000#64 = .command (.setMasterVolume 0xBF800000#32) ∧
    decode 0x0580000040000000#64 = .command (.setEngineVolume .timeline 0x40000000#32) := by decide

theorem test_decode_notes :
    decode 0x108000513F000000#64 = .command (.noteOn .timeline 81#16 0x3F000000#32) ∧
    decode 0x1100004500000000#64 = .command (.noteOff .live 69#16) ∧
    decode 0x1280000000000000#64 = .command (.stopAllNotes .timeline) := by decide

theorem test_decode_voice :
    decode 0x2000000200000000#64 = .command (.setWaveform .live 2#16) ∧
    decode 0x2100000041300000#64 = .command (.setAttack .live 0x41300000#32) ∧
    decode 0x228000003E800000#64 = .command (.setDecay .timeline 0x3E800000#32) ∧
    decode 0x230000003FC00000#64 = .command (.setSustain .live 0x3FC00000#32) ∧
    decode 0x240000007F800000#64 = .command (.setRelease .live 0x7F800000#32) ∧
    decode 0x25000000C59C4000#64 = .command (.setDetune .live 0xC59C4000#32) ∧
    decode 0x2600000042C80000#64 = .command (.setGlideTime .live 0x42C80000#32) := by decide

theorem test_decode_filter_lfo :
    decode 0x3080000043FA0000#64 = .command (.setFilterCutoff .timeline 0x43FA0000#32) ∧
    decode 0x310000003F000000#64 = .command (.setFilterResonance .live 0x3F000000#32) ∧
    decode 0x3200FFFF00000000#64 = .command (.setFilterMode .live 0xFFFF#16) ∧
    decode 0x3300010000000000#64 = .command (.setFilterEnable .live 0x0100#16) ∧
    decode 0x3800000041C80000#64 = .command (.setLfoRate .live 0x41C80000#32) ∧
    decode 0x3900000040000000#64 = .command (.setLfoDepth .live 0x40000000#32) ∧
    decode 0x3A00000900000000#64 = .command (.setLfoWaveform .live 9#16) ∧
    decode 0x3B00000100000000#64 = .command (.setLfoRoute .live 1#16) := by decide

theorem test_decode_delay_reverb :
    decode 0x4000000100000000#64 = .command (.setDelayEnable .live 1#16) ∧
    decode 0x4100000040400000#64 = .command (.setDelayTime .live 0x40400000#32) ∧
    decode 0x420000003F800000#64 = .command (.setDelayFeedback .live 0x3F800000#32) ∧
    decode 0x430000003FC00000#64 = .command (.setDelayMix .live 0x3FC00000#32) ∧
    decode 0x4880000100000000#64 = .command (.setReverbEnable .timeline 1#16) ∧
    decode 0x4900000040000000#64 = .command (.setReverbRoom .live 0x40000000#32) ∧
    decode 0x4A000000C0000000#64 = .command (.setReverbDamp .live 0xC0000000#32) := by decide

theorem test_decode_tremolo_flanger :
    decode 0x5080000100000000#64 = .command (.setTremoloEnable .timeline 1#16) ∧
    decode 0x5100000042C80000#64 = .command (.setTremoloRate .live 0x42C80000#32) ∧
    decode 0x520000003F800000#64 = .command (.setTremoloDepth .live 0x3F800000#32) ∧
    decode 0x5880000100000000#64 = .command (.setFlangerEnable .timeline 1#16) ∧
    decode 0x590000003E800000#64 = .command (.setFlangerRate .live 0x3E800000#32) ∧
    decode 0x5A0000003FC00000#64 = .command (.setFlangerDepth .live 0x3FC00000#32) ∧
    decode 0x5B0000003F7D70A4#64 = .command (.setFlangerFeedback .live 0x3F7D70A4#32) ∧
    decode 0x5C000000BDCCCCCD#64 = .command (.setFlangerMix .live 0xBDCCCCCD#32) := by decide

/-- V-DEC-2 to V-DEC-10: ignored fields and reserved words. -/
theorem test_decode_ignored :
    decode 0x10FF00453F800000#64 = .command (.noteOn .timeline 69#16 0x3F800000#32) ∧
    decode 0x0300FFFF00000008#64 = .command (.process 8#32) ∧
    decode 0x03FF000000000002#64 = .command (.process 2#32) ∧
    decode 0x048000003F000000#64 = .command (.setMasterVolume 0x3F000000#32) ∧
    decode 0x1280FFFFFFFFFFFF#64 = .command (.stopAllNotes .timeline) ∧
    decode 0x110000457FC00000#64 = .command (.noteOff .live 69#16) := by decide

theorem test_decode_reserved :
    decode 0x0600000000000000#64 = .reservedOpcode 0x06#8 ∧
    decode 0x1200000000000000#64 = .reservedStopAllLive ∧
    decode 0xFF8012347FC00000#64 = .reservedOpcode 0xFF#8 := by decide

/-- 20_memory.md R63: a serialised word comes least significant byte first. -/
theorem test_decode_bytes :
    decodeBytes [0x00#8, 0x00#8, 0x80#8, 0xBF#8, 0x00#8, 0x00#8, 0x00#8, 0x04#8, 0x55#8] =
      .word (.command (.setMasterVolume 0xBF800000#32)) [0x55#8] ∧
    decodeBytes [0x00#8] = .short [0x00#8] := by decide

theorem test_tableWord :
    decodeTableWord 64 0x1100004500000000 = some (.noteOff .live 69#16) ∧ decodeTableWord 64 0x0600000000000000 = none := by
  decide

/-! ## Operands (R83; V-DEC-12 to V-DEC-15) -/

theorem test_operands :
    noteOperand 200#16 = 127 ∧ noteOperand 0xFFFF#16 = 0 ∧ boolOperand 0x0100#16 = true ∧ boolOperand 0#16 = false ∧
    waveformOperand 0xFFFF#16 = .sine ∧ waveformOperand 4#16 = .triangle ∧ waveformOperand 0x8000#16 = .sine ∧
    waveformOperand 2#16 = .square ∧ modeOperand 3#16 = .bandPass ∧ modeOperand 0xFFFF#16 = .lowPass := by decide

/-! ## One command each (the setter vectors) -/

/-- The test configuration of 95_test_vectors.md section 0. -/
def cfg : Config := { Config.default with fs := 32768, delayLen := 65536 }

/-- What `get` finds in the state after one step on the command word `w`, from a state. -/
def stepFrom {β : Type} (s : State) (w : CmdWord) (get : State → β) : Option β :=
  match step { s with cmdIn := [w] } with
  | .next t => some (get t)
  | _ => none

/-- From reset. -/
def after {β : Type} (w : CmdWord) (get : State → β) : Option β := stepFrom (State.resetWith cfg) w get

theorem test_masterVolume :
    after 0x04000000BF800000#64 (·.masterVol) = some 0#32 ∧ after 0x040000007FC00000#64 (·.masterVol) = some 0x3F800000#32 ∧
    after 0x0400000080000000#64 (·.masterVol) = some 0x80000000#32 := by decide +kernel

theorem test_engineVolume :
    after 0x0580000040000000#64 (fun t => (t.volTimeline, t.volLive)) = some (0x3E99999A#32, 0x3E99999A#32) ∧
    after 0x050000003E000000#64 (fun t => (t.volLive, t.volTimeline)) = some (0x3E000000#32, 0x3E99999A#32) := by
  decide +kernel

theorem test_sampleRate :
    after 0x0200000000000000#64 (·.rsp) = some [0x00008000#32] ∧
    stepFrom State.reset 0x0200000000000000#64 (·.rsp) = some [0x0000AC44#32] := by decide +kernel

theorem test_waveform :
    after 0x2000000200000000#64 (·.live.prm.waveform) = some .square ∧
    after 0x2000000200000000#64 (·.timeline.prm.waveform) = some .sine := by decide +kernel

theorem test_attack :
    after 0x21000000BF800000#64 (·.live.prm.attack) = some 0#32 ∧
    after 0x2100000041300000#64 (·.live.prm.attack) = some 0x41200000#32 := by decide +kernel

theorem test_decay :
    after 0x228000003E800000#64 (fun t => (t.timeline.prm.decay, t.live.prm.decay)) =
      some (0x3E800000#32, 0x3DCCCCCD#32) := by decide +kernel

theorem test_sustain : after 0x230000003FC00000#64 (·.live.prm.sustain) = some 0x3F800000#32 := by decide +kernel

theorem test_release : after 0x240000007F800000#64 (·.live.prm.release) = some 0x41200000#32 := by decide +kernel

theorem test_detune :
    after 0x25000000C59C4000#64 (·.live.prm.detune) = some 0xC4960000#32 ∧
    after 0x25000000FFC00000#64 (·.live.prm.detune) = some 0#32 := by decide +kernel

theorem test_glideTime :
    after 0x260000004E6E6B28#64 (·.live.prm.glideMs) = some 0x459C4000#32 ∧
    after 0x26000000C0400000#64 (·.live.prm.glideMs) = some 0#32 := by decide +kernel

theorem test_filterCutoff :
    after 0x3000000047BB8000#64 (fun t => (t.live.baseCutoff, t.live.flt.cutoff)) = some (0x469C4000#32, 0x469C4000#32) ∧
    after 0x30000000FF800000#64 (fun t => (t.live.flt.cutoff, t.timeline.flt.cutoff)) =
      some (0x41A00000#32, 0x447A0000#32) := by decide +kernel

theorem test_filterResonance :
    after 0x310000003F000000#64 (·.live.flt.q) = some 0x3EC1CAC1#32 ∧
    after 0x3100000040E00000#64 (·.live.flt.q) = some 0x3D4CCCD0#32 := by decide +kernel

theorem test_filterMode : after 0x3200000300000000#64 (·.live.fltMode) = some .bandPass := by decide +kernel

theorem test_filterEnable :
    after 0x3300010000000000#64 (·.live.fltEnable) = some true ∧
    after 0x33000000FFFFFFFF#64 (·.live.fltEnable) = some false := by decide +kernel

theorem test_lfoRate : after 0x3800000041C80000#64 (·.live.lfo.rate) = some 0x41A00000#32 := by decide +kernel

theorem test_lfoDepth : after 0x3900000040000000#64 (·.live.lfo.depth) = some 0x3F800000#32 := by decide +kernel

theorem test_lfoWaveform : after 0x3A00000900000000#64 (·.live.lfo.waveform) = some .triangle := by decide +kernel

/-- R163: switching the route off restores the base cutoff. -/
theorem test_lfoRoute :
    after 0x3B00000100000000#64 (·.live.lfoRoute) = some true ∧
    stepFrom ((State.resetWith cfg).updEngine .live fun E => { E with lfoRoute := true, flt := { E.flt with cutoff := 0x45800000#32 } })
      0x3B00000000000000#64 (fun t => (t.live.lfoRoute, t.live.flt.cutoff)) = some (false, 0x447A0000#32) := by
  decide +kernel

theorem test_delayEnable : after 0x4000000100000000#64 (·.live.dlyEnable) = some true := by decide +kernel

theorem test_delayTime : after 0x4100000040400000#64 (·.live.dly.time) = some 0x40000000#32 := by decide +kernel

theorem test_delayFeedback : after 0x420000003F800000#64 (·.live.dly.feedback) = some 0x3F733333#32 := by decide +kernel

theorem test_delayMix : after 0x430000003FC00000#64 (·.live.dly.mix) = some 0x3F800000#32 := by decide +kernel

theorem test_reverbEnable :
    after 0x4880000100000000#64 (fun t => (t.timeline.revEnable, t.live.revEnable)) = some (true, false) := by
  decide +kernel

theorem test_reverbRoom : after 0x4900000040000000#64 (·.live.rev.room) = some 0x3F800000#32 := by decide +kernel

theorem test_reverbDamp : after 0x4A000000C0000000#64 (·.live.rev.damp) = some 0#32 := by decide +kernel

theorem test_tremoloEnable :
    after 0x5080000100000000#64 (fun t => (t.timeline.trmEnable, t.live.trmEnable)) = some (true, false) := by
  decide +kernel

theorem test_tremoloRate : after 0x5100000042C80000#64 (·.live.trm.rate) = some 0x41A00000#32 := by decide +kernel

theorem test_tremoloDepth : after 0x520000003F800000#64 (·.live.trm.depth) = some 0x3F800000#32 := by decide +kernel

theorem test_flangerEnable :
    after 0x5880000100000000#64 (fun t => (t.timeline.flgEnable, t.live.flgEnable)) = some (true, false) := by
  decide +kernel

theorem test_flangerRate : after 0x590000003E800000#64 (·.live.flg.rate) = some 0x3E800000#32 := by decide +kernel

theorem test_flangerDepth : after 0x5A0000003FC00000#64 (·.live.flg.depth) = some 0x3F800000#32 := by decide +kernel

theorem test_flangerFeedback : after 0x5B0000003F7D70A4#64 (·.live.flg.feedback) = some 0x3F733333#32 := by decide +kernel

theorem test_flangerMix : after 0x5C000000BDCCCCCD#64 (·.live.flg.mix) = some 0#32 := by decide +kernel

/-! ## Notes -/

/-- P1, command 9: voice 0, 440 Hz at once, Attack from level 0, velocity 1; voice 1 untouched. -/
theorem test_noteOn :
    after 0x100000453F800000#64 (fun t => t.live.voices.take 2) = some
      [⟨⟨0#32, 0#32⟩, ⟨.attack, 0#32⟩, ⟨0x43DC0000#32, 0x43DC0000#32, 0#32⟩, true, 0, 0x3F800000#32⟩, Spec.silentVoice] := by
  decide +kernel

/-- V-DEC-11: a NaN velocity allocates no voice. -/
theorem test_noteOn_nan : after 0x100000457FC00000#64 (fun t => t.live.voices.head?) = some (some Spec.silentVoice) := by
  decide +kernel

/-- A voice at 440.0, silent or in Sustain at level 1. -/
def at440 (stage : Stage) (level : Word) (current : Word) : VoiceState Word :=
  ⟨⟨0#32, 0x43DC0000#32⟩, ⟨stage, level⟩, ⟨current, 0x43DC0000#32, 0#32⟩, false, 2, 0x3F800000#32⟩

/-- V-ENG-3, V-ENG-4: 440.0999 matches, silent as the voice is; 440.1 does not (R216). -/
theorem test_noteOff :
    stepFrom ((State.resetWith cfg).updEngine .live fun E =>
        { E with voices := [at440 .idle 0#32 0x43DC0CCA#32, at440 .idle 0#32 0x43DC0CCD#32] }) 0x1100004500000000#64
      (fun t => t.live.voices.map fun v => v.env.stage) = some [.release, .idle] := by decide +kernel

/-- V-ENG-5 and R219: only the sounding voice is released; the live engine keeps playing. -/
theorem test_stopAllNotes :
    stepFrom ((State.resetWith cfg).updEngine .timeline fun E =>
        { E with voices := [at440 .idle 0#32 0#32, at440 .sustain 0x3F800000#32 0#32] }) 0x1280000000000000#64
      (fun t => t.timeline.voices.map fun v => v.env.stage) = some [.idle, .release] := by decide +kernel

theorem test_stopAllNotes_live :
    stepFrom ((State.resetWith cfg).updEngine .live fun E => { E with voices := [at440 .sustain 0x3F800000#32 0#32] })
      0x1200000000000000#64 (fun t => t.live.voices.map fun v => v.env.stage) = some [.sustain] := by decide +kernel

/-- V-ENG-2: ages 3, 9, 9, 1, all sounding, none releasing: voice 1. -/
theorem test_allocate_oldest :
    allocate ([3, 9, 9, 1].map fun a => { at440 .sustain 0x3F800000#32 0#32 with active := true, age := a }) = 1 := by
  decide

/-- P6: of releasing voices the older one, although active ones are older. -/
theorem test_allocate_releasing :
    allocate ([(4, true), (2, false), (3, false), (4, true)].map fun p =>
      { at440 .sustain 0x3F800000#32 0#32 with active := p.2, age := p.1 }) = 2 := by decide

/-! ## PROCESS and the ports -/

/-- T7: from reset a block of four emits four +0, the last one marked, and the block is busy. -/
theorem test_process_silent :
    after 0x0300000000000004#64 (fun t => (t.outPort, t.busy)) =
      some ([⟨0#32, false⟩, ⟨0#32, false⟩, ⟨0#32, false⟩, ⟨0#32, true⟩], true) := by decide +kernel

/-- V-MIX-4: PROCESS 0 emits nothing and ages a sounding voice. -/
theorem test_process_zero :
    stepFrom ((State.resetWith cfg).updEngine .live fun E => { E with voices := [at440 .sustain 0x3F800000#32 0#32] })
      0x0300000000000000#64 (fun t => (t.outPort, t.busy, t.live.voices.map fun v => v.age)) = some ([], false, [3]) := by
  decide +kernel

/-- V-MIX-1 (R296): 0.5*0.25*0.5 + (-0.25)*0.25*0.5 = 0.03125. -/
theorem test_mix :
    mix hw 0x3F000000#32 0xBE800000#32 0x3E800000#32 0x3E800000#32 0x3F000000#32 = 0x3D000000#32 := by decide

/-- V-MIX-5 (R292). -/
theorem test_blockLength :
    blockLength Config.default 0x1388#32 = 4096 ∧ blockLength Config.default 0xFFFFFFFF#32 = 4096 ∧
    blockLength Config.default 7#32 = 7 := by decide

/-- A block with two samples waiting. -/
def inFlight : State :=
  { State.reset with busy := true, outPort := [⟨1#32, false⟩, ⟨2#32, true⟩], cmdIn := [0#64], outReady := [false] }

/-- The same, its host never ready again; and ready at once. -/
def stalled : State := { inFlight with outReady := [], outReadyEnd := false }
def draining : State := { inFlight with outReady := [] }

/-- R71: `out_ready` low moves nothing; taking the marked sample ends the block. -/
theorem test_output :
    (match step inFlight with | .next t => some (t.outPort.length, t.busy, t.cmdIn) | _ => none) = some (2, true, [0#64]) ∧
    (match step { inFlight with outReady := [], outPort := [⟨2#32, true⟩] } with
      | .next t => some (t.outPort, t.busy, t.outStream) | _ => none) = some ([], false, [⟨2#32, true⟩]) := by
  decide +kernel

/-- U12 (R361): a host that has stopped taking samples keeps the block busy, nothing moved. -/
theorem test_endless_stall :
    (match step stalled with
      | .next t => some (t.outPort.length, t.busy, t.cmdIn) | _ => none) = some (2, true, [0#64]) := by decide +kernel

/-- R350: RESET after a change; hardware reset in the middle of a block. -/
theorem test_reset :
    stepFrom { State.reset with masterVol := 0#32, rsp := [1#32] } 0x0100000000000000#64 (fun t => (t.masterVol, t.rsp)) =
      some (0x3F800000#32, []) ∧
    (match step { inFlight with rst := true } with | .next t => some (t.outPort, t.busy, t.rst) | _ => none) =
      some ([], false, false) := by decide +kernel

theorem test_badConfig :
    (match step { State.reset with cfg := { Config.default with fs := 0 } } with
      | .refused .badConfig => true | _ => false) = true := by decide +kernel

/-! ## Units (95_test_vectors.md 2.4 to 2.13) -/

/-- The parameters of a voice with this waveform and detune. -/
def params (w : Waveform) (detune : Word) : VoiceParams Word := ⟨w, 0#32, 0#32, 0x3F800000#32, 0#32, detune, 0#32⟩

/-- V-OSC-2 at the fourth call (0.5 is not below 0.5), V-OSC-3 and V-OSC-7 at the first, V-OSC-5 at the first. -/
theorem test_oscillator :
    OscState.process hw cfg (params .square 0#32) ⟨0x3EC00000#32, 0x45800000#32⟩ =
      (⟨0x3F000000#32, 0x45800000#32⟩, 0xBF800000#32) ∧
    (OscState.process hw cfg (params .triangle 0#32) ⟨0#32, 0x45800000#32⟩).2 = 0xBF000000#32 ∧
    (OscState.process hw cfg (params .saw 0#32) ⟨0#32, 0x47200000#32⟩).2 = 0xBF000000#32 ∧
    OscState.process hw cfg (params .saw 0x44960000#32) ⟨0#32, 0x45000000#32⟩ =
      (⟨0x3E000000#32, 0x45000000#32⟩, 0xBF400000#32) := by decide +kernel

/-- V-OSC-9 at 44100 Hz, second call, and V-OSC-4 at the first. -/
theorem test_oscillator_rounded :
    OscState.process hw Config.default (params .saw 0#32) ⟨0x3C2377EE#32, 0x43DC0000#32⟩ =
      (⟨0x3CA377EE#32, 0x43DC0000#32⟩, 0xBF75C881#32) ∧
    (OscState.process hw cfg (params .sine 0#32) ⟨0#32, 0x46000000#32⟩).2 = 0x3F800000#32 := by decide +kernel

/-- V-ENV-1's registers. -/
def adsr : VoiceParams Word := ⟨.sine, 0x39000000#32, 0x39800000#32, 0x3F000000#32, 0x39000000#32, 0#32, 0#32⟩

/-- V-ENV-1: the steps into Decay, into Sustain and into Idle. -/
theorem test_envelope :
    EnvState.process hw cfg adsr ⟨.attack, 0x3F400000#32⟩ = (⟨.decay, 0x3F800000#32⟩, 0x3F800000#32) ∧
    EnvState.process hw cfg adsr ⟨.decay, 0x3F800000#32⟩ = (⟨.decay, 0x3F600000#32⟩, 0x3F600000#32) ∧
    EnvState.process hw cfg adsr ⟨.decay, 0x3F200000#32⟩ = (⟨.sustain, 0x3F000000#32⟩, 0x3F000000#32) ∧
    EnvState.process hw cfg adsr ⟨.release, 0x3E800000#32⟩ = (⟨.idle, 0#32⟩, 0#32) := by decide +kernel

/-- V-ENV-7: a level below sustain is not raised; V-ENV-8: the default steps at 44100 Hz. -/
theorem test_envelope_corners :
    EnvState.process hw cfg { adsr with sustain := 0x3F400000#32 } ⟨.decay, 0x3F000000#32⟩ =
      (⟨.sustain, 0x3F000000#32⟩, 0x3F000000#32) ∧
    envStep hw Config.default 0x3C23D70A#32 = 0x3B149B93#32 ∧ envStep hw Config.default 0x3DCCCCCD#32 = 0x396DC5B8#32 ∧
    envStep hw Config.default 0x3E99999A#32 = 0x389E83CF#32 := by decide +kernel

/-- A glide time. -/
def gliding (ms : Word) : VoiceParams Word := ⟨.sine, 0#32, 0#32, 0#32, 0#32, 0#32, ms⟩

/-- V-GL-1, V-GL-5, V-GL-7: `setTarget`, and the last step shortened. -/
theorem test_glide :
    GlideState.setTarget hw cfg (gliding 0x3E7A0000#32) ⟨0x435C0000#32, 0#32, 0#32⟩ 0x43DC0000#32 =
      ⟨0x435C0000#32, 0x43DC0000#32, 0x41DC0000#32⟩ ∧
    GlideState.setTarget hw cfg (gliding 0#32) ⟨0x435C0000#32, 0#32, 0#32⟩ 0x43DC0000#32 =
      ⟨0x43DC0000#32, 0x43DC0000#32, 0#32⟩ ∧
    (GlideState.process hw (gliding 0x3D9C4000#32) ⟨0x42A00000#32, 0x42C80000#32, 0x42200000#32⟩).2 = 0x42C80000#32 := by
  decide +kernel

/-- V-GL-9: a step absorbed by rounding snaps; V-GL-4: a glide time set to 0 snaps. -/
theorem test_glide_snap :
    (GlideState.process hw (gliding 0x3E7A0000#32) ⟨0x46000000#32, 0x4602D000#32, 0x3951B717#32⟩).2 = 0x4602D000#32 ∧
    (GlideState.process hw (gliding 0#32) ⟨0x43898000#32, 0x43DC0000#32, 0x41DC0000#32⟩).2 = 0x43DC0000#32 := by
  decide +kernel

/-- V-LFO-2: the square at depth 1 on a base cutoff of 1000: 2000; landing on phase 0.5: 0, clamped to 20. -/
theorem test_lfoStage :
    (EngineState.lfoStage hw cfg { EngineState.reset hw cfg with
      lfo := ⟨0#32, 0x41800000#32, 0x3F800000#32, .square⟩ }).flt.cutoff = 0x44FA0000#32 ∧
    (EngineState.lfoStage hw cfg { EngineState.reset hw cfg with
      lfo := ⟨0x3EFFC000#32, 0x41800000#32, 0x3F800000#32, .square⟩ }).flt.cutoff = 0x41A00000#32 := by decide +kernel

/-- V-FLT-2, second sample. -/
theorem test_filter :
    let t := FilterState.step hw cfg ⟨0#32, 0x3E800000#32, 0x3F800000#32, 0x3F800000#32, 0x45800000#32, 0x3F34FDF4#32⟩ 0#32
    t.low = 0x3D800000#32 ∧ t.high = 0xBE74FDF4#32 ∧ t.band = 0x3E42C083#32 := by decide +kernel

/-- V-FLT-4 (R171). -/
theorem test_normFreq :
    FilterState.normFreq hw cfg ⟨0#32, 0#32, 0#32, 0#32, 0x469C4000#32, 0#32⟩ = 0x3F000000#32 ∧
    FilterState.normFreq hw Config.default ⟨0#32, 0#32, 0#32, 0#32, 0x447A0000#32, 0#32⟩ = 0x3D39C278#32 := by decide +kernel

/-- V-DLY-1, third sample, and V-DLY-2 (R241). -/
theorem test_delay :
    DelayState.process hw cfg ⟨0x38800000#32, 0x3F000000#32, 0x3F000000#32, 2, [(0, 0x3F800000#32)]⟩ 0#32 =
      (⟨0x38800000#32, 0x3F000000#32, 0x3F000000#32, 3, [(0, 0x3F800000#32), (2, 0x3F000000#32)]⟩, 0x3F000000#32) ∧
    DelayState.samples hw Config.default ⟨0#32, 0#32, 0#32, 0, []⟩ = 1 ∧
    DelayState.samples hw Config.default ⟨0x3E99999A#32, 0#32, 0#32, 0, []⟩ = 13230 ∧
    DelayState.samples hw Config.default ⟨0x40000000#32, 0#32, 0#32, 0, []⟩ = 88200 := by decide +kernel

/-- V-REV-1, step 0 (0.7). -/
theorem test_reverb :
    (ReverbState.process hw Config.default (ReverbState.reset hw) 0x3F800000#32).2 = 0x3F333333#32 := by decide +kernel

/-- V-TRM-2, V-TRM-3: sine 1 and -1 at depth 1; V-TRM-5: phase 0, depth 0.5. -/
theorem test_tremolo :
    (TremoloState.process hw cfg ⟨0x41800000#32, 0x3F800000#32, 0x3E7F8000#32⟩ 0x3F4CCCCD#32).2 = 0#32 ∧
    (TremoloState.process hw cfg ⟨0x41800000#32, 0x3F800000#32, 0x3F3FE000#32⟩ 0x3F4CCCCD#32).2 = 0x3F4CCCCD#32 ∧
    (TremoloState.process hw cfg ⟨0#32, 0x3F000000#32, 0#32⟩ 0x3F800000#32).2 = 0x3F400000#32 := by decide +kernel

/-- V-FLG-1: 0.5 at step 0; at step 44 the impulse is read at a whole delay of 44 samples (0.44999886), at step 45 at 45
(0.05000114). -/
theorem test_flanger :
    (FlangerState.process hw Config.default ⟨0#32, 0#32, 0#32, 0x3F000000#32, 0#32, 0, []⟩ 0x3F800000#32).2 =
      0x3F000000#32 ∧
    (let y := (FlangerState.process hw Config.default ⟨0#32, 0#32, 0#32, 0x3F000000#32, 0#32, 44, [(0, 0x3F800000#32)]⟩ 0#32).2
     F32.lt 0x3EE66620#32 y && F32.lt y 0x3EE6665A#32) = true ∧
    (let y := (FlangerState.process hw Config.default ⟨0#32, 0#32, 0#32, 0x3F000000#32, 0#32, 45, [(0, 0x3F800000#32)]⟩ 0#32).2
     F32.lt 0x3D4CCCD0#32 y && F32.lt y 0x3D4CD200#32) = true := by decide +kernel

/-! ## Binary32 (IEEE 754, by hand) -/

/-- 1 + 2^-24 is a tie and goes to even; 1 + 3*2^-24 goes up; the smallest subnormal halved is a tie with 0; overflow. -/
theorem test_rounding :
    F32.add 0x3F800000#32 0x33800000#32 = 0x3F800000#32 ∧ F32.add 0x3F800001#32 0x33800000#32 = 0x3F800002#32 ∧
    F32.mul 0x00000001#32 0x3F000000#32 = 0x00000000#32 ∧ F32.mul 0x00000003#32 0x3F000000#32 = 0x00000002#32 ∧
    F32.add 0x7F7FFFFF#32 0x7F7FFFFF#32 = 0x7F800000#32 ∧ F32.div 0x3F800000#32 0x40400000#32 = 0x3EAAAAAB#32 := by decide

/-- Zeros, infinities, floor. -/
theorem test_specials :
    F32.sub 0x3F800000#32 0x3F800000#32 = 0#32 ∧ F32.add 0x80000000#32 0x80000000#32 = 0x80000000#32 ∧
    F32.div 0xBF800000#32 0#32 = 0xFF800000#32 ∧ F32.floor 0xBF000000#32 = 0xBF800000#32 ∧
    F32.floor 0x40600000#32 = 0x40400000#32 ∧ F32.eq 0#32 0x80000000#32 = true ∧ F32.lt 0xFF800000#32 0xFF7FFFFF#32 = true := by
  decide

/-! ## Witnesses: data that meet the hypotheses of each statement, clause by clause -/

/-- A state that presents one word. -/
def presents (w : CmdWord) : State := { State.reset with cmdIn := [w] }

theorem presents_accepts (w : CmdWord) : Spec.Accepts (presents w) w [] := ⟨test_cfg_default, rfl, rfl, rfl⟩

theorem witness_DecodeEncode :
    Instr.wf (.stopAllNotes .timeline) = true ∧ Instr.wf (.setFlangerMix .live 0xFFFFFFFF#32) = true ∧
    ∃ r ∈ Spec.opcodeMap, encode (.stopAllNotes .timeline) &&& r.mask = r.pattern :=
  ⟨by decide, by decide, ⟨0x1280000000000000#64, 0xFF80000000000000#64, .E0, fun _ => .stopAllNotes .timeline⟩,
    by simp [Spec.opcodeMap, Spec.rowsNotes], by decide⟩

theorem witness_UnreadBitsIgnored :
    ∃ r ∈ Spec.opcodeMap, 0x03FFFFFF00000002#64 &&& r.mask = r.pattern :=
  ⟨Spec.row 0x03 .N fun w => .process (Spec.F w), by simp [Spec.opcodeMap, Spec.rowsSystem], by decide⟩

theorem witness_ReservedWords :
    Spec.Accepts (presents 0x0600000000000000#64) 0x0600000000000000#64 [] ∧ Spec.Reserved 0x0600000000000000#64 ∧
    Spec.Reserved 0x1200000000000000#64 ∧ Spec.Reserved 0xFF8012347FC00000#64 ∧ Spec.Reserved 0x5DFFFFFFFFFFFFFF#64 :=
  ⟨presents_accepts _, by unfold Spec.Reserved Spec.OP; decide, by unfold Spec.Reserved Spec.OP; decide,
    by unfold Spec.Reserved Spec.OP; decide, by unfold Spec.Reserved Spec.OP; decide⟩

theorem witness_StepRunsCommand :
    (Spec.Accepts (presents 0x0300000000000080#64) 0x0300000000000080#64 [] ∧
      decode 0x0300000000000080#64 = .command (.process 128#32)) ∧
    (Instr.wf .getSampleRate = true ∧
      Spec.Accepts (presents (encode .getSampleRate)) (encode .getSampleRate) []) ∧
    (State.reset.cfg.wf = true ∧ State.reset.rst = false ∧ State.reset.busy = false ∧ State.reset.cmdIn = []) :=
  ⟨⟨presents_accepts _, by decide⟩, ⟨by decide, presents_accepts _⟩, by decide, rfl, rfl, rfl⟩

theorem witness_OutputStep :
    (inFlight.cfg.wf = true ∧ inFlight.rst = false ∧ inFlight.busy = true ∧
      inFlight.outReady.headD inFlight.outReadyEnd = false) ∧
    stalled.outReady.headD stalled.outReadyEnd = false ∧
    (draining.outReady.headD draining.outReadyEnd = true ∧ draining.outPort = ⟨1#32, false⟩ :: [⟨2#32, true⟩]) :=
  ⟨⟨by decide, rfl, rfl, rfl⟩, rfl, rfl, rfl⟩

theorem witness_BlockIsDelivered :
    (inFlight.cfg.wf = true ∧ State.wf inFlight = true ∧ inFlight.rst = false ∧ inFlight.busy = true ∧
      inFlight.outReady = List.replicate 1 false) ∧
    (inFlight.outReadyEnd = true ∧ 0 < 1 + inFlight.outPort.length) ∧
    (stalled.cfg.wf = true ∧ State.wf stalled = true ∧ stalled.rst = false ∧ stalled.busy = true ∧
      stalled.outReady = List.replicate 0 false ∧ stalled.outReadyEnd = false) :=
  ⟨⟨by decide, by decide +kernel, rfl, rfl, rfl⟩, ⟨rfl, by decide⟩, by decide, by decide +kernel, rfl, rfl, rfl, rfl⟩

theorem witness_ResetEffect :
    ({ inFlight with rst := true } : State).cfg.wf = true ∧ ({ inFlight with rst := true } : State).rst = true :=
  ⟨by decide, rfl⟩

theorem witness_ConfigConstraints :
    Config.wf { Config.default with fs := 1000, delayLen := 2000 } = true ∧
    ({ State.reset with cfg := { Config.default with nengines := 3 } } : State).cfg.wf = false := by decide

theorem witness_NeverFails : State.reset.cfg.wf = true := by decide

theorem witness_ResetMeetsInvariants : Config.wf cfg = true ∧ 1 ≤ cfg.flLen ∧ hasDefaultBounds cfg = true := by decide

/-- From reset with a word on the port: both invariants hold, and the step answers a next state. -/
theorem witness_StepKeepsWf :
    State.wf (presents 0x0300000000000002#64) = true ∧
    ∃ t, step (presents 0x0300000000000002#64) = .next t ∧ t.busy = true := by
  refine ⟨by decide +kernel, ?_⟩
  have h : stepFrom State.reset 0x0300000000000002#64 (·.busy) = some true := by decide +kernel
  unfold stepFrom at h
  unfold presents
  split at h
  · rename_i t ht; exact ⟨t, ht, by simpa using h⟩
  · simp at h

theorem witness_StepKeepsRanges :
    hasDefaultBounds (presents 0x3B00000100000000#64).cfg = true ∧
    State.inRanges (presents 0x3B00000100000000#64) = true ∧
    step (presents 0x3B00000100000000#64) =
      .next (State.reset.updEngine .live fun E => { E with lfoRoute := true }) := by
  refine ⟨by decide, by decide +kernel, ?_⟩
  simp only [step, stepWith, (presents_accepts _).cfg, if_true]; rfl

theorem witness_ConfigIsConstant :
    step State.reset = .next State.reset ∧ Spec.run 3 State.reset = .next State.reset := by
  have h : step State.reset = .next State.reset := by
    simp only [step, stepWith, show State.reset.cfg.wf = true from test_cfg_default, if_true]; rfl
  exact ⟨h, by simp only [Spec.run, Host.Core.run, core, h]⟩

/-- R29: an Idle voice at a level that is not 0 is out of range; R28: so is a negative frequency; R30: the NaN step of two
infinite frequencies is not. -/
theorem test_voice_ranges :
    VoiceState.inRanges cfg { Spec.silentVoice with env := ⟨.idle, 0x3F800000#32⟩ } = false ∧
    VoiceState.inRanges cfg { Spec.silentVoice with env := ⟨.release, 0x3F800000#32⟩ } = true ∧
    VoiceState.inRanges cfg { Spec.silentVoice with osc := ⟨0#32, 0xBF800000#32⟩ } = false ∧
    VoiceState.inRanges cfg { Spec.silentVoice with gl := ⟨0x7F800000#32, 0x7F800000#32, 0x7FC00000#32⟩ } = true := by
  decide +kernel

/-- The words of each setter's opcode. -/
theorem witness_setter_words :
    Spec.OP 0x0000000000000000#64 = 0x00 ∧ Spec.OP 0x02FFFFFFFFFFFFFF#64 = 0x02 ∧
    Spec.OP 0x04000000BF800000#64 = 0x04 ∧ Spec.OP 0x0580000040000000#64 = 0x05 ∧
    Spec.OP 0x2000000200000000#64 = 0x20 ∧ Spec.OP 0x2100000041300000#64 = 0x21 ∧
    Spec.OP 0x228000003E800000#64 = 0x22 ∧ Spec.OP 0x230000003FC00000#64 = 0x23 ∧
    Spec.OP 0x240000007F800000#64 = 0x24 ∧ Spec.OP 0x25000000C59C4000#64 = 0x25 ∧
    Spec.OP 0x2600000042C80000#64 = 0x26 ∧ Spec.OP 0x3080000043FA0000#64 = 0x30 ∧
    Spec.OP 0x310000003F000000#64 = 0x31 ∧ Spec.OP 0x3200FFFF00000000#64 = 0x32 ∧
    Spec.OP 0x3300010000000000#64 = 0x33 ∧ Spec.OP 0x3800000041C80000#64 = 0x38 ∧
    Spec.OP 0x3900000040000000#64 = 0x39 ∧ Spec.OP 0x3A00000900000000#64 = 0x3A ∧
    Spec.OP 0x3B00000100000000#64 = 0x3B := by decide

theorem witness_effect_words :
    Spec.OP 0x4000000100000000#64 = 0x40 ∧ Spec.OP 0x4100000040400000#64 = 0x41 ∧
    Spec.OP 0x420000003F800000#64 = 0x42 ∧ Spec.OP 0x430000003FC00000#64 = 0x43 ∧
    Spec.OP 0x4880000100000000#64 = 0x48 ∧ Spec.OP 0x4900000040000000#64 = 0x49 ∧
    Spec.OP 0x4A000000C0000000#64 = 0x4A ∧ Spec.OP 0x5080000100000000#64 = 0x50 ∧
    Spec.OP 0x5100000042C80000#64 = 0x51 ∧ Spec.OP 0x520000003F800000#64 = 0x52 ∧
    Spec.OP 0x5880000100000000#64 = 0x58 ∧ Spec.OP 0x590000003E800000#64 = 0x59 ∧
    Spec.OP 0x5A0000003FC00000#64 = 0x5A ∧ Spec.OP 0x5B0000003F7D70A4#64 = 0x5B ∧
    Spec.OP 0x5C000000BDCCCCCD#64 = 0x5C := by decide

theorem witness_ResonanceCorners :
    cfg.qBase = Config.default.qBase ∧ cfg.qMin = Config.default.qMin ∧
    F32.le 0x00000000#32 0#32 = true ∧ F32.le 0x80000000#32 0#32 = true ∧ F32.le 0xFF800000#32 0#32 = true ∧
    F32.le 0x3F800000#32 0x3F800000#32 = true ∧ F32.le 0x3F800000#32 0x7F800000#32 = true := by decide

theorem witness_NanOperandDiscards :
    Spec.numOperand (.setMasterVolume 0x7FC00000#32) = some 0x7FC00000#32 ∧ Spec.IsNaN 0x7FC00000#32 ∧
    Spec.IsNaN 0xFF800001#32 ∧ ¬Spec.IsNaN 0x7F800000#32 ∧ Spec.Reserved 0xFF8012347FC00000#64 :=
  ⟨rfl, by decide, by decide, by decide, by unfold Spec.Reserved Spec.OP; decide⟩

theorem witness_EngineSeparation :
    Spec.engineOf (.noteOn .live 69#16 0x3F800000#32) = some .live ∧ EngineSel.timeline ≠ EngineSel.live := by decide

/-- A sounding voice of this age; releasing when `active` is false. -/
def sounding (active : Bool) (age : Nat) : VoiceState Word :=
  { at440 .sustain 0x3F800000#32 0x43DC0000#32 with active := active, age := age }

/-- A pool with a silent voice; one with releasing voices; one with none. -/
theorem witness_AllocationPolicy :
    (∃ y ∈ [sounding true 5, Spec.silentVoice], ¬Spec.Sounding y) ∧
    ((∀ y ∈ [sounding true 5, sounding false 2], Spec.Sounding y) ∧
      ∃ y ∈ [sounding true 5, sounding false 2], Spec.Releasing y) ∧
    ((∀ y ∈ [sounding true 5, sounding true 5], Spec.Sounding y) ∧
      ∀ y ∈ [sounding true 5, sounding true 5], ¬Spec.Releasing y) := by decide

theorem witness_NoteOnEffect :
    Spec.OP 0x10FF00453F800000#64 = 0x10 ∧ Spec.IsNaN 0x7FC00000#32 ∧ ¬Spec.IsNaN 0x3F800000#32 ∧
    (State.reset.engine .live).voices[allocate (State.reset.engine .live).voices]? = some Spec.silentVoice := by
  decide +kernel

theorem witness_NoteOffEffect : Spec.OP 0x110000457FC00000#64 = 0x11 := by decide

theorem witness_StopAllNotesEffect :
    (Spec.OP 0x1280FFFFFFFFFFFF#64 = 0x12 ∧ Spec.E 0x1280FFFFFFFFFFFF#64 = .timeline) ∧
    (Spec.OP 0x1200000000000000#64 = 0x12 ∧ Spec.E 0x1200000000000000#64 = .live) := by decide

/-- A full pool in which every voice sounds, without and with a releasing one; the glide time zero and not. -/
theorem witness_StealingOutcome :
    ¬Spec.IsNaN 0x3F800000#32 ∧
    ((∀ v ∈ List.replicate 16 (sounding true 1), Spec.Sounding v) ∧
      ∀ v ∈ List.replicate 16 (sounding true 1), ¬Spec.Releasing v) ∧
    ((∀ v ∈ sounding false 0 :: List.replicate 15 (sounding true 1), Spec.Sounding v) ∧
      ∃ v ∈ sounding false 0 :: List.replicate 15 (sounding true 1), Spec.Releasing v) ∧
    F32.eq 0#32 0#32 = true ∧ F32.eq 0x3E7A0000#32 0#32 = false := by decide

theorem witness_ProcessBlock : Spec.OP 0x0300FFFF00000008#64 = 0x03 := by decide

theorem witness_ProcessFrame :
    State.wf State.reset = true ∧ (State.reset.engine .live).lfoRoute = false ∧
    min (0xFFFFFFFF#32).toNat State.reset.cfg.blockMax ≤ 4096 := by decide +kernel

theorem witness_VoiceOverBlock :
    (State.reset.engine .live).voices[15]? = some Spec.silentVoice ∧ ¬Spec.Sounding Spec.silentVoice ∧
    Spec.Sounding (sounding true 4294967295) ∧ (sounding true 0).active = true ∧
    0 < min (1#32).toNat State.reset.cfg.blockMax := by decide +kernel

/-- An active voice whose envelope is found Idle in a block. -/
theorem witness_VoiceOverBlock_idle :
    let v := (VoiceState.tick hw cfg adsr { sounding true 0 with env := ⟨.release, 0x3E800000#32⟩ }).1
    v.active = false ∧ v.env.stage = .idle := by decide +kernel

theorem witness_FrozenStages :
    Spec.AllOff (State.reset.engine .live) ∧ Spec.AllOff (State.reset.engine .timeline) := by decide +kernel

theorem witness_ChainAndModulation : Spec.AllOff (EngineState.reset hw Config.default) := by decide +kernel

theorem witness_SilentBlock :
    State.wf State.reset = true ∧ (∀ v ∈ State.reset.live.voices, ¬Spec.Sounding v) ∧
    (∀ v ∈ State.reset.timeline.voices, ¬Spec.Sounding v) ∧ Spec.AllOff State.reset.live ∧
    Spec.AllOff State.reset.timeline ∧ Spec.Finite State.reset.masterVol ∧ Spec.Finite State.reset.volLive ∧
    Spec.Finite State.reset.volTimeline := by decide +kernel

/-- All stages enabled, a -0 in a delay line. -/
def quietEngine : EngineState Word :=
  { EngineState.reset hw Config.default with
    fltEnable := true, lfoRoute := true, dlyEnable := true, revEnable := true, trmEnable := true, flgEnable := true
    dly := { DelayState.reset hw with mem := [(5, 0x80000000#32)] } }

theorem quietEngine_quiet : Spec.Quiet quietEngine where
  voices := by decide +kernel
  filter := by decide +kernel
  delay := by decide +kernel
  flange := by decide +kernel
  damp := by decide +kernel
  combs := by decide +kernel
  diff := by decide +kernel

/-- Both engines so, and STOP_ALL_NOTES presented. -/
def quietState : State :=
  { State.reset with live := quietEngine, timeline := quietEngine, cmdIn := [0x1280000000000000#64] }

theorem quietState_silent : Spec.Silent quietState where
  cfg := rfl
  wf := by decide +kernel
  inRanges := by decide +kernel
  quiet := fun e => by cases e <;> exact quietEngine_quiet

theorem witness_QuietStaysQuiet :
    Spec.Silent quietState ∧ (∃ t, step quietState = .next t) ∧
    ∀ w rest e a, quietState.cmdIn = w :: rest →
      decode w ≠ .command (.noteOff e a) ∧ ∀ f, decode w ≠ .command (.noteOn e a f) := by
  refine ⟨quietState_silent, ⟨_, rfl⟩, fun w rest e a h => ?_⟩
  obtain ⟨rfl, -⟩ := List.cons.inj h
  have hd : decode 0x1280000000000000#64 = .command (.stopAllNotes .timeline) := by decide
  simp [hd]

/-- A live engine with a sounding voice; its block of two words streams two. -/
theorem witness_StreamingEquivalence :
    2 ≤ cfg.blockMax ∧ Mem.wf 0#32 cfg.blockMax ([] : Mem Word) = true ∧ State.wf State.reset = true ∧
    (Spec.stream cfg 2 ([sounding true 0].map (Spec.startVoice cfg))
      { EngineState.reset hw cfg with prm := params .square 0#32 }).2.2[1]? = some 0x3F800000#32 := by decide +kernel

theorem witness_BlockSplit :
    3 + 4093 ≤ cfg.blockMax ∧ Mem.wf 0#32 cfg.blockMax ([] : Mem Word) = true ∧
    ∀ (k : Nat) (v v' : VoiceState Word), (EngineState.reset hw cfg).voices[k]? = some v →
      ((EngineState.reset hw cfg).process hw cfg 0).voices[k]? = some v' → Spec.Sounding v → Spec.Sounding v' := by
  refine ⟨by decide, by decide, fun k v v' hv _ hs => ?_⟩
  have h : ∀ u ∈ (EngineState.reset hw cfg).voices, ¬Spec.Sounding u := by decide +kernel
  exact absurd hs (h v (List.mem_of_getElem? hv))

/-- The same for a voice that does sound, over one sample. -/
theorem witness_BlockSplit_sounding :
    (EngineState.process hw cfg 1 { EngineState.reset hw cfg with
      prm := params .square 0#32, voices := [sounding true 0] }).voices.all
        (fun v => decide (Spec.Sounding v)) = true := by decide +kernel

theorem witness_OscillatorStep :
    Spec.Finite 0x43DC0000#32 ∧ (params .saw 0#32).detune = 0#32 ∧ (params .saw 0x44960000#32).detune = 0x44960000#32 ∧
    (params .saw 0xC4960000#32).detune = 0xC4960000#32 := by decide

theorem witness_WaveformBounds :
    Spec.Finite 0x7F7FFFFF#32 ∧ F32.le 0#32 0x7F7FFFFF#32 = true ∧ F32.le 0#32 0x80000000#32 = true ∧
    inUnit 0#32 = true ∧ inUnit 0x3F7FFFFF#32 = true ∧ inUnit 0x3F000000#32 = true := by decide

/-- Levels on both sides of each test of R124, with V-ENV-1's steps of 1/4, 1/8 and 1/4. -/
theorem witness_EnvelopeTransitions :
    F32.le 0x3F800000#32 (F32.add 0x3F400000#32 0x3E800000#32) = true ∧
    F32.le 0x3F800000#32 (F32.add 0x3F000000#32 0x3E800000#32) = false ∧
    F32.le 0x3F000000#32 adsr.sustain = true ∧ F32.le 0x3F200000#32 adsr.sustain = false ∧
    F32.le (F32.sub 0x3F200000#32 0x3E000000#32) adsr.sustain = true ∧
    F32.le (F32.sub 0x3F800000#32 0x3E000000#32) adsr.sustain = false ∧
    F32.le (F32.sub 0x3E800000#32 0x3E800000#32) 0#32 = true ∧
    F32.le (F32.sub 0x3F000000#32 0x3E800000#32) 0#32 = false := by decide

theorem witness_EnvelopeContinuous :
    ∃ (P : VoiceParams ℝ) (v : EnvState ℝ), 0 ≤ P.sustain ∧ P.sustain ≤ 1 ∧ 0 ≤ v.level ∧ v.level ≤ 1 ∧
      (v.stage = .idle → v.level = 0) :=
  ⟨⟨.sine, 0, 0, 1, 0, 0, 0⟩, ⟨.decay, 1⟩, by norm_num, by norm_num, by norm_num, by norm_num, by simp⟩

theorem witness_EnvelopeInUnit :
    (1000 ≤ cfg.fs ∧ cfg.fs ≤ 192000) ∧ inRange 0#32 0x41200000#32 adsr.attack = true ∧
    inRange 0#32 0x41200000#32 adsr.decay = true ∧ inRange 0#32 0x41200000#32 adsr.release = true ∧
    inRange 0#32 0x3F800000#32 adsr.sustain = true ∧ inRange 0#32 0x3F800000#32 0x3F800000#32 = true ∧
    inRange 0#32 0x3F800000#32 0x80000000#32 = true ∧ F32.eq 0x80000000#32 0#32 = true := by decide

theorem witness_GlideArrives :
    ∃ (P : VoiceParams ℝ) (g : GlideState ℝ) (f : ℝ), 0 < P.glideMs ∧ 0 ≤ g.current ∧ 0 ≤ f ∧ g.current ≤ f :=
  ⟨⟨.sine, 0, 0, 0, 0, 0, 100⟩, ⟨220, 220, 0⟩, 440, by norm_num, by norm_num, by norm_num, by norm_num⟩

/-- A glide up, one down, and one whose step rounding absorbs (V-GL-9). -/
theorem witness_GlideNeverOvershoots :
    Spec.Finite 0x46000000#32 ∧ Spec.Finite 0x4602D000#32 ∧ Spec.Finite 0x3951B717#32 ∧
    F32.le 0#32 0x46000000#32 = true ∧ F32.le 0#32 0x4602D000#32 = true ∧ F32.le 0#32 0x3951B717#32 = true ∧
    F32.le 0x46000000#32 0x4602D000#32 = true ∧ F32.le 0x435C0000#32 0x43DC0000#32 = true := by decide

theorem witness_DelayLine :
    Mem.wf 0#32 6 ([(5, 0x80000000#32)] : Mem Word) = true ∧ 1 ≤ cfg.delayLen ∧ (DelayState.reset hw).mem = [] ∧ (DelayState.reset hw).w < cfg.delayLen ∧
    [0x3F800000#32, 0#32][1]? = some 0#32 := by decide +kernel

theorem witness_CombLine :
    (1 ≤ cfg.combLen.k0 ∧ (CombState.reset hw).mem = [] ∧ (CombState.reset hw).ci < cfg.combLen.k0) ∧
    (1 ≤ cfg.apLen.j1 ∧ (AllPassState.reset : AllPassState Word).mem = [] ∧
      (AllPassState.reset : AllPassState Word).ai < cfg.apLen.j1) ∧
    1 < [0x3F800000#32, 0#32].length := by decide +kernel

theorem witness_TremoloGain :
    (1000 ≤ cfg.fs ∧ cfg.fs ≤ 192000) ∧ inRange 0#32 0x41A00000#32 0x41A00000#32 = true ∧
    inRange 0#32 0x3F800000#32 0#32 = true ∧ inRange 0#32 0x3F800000#32 0x3F800000#32 = true ∧
    inUnit 0x3F7FFFFF#32 = true ∧ F32.eq 0x80000000#32 0#32 = true := by decide

theorem witness_FlangerReads :
    Config.wf { Config.default with fs := 1000, delayLen := 2000, flLen := 7 } = true ∧
    inRange 0#32 0x3F800000#32 0x3F800000#32 = true ∧ inRange 0#32 0x3F800000#32 0#32 = true ∧
    inUnit 0#32 = true ∧ inUnit 0x3F7FFFFF#32 = true := by decide

theorem witness_CorrectRounding :
    Spec.Finite 0x7F7FFFFF#32 ∧ Spec.Finite 0x00000001#32 ∧ Spec.Finite 0x80000000#32 ∧ Spec.value 0x00000001#32 ≠ 0 := by
  refine ⟨by decide, by decide, by decide, ?_⟩
  have hs : (0x00000001#32).getLsbD 31 = false := by decide
  have he : BitVec.extractLsb' 23 8 (0x00000001#32) = 0#8 := by decide
  have hf : BitVec.extractLsb' 0 23 (0x00000001#32) = 1#23 := by decide
  rw [Spec.value, hs, he, hf]
  norm_num

theorem witness_SpecialOperands :
    Spec.IsNaN 0x7FC00000#32 ∧ ¬Spec.IsNaN 0x7F800000#32 ∧ ¬Spec.IsNaN 0x3F800000#32 ∧ ¬Spec.Finite 0x7F800000#32 ∧
    Spec.Finite 0x3F800000#32 ∧ ¬Spec.IsZero 0x3F800000#32 ∧ Spec.IsZero 0x80000000#32 ∧
    ¬Spec.IsNaN (F32.mul 0x3F800000#32 0x7F800000#32) ∧ ¬Spec.IsNaN (F32.div 0x3F800000#32 0#32) ∧
    ¬Spec.Finite 0xFF800000#32 ∧ (0x7F800000#32 : Word) ≠ 0xFF800000#32 ∧ ¬Spec.IsNaN 0xFF800000#32 := by decide

/-- The exact zero sum and difference of two zeros that are not both negative. -/
theorem witness_SpecialOperands_zero :
    Spec.value 0x80000000#32 + Spec.value 0#32 = 0 ∧ Spec.value 0x80000000#32 - Spec.value 0x80000000#32 = 0 ∧
    (0#32 : Word) ≠ 0x80000000#32 := by
  have he : ∀ w ∈ [0#32, 0x80000000#32], Spec.value w = 0 := by
    intro w hw
    have h : w.extractLsb' 23 8 = 0#8 ∧ (w.extractLsb' 0 23).toNat = 0 := by
      simp only [List.mem_cons, List.not_mem_nil, or_false] at hw
      rcases hw with rfl | rfl <;> decide
    simp [Spec.value, h]
  simp [he]

theorem witness_ExactConversions :
    Spec.Finite 0xC0600000#32 ∧ Spec.Finite 0x7F7FFFFF#32 ∧ (-16777215 : ℤ).natAbs < 2 ^ 24 ∧ Spec.IsNaN 0xFFFFFFFF#32 := by
  decide

theorem witness_TranscendentalProperties :
    Spec.Finite 0xFF7FFFFF#32 ∧ Spec.Finite 0x7F7FFFFF#32 ∧ hw.le 0xFF7FFFFF#32 0x7F7FFFFF#32 = true ∧
    hw.le hw.zero 0x3F7FFFFF#32 = true ∧ hw.lt 0x3F7FFFFF#32 hw.one = true ∧ hw.eq 0#32 0x80000000#32 = true := by decide

theorem witness_ClampLaws :
    F32.le 0#32 0x80000000#32 = true ∧ F32.lt 0xBF800000#32 0#32 = true ∧ ¬Spec.IsNaN 0xFF800000#32 ∧
    F32.le 0#32 0x3F800000#32 = true ∧ inRange 0#32 0x3F800000#32 0x80000000#32 = true ∧
    F32.lt 0x80000001#32 0#32 = true ∧ F32.lt 0x3F800000#32 0x3F800001#32 = true ∧ Spec.Finite 0x3F800000#32 ∧
    Spec.Finite 0#32 := by decide

theorem witness_SerialisedWords : ([] : List (BitVec 8)).length < 8 ∧ (List.replicate 7 0#8).length < 8 := by decide

end Sys2Proof.Tests
end

/-! ## The fields of a datum, and the statements' words for them (spec/30_encoding.md R82) -/

namespace Sys2Proof.Machine.F32

theorem sign_iff (w : Word) : sign w = true ↔ 2 ^ 31 ≤ w.toNat := by
  rw [sign, ← BitVec.msb_eq_getLsbD_last (x := w), BitVec.msb_eq_decide, decide_eq_true_eq]

theorem toNat_eq (w : Word) : w.toNat = (if sign w then 2 ^ 31 else 0) + magBits w := by
  have hw := w.isLt
  have hs := sign_iff w
  simp only [magBits, hs]
  split <;> omega

/-- A datum is its sign and its magnitude bits. -/
theorem word_ext {a b : Word} (hs : sign a = sign b) (hm : magBits a = magBits b) : a = b :=
  BitVec.eq_of_toNat_eq (by rw [toNat_eq a, toNat_eq b, hs, hm])

theorem pack_eq {w : Word} {neg : Bool} {m : Nat} (hs : sign w = neg) (hm : magBits w = m) : pack neg m = w := by
  have hlt : m < 2 ^ 31 := hm ▸ magBits_lt w
  exact word_ext ((sign_pack hlt).trans hs.symm) ((magBits_pack hlt).trans hm.symm)

theorem toNat_exponent (w : Word) : (w.extractLsb' 23 8).toNat = expField w := by
  simp only [BitVec.extractLsb'_toNat, Nat.shiftRight_eq_div_pow, expField, magBits]
  omega

theorem toNat_fraction (w : Word) : (w.extractLsb' 0 23).toNat = fracField w := by
  simp only [BitVec.extractLsb'_toNat, Nat.shiftRight_zero, fracField]

theorem magBits_eq_fields (w : Word) : magBits w = expField w * 2 ^ 23 + fracField w := by
  simp only [expField, fracField, magBits]
  omega

theorem fracField_lt (w : Word) : fracField w < 2 ^ 23 := Nat.mod_lt _ (by positivity)

theorem expField_lt (w : Word) : expField w < 256 := by
  have := magBits_lt w
  simp only [expField]
  omega

theorem infBits_eq : infBits = 255 * 2 ^ 23 := rfl

/-- `Spec.Finite` is the model's test. -/
theorem isFinite_iff (w : Word) : isFinite w = true ↔ Spec.Finite w := by
  have h : w.extractLsb' 23 8 = 255#8 ↔ expField w = 255 := by
    rw [← BitVec.toNat_inj, toNat_exponent]; rfl
  have hf := magBits_eq_fields w
  have h1 := fracField_lt w
  have h2 := expField_lt w
  rw [isFinite, decide_eq_true_eq, infBits_eq, Spec.Finite, ne_eq, h]
  omega

/-- `Spec.IsNaN` is the model's test. -/
theorem isNaN_iff (w : Word) : isNaN w = true ↔ Spec.IsNaN w := by
  have he : w.extractLsb' 23 8 = 255#8 ↔ expField w = 255 := by
    rw [← BitVec.toNat_inj, toNat_exponent]; rfl
  have hf : w.extractLsb' 0 23 = 0#23 ↔ fracField w = 0 := by
    rw [← BitVec.toNat_inj, toNat_fraction]; rfl
  have h := magBits_eq_fields w
  have h1 := fracField_lt w
  have h2 := expField_lt w
  rw [isNaN, decide_eq_true_eq, infBits_eq, Spec.IsNaN, ne_eq, he, hf]
  omega

theorem isNaN_eq_false_iff (w : Word) : isNaN w = false ↔ ¬Spec.IsNaN w := by
  rw [← isNaN_iff, Bool.not_eq_true]

theorem isFinite_eq_false_iff (w : Word) : isFinite w = false ↔ ¬Spec.Finite w := by
  rw [← isFinite_iff, Bool.not_eq_true]

/-- A zero is a datum without magnitude bits. -/
theorem isZero_iff (w : Word) : Spec.IsZero w ↔ magBits w = 0 := by
  have h := w.isLt
  simp only [Spec.IsZero, magBits, ← BitVec.toNat_inj, BitVec.toNat_ofNat]
  omega

theorem mag_eq_zero_iff (w : Word) : mag w = 0 ↔ magBits w = 0 := by
  rw [mag_eq, ← magOf_zero, magOf_strictMono.injective.eq_iff, magOf_zero]

/-- The value a statement reads from the fields is the model's, in units of `2^-149`. -/
theorem value_eq (w : Word) : Spec.value w = val w := by
  have h0 : w.extractLsb' 23 8 = 0#8 ↔ expField w = 0 := by
    rw [← BitVec.toNat_inj, toNat_exponent]; rfl
  have hm : (if expField w = 0 then (fracField w : ℚ) / 2 ^ 149
      else (2 ^ 23 + fracField w : ℚ) * 2 ^ expField w / 2 ^ 150) = (mag w : ℚ) / 2 ^ 149 := by
    rcases Nat.eq_zero_or_pos (expField w) with he | he
    · simp only [mag, he, if_true]
    · obtain ⟨e, he'⟩ : ∃ e, expField w = e + 1 := ⟨expField w - 1, by omega⟩
      simp only [mag, he', Nat.add_one_ne_zero, if_false, Nat.add_sub_cancel]
      push_cast
      ring
  rw [val_sign_mag, Spec.value, toNat_exponent, toNat_fraction]
  simp only [h0, hm]
  change (if sign w = true then _ else _) * _ = _
  split <;> ring

end Sys2Proof.Machine.F32

/-! ## Correct rounding (spec/00_scope.md R11): what the model packs is the exact result rounded once -/

namespace Sys2Proof.Machine.F32

/-! ### Where rounding overflows -/

/-- Half a unit in the last place of the largest finite magnitude. -/
def topHalfUnit : Nat := 2 ^ 252

theorem magOf_infBits : magOf infBits = 2 ^ 25 * topHalfUnit := by decide

theorem magOf_largest : magOf (infBits - 1) = (2 ^ 25 - 2) * topHalfUnit := by decide

/-- Rounding stays below infinity exactly below half a unit past the largest finite magnitude: that tie goes to infinity,
whose bits are even. -/
theorem roundBits_lt_infBits_iff {num den : Nat} (hd : 0 < den) :
    roundBits num den < infBits ↔ num < (2 ^ 25 - 1) * (topHalfUnit * den) := by
  have hlarge := roundBits_nearest (num := num) hd (infBits - 1)
  have hinf := roundBits_nearest (num := num) hd infBits
  have htie := roundBits_tie (num := num) hd (c := infBits)
  have hlo : roundBits num den < infBits ↔ magOf (roundBits num den) * den ≤ magOf (infBits - 1) * den := by
    rw [Nat.mul_le_mul_right_iff hd, magOf_le_iff, Nat.lt_iff_le_pred (by decide)]
  have hhi : roundBits num den < infBits ↔ magOf (roundBits num den) * den < magOf infBits * den := by
    rw [Nat.mul_lt_mul_right hd, magOf_strictMono.lt_iff_lt]
  have hodd : (infBits - 1) % 2 = 1 := by decide
  have hpos : 0 < topHalfUnit * den := Nat.mul_pos (by decide) hd
  have heq : magOf (roundBits num den) * den = magOf (infBits - 1) * den → roundBits num den = infBits - 1 :=
    fun h => magOf_strictMono.injective (Nat.eq_of_mul_eq_mul_right hd h)
  simp only [Int.abs_eq_natAbs, ← Nat.cast_mul, magOf_infBits, magOf_largest, mul_assoc] at *
  generalize magOf (roundBits num den) * den = A at *
  generalize topHalfUnit * den = h at *
  generalize roundBits num den = R at *
  omega

/-! ### From packed magnitudes to `Spec.Rounded` -/

/-- `r` is the exact number `x`, a signed quotient in units of `2^-149`, rounded and packed as every operation of the
model does. -/
def Packs (x : ℚ) (r : Word) : Prop :=
  ∃ (neg : Bool) (num den : Nat), 0 < den ∧ x = (if neg then -(num : ℚ) else num) / (den * 2 ^ 149) ∧
    r = pack neg (roundMag num den)

theorem val_pack {neg : Bool} {m : Nat} (hm : m < 2 ^ 31) :
    val (pack neg m) = (if neg then -(magOf m : ℚ) else magOf m) / 2 ^ 149 := by
  rw [val_sign_mag, mag_eq, sign_pack hm, magBits_pack hm]

/-- The distance of a datum from a signed quotient, in units of `2^-149 / den`. -/
theorem abs_val_sub (c : Word) (neg : Bool) {num den : Nat} (hd : 0 < den) :
    |val c - (if neg then -(num : ℚ) else num) / (den * 2 ^ 149)| =
      ((|if sign c = neg then (magOf (magBits c) * den : ℤ) - num else magOf (magBits c) * den + num| : ℤ) : ℚ) /
        (den * 2 ^ 149) := by
  have hD : (0 : ℚ) < den * 2 ^ 149 := by positivity
  have hval : val c = (if sign c then -(magOf (magBits c) * den : ℚ) else magOf (magBits c) * den) / (den * 2 ^ 149) := by
    have : (den : ℚ) ≠ 0 := by exact_mod_cast hd.ne'
    rw [val_sign_mag, mag_eq]
    split <;> field_simp
  rw [hval, ← sub_div, abs_div, abs_of_pos hD, Int.cast_abs]
  congr 1
  cases sign c <;> cases neg <;> simp only [Bool.false_eq_true, reduceIte, reduceCtorEq] <;> push_cast
  · rfl
  · rw [sub_neg_eq_add]
  · rw [← abs_neg]; congr 1; ring
  · rw [← abs_neg]; congr 1; ring

theorem getLsbD_zero_of_even {w : Word} (h : magBits w % 2 = 0) : w.getLsbD 0 = false := by
  have h' : w.toNat % 2 = 0 := by simp only [magBits] at h; omega
  rw [BitVec.getLsbD, Nat.testBit_zero, h']
  decide

/-- Of the data, none is nearer than the rounded magnitude with the number's sign; and on a tie with another value its
bits are even. -/
theorem pack_roundBits_nearest (neg : Bool) {num den : Nat} (hd : 0 < den) (hR : roundBits num den < infBits) (c : Word) :
    let x := (if neg then -(num : ℚ) else num) / (den * 2 ^ 149)
    let r := pack neg (roundBits num den)
    |val r - x| ≤ |val c - x| ∧ (|val r - x| = |val c - x| → val c ≠ val r → r.getLsbD 0 = false) := by
  intro x r
  have hlt : roundBits num den < 2 ^ 31 := hR.trans (by decide)
  have hD : (0 : ℚ) < den * 2 ^ 149 := by positivity
  have hzero := roundBits_nearest (num := num) hd 0
  have hzeroTie := roundBits_tie (num := num) hd (c := 0)
  have hsame := roundBits_nearest (num := num) hd (magBits c)
  have hsameTie := roundBits_tie (num := num) hd (c := magBits c)
  have hc0 : magOf (magBits c) * den = 0 → magBits c = 0 := fun h =>
    magOf_strictMono.injective ((Nat.mul_eq_zero.1 h).resolve_right hd.ne')
  have heven : roundBits num den % 2 = 0 → r.getLsbD 0 = false := fun h =>
    getLsbD_zero_of_even (by rwa [magBits_pack hlt])
  have hval : magBits c = roundBits num den → sign c = neg → val c = val r := fun hm hs => by
    rw [val_pack hlt, ← hm, ← hs, val_sign_mag, mag_eq]
  simp only [r, x, abs_val_sub _ _ hd, div_le_div_iff_of_pos_right hD, div_left_inj' hD.ne', Int.cast_le, Int.cast_inj,
    sign_pack hlt, magBits_pack hlt, if_true]
  by_cases hs : sign c = neg
  · rw [if_pos hs]
    exact ⟨hsame, fun h hne => heven (hsameTie (fun hm => hne (hval hm hs)) h)⟩
  · rw [if_neg hs]
    simp only [Int.abs_eq_natAbs, ← Nat.cast_mul, magOf_zero] at *
    refine ⟨by omega, fun h _ => heven ?_⟩
    omega

/-- What the model packs is the exact number rounded to nearest, ties to even, with overflow to infinity. -/
theorem Packs.rounded {x : ℚ} {r : Word} (h : Packs x r) : Spec.Rounded x r := by
  obtain ⟨neg, num, den, hd, hx, rfl⟩ := h
  have hD : (0 : ℚ) < den * 2 ^ 149 := by positivity
  have habs : |x| = num / (den * 2 ^ 149) := by
    rw [hx, abs_div, abs_of_pos hD]
    cases neg <;> simp
  have hover : |x| < 2 ^ 128 - 2 ^ 103 ↔ roundBits num den < infBits := by
    rw [roundBits_lt_infBits_iff hd, habs, div_lt_iff₀ hD, topHalfUnit, ← Nat.cast_lt (α := ℚ)]
    push_cast
    constructor <;> intro h <;> linarith
  by_cases hR : roundBits num den < infBits
  · have hmag : roundMag num den = roundBits num den := Nat.min_eq_left hR.le
    have hlt : roundBits num den < 2 ^ 31 := hR.trans (by decide)
    rw [Spec.Rounded, if_pos (hover.2 hR), hmag]
    refine ⟨?_, fun c _ => ?_⟩
    · rw [← isFinite_iff, isFinite, magBits_pack hlt, decide_eq_true_eq]
      exact hR
    · simp only [value_eq, hx]
      exact pack_roundBits_nearest neg hd hR c
  · have hmag : roundMag num den = infBits := Nat.min_eq_right (not_lt.1 hR)
    have hnum : (0 : ℚ) < num / (den * 2 ^ 149) := by
      have : ¬|x| < 2 ^ 128 - 2 ^ 103 := mt hover.1 hR
      rw [← habs]
      linarith
    rw [Spec.Rounded, if_neg (mt hover.1 hR), hmag, hx]
    cases neg
    · simp only [Bool.false_eq_true, if_false, not_lt.2 hnum.le]
      decide
    · simp only [if_true, neg_div, neg_lt_zero, hnum]
      decide

end Sys2Proof.Machine.F32

/-! ### Every operation packs its exact result -/

namespace Sys2Proof.Machine.F32

variable {a b : Word}

/-- A whole number of units of `2^-149`, packed with its own sign. -/
theorem packs_int (z : ℤ) : Packs (z / 2 ^ 149) (pack (decide (z < 0)) (roundMag z.natAbs 1)) :=
  ⟨decide (z < 0), z.natAbs, 1, one_pos, by rw [Nat.cast_one, one_mul, ← int_sign_abs], rfl⟩

theorem packs_zero (neg : Bool) : Packs 0 (pack neg 0) :=
  ⟨neg, 0, 1, one_pos, by simp, congrArg (pack neg) (by decide)⟩

theorem sum_finite (nan : Word) (ha : isFinite a = true) (hb : isFinite b = true) :
    sum nan a b = if scaled a + scaled b = 0 then pack (sign a && sign b) 0
      else pack (decide (scaled a + scaled b < 0)) (roundMag (scaled a + scaled b).natAbs 1) := by
  simp only [sum, isNaN_of_finite ha, isNaN_of_finite hb, isInf_of_finite ha, isInf_of_finite hb, Bool.or_false,
    Bool.false_eq_true, if_false]

theorem mul_finite (ha : isFinite a = true) (hb : isFinite b = true) :
    mul a b = pack (sign a != sign b) (roundMag (mag a * mag b) (2 ^ 149)) := by
  simp only [mul, isNaN_of_finite ha, isNaN_of_finite hb, isInf_of_finite ha, isInf_of_finite hb, Bool.or_false,
    Bool.false_eq_true, if_false]

theorem div_finite (ha : isFinite a = true) (hb : isFinite b = true) (h0 : mag b ≠ 0) :
    div a b = pack (sign a != sign b) (roundMag (mag a * 2 ^ 149) (mag b)) := by
  simp only [div, isNaN_of_finite ha, isNaN_of_finite hb, isInf_of_finite ha, isInf_of_finite hb, Bool.or_false,
    Bool.false_eq_true, if_false, h0]

theorem packs_sum (nan : Word) (ha : isFinite a = true) (hb : isFinite b = true) :
    Packs (val a + val b) (sum nan a b) := by
  have hx : val a + val b = ((scaled a + scaled b : ℤ) : ℚ) / 2 ^ 149 := by
    simp only [val]
    push_cast
    ring
  rw [sum_finite nan ha hb, hx]
  split
  · next h0 =>
    rw [h0, Int.cast_zero, zero_div]
    exact packs_zero _
  · exact packs_int _

theorem packs_add (ha : isFinite a = true) (hb : isFinite b = true) : Packs (val a + val b) (add a b) :=
  packs_sum _ ha hb

theorem packs_sub (ha : isFinite a = true) (hb : isFinite b = true) : Packs (val a - val b) (sub a b) := by
  rw [sub_eq_add_neg, ← val_negate]
  exact packs_sum _ ha ((isFinite_negate b).trans hb)

theorem packs_mul (ha : isFinite a = true) (hb : isFinite b = true) : Packs (val a * val b) (mul a b) := by
  refine ⟨sign a != sign b, mag a * mag b, 2 ^ 149, by positivity, ?_, mul_finite ha hb⟩
  rw [val_sign_mag, val_sign_mag]
  cases sign a <;> cases sign b <;> simp <;> ring

theorem packs_div (ha : isFinite a = true) (hb : isFinite b = true) (h0 : val b ≠ 0) :
    Packs (val a / val b) (div a b) := by
  have hm : mag b ≠ 0 := fun h => h0 (by rw [val_sign_mag, h]; simp)
  have hq : (mag b : ℚ) ≠ 0 := by exact_mod_cast hm
  refine ⟨sign a != sign b, mag a * 2 ^ 149, mag b, Nat.pos_of_ne_zero hm, ?_, div_finite ha hb hm⟩
  rw [val_sign_mag, val_sign_mag]
  cases sign a <;> cases sign b <;> simp <;> field_simp <;> norm_num

theorem packs_ofDec (d : Dec) : Packs (Spec.decimal d) (ofDec d) := by
  refine ⟨decide (d.num < 0), d.num.natAbs * 2 ^ 149, 10 ^ d.scale, by positivity, ?_, rfl⟩
  rw [scaled_cast, Spec.decimal, Nat.cast_pow, Nat.cast_ofNat, mul_div_mul_right _ _ (by positivity)]

end Sys2Proof.Machine.F32

namespace Sys2Proof.Proofs

open Sys2Proof.Machine Sys2Proof.Machine.F32

/-- Settles O55: each of the four operations packs the exact rational result, and packing is correct rounding. -/
theorem correctRounding : Obligations.CorrectRounding := by
  intro a b ha hb
  rw [← isFinite_iff] at ha hb
  simp only [value_eq]
  exact ⟨(packs_add ha hb).rounded, (packs_sub ha hb).rounded, (packs_mul ha hb).rounded,
    fun h0 => (packs_div ha hb h0).rounded⟩

end Sys2Proof.Proofs

/-! ## `min`, `max` and `clamp` (spec/00_scope.md R15) -/

namespace Sys2Proof.Machine.F32

variable {a b lo hi v : Word}

theorem flt_false_iff (ha : isNaN a = false) (hb : isNaN b = false) : lt a b = false ↔ le b a = true := by
  rw [← Bool.not_eq_true, lt_iff ha hb, le_iff hb ha, not_lt]

theorem fle_of_not_flt (ha : isNaN a = false) (hb : isNaN b = false) (h : ¬lt a b = true) : le b a = true :=
  (flt_false_iff ha hb).1 (Bool.eq_false_iff.2 h)

theorem not_flt_of_fle (h : le a b = true) : ¬lt b a = true := by
  obtain ⟨ha, hb⟩ := not_isNaN_of_le h
  rw [lt_iff hb ha, not_lt]
  exact (le_iff ha hb).1 h

theorem not_fle_of_flt (h : lt a b = true) : ¬le b a = true := fun h' => not_flt_of_fle h' h

theorem fle_of_flt (h : lt a b = true) : le a b = true := by
  simp only [lt, le, Bool.and_eq_true, decide_eq_true_eq] at h ⊢
  exact ⟨h.1, h.2.le⟩

theorem fle_refl (h : isNaN a = false) : le a a = true := (le_iff h h).2 le_rfl

theorem feq_refl (h : isNaN a = false) : eq a a = true := (eq_iff h h).2 rfl

theorem inRange_iff : inRange lo hi v = true ↔ le lo v = true ∧ le v hi = true := by
  rw [inRange, Bool.and_eq_true]

/-! ### Keys -/

theorem lt_iff_key (ha : isNaN a = false) (hb : isNaN b = false) : lt a b = true ↔ key a < key b := by
  simp [lt, ha, hb]

theorem le_iff_key (ha : isNaN a = false) (hb : isNaN b = false) : le a b = true ↔ key a ≤ key b := by
  simp [le, ha, hb]

theorem eq_iff_key (ha : isNaN a = false) (hb : isNaN b = false) : eq a b = true ↔ key a = key b := by
  simp [eq, ha, hb]

theorem natAbs_key (a : Word) : (key a).natAbs = magBits a := by
  rw [key]
  split <;> omega

theorem key_eq_zero_iff (a : Word) : key a = 0 ↔ magBits a = 0 := by
  rw [← natAbs_key, Int.natAbs_eq_zero]

/-- Data with one key are one datum, but for the two zeros. -/
theorem key_inj (h : key a = key b) (h0 : key a ≠ 0) : a = b := by
  have hm : magBits a = magBits b := by rw [← natAbs_key, ← natAbs_key, h]
  refine word_ext ?_ hm
  rw [ne_eq, key_eq_zero_iff] at h0
  simp only [key] at h
  cases ha : sign a <;> cases hb : sign b <;> simp only [ha, hb, if_true, Bool.false_eq_true, if_false] at h ⊢ <;> omega

/-! ### The infinities -/

theorem isNaN_posInf : isNaN 0x7F800000#32 = false := by decide
theorem isNaN_negInf : isNaN 0xFF800000#32 = false := by decide
theorem key_posInf : key 0x7F800000#32 = infBits := by decide
theorem key_negInf : key 0xFF800000#32 = -infBits := by decide

theorem key_bounds (h : isNaN a = false) : -(infBits : ℤ) ≤ key a ∧ key a ≤ infBits := by
  have hm : magBits a ≤ infBits := by simpa [isNaN] using h
  have := natAbs_key a
  omega

theorem key_eq_infBits_iff (a : Word) : key a = infBits ↔ a = 0x7F800000#32 :=
  ⟨fun h => key_inj (h.trans key_posInf.symm) (by rw [h]; decide), fun h => h ▸ key_posInf⟩

theorem key_eq_neg_infBits_iff (a : Word) : key a = -infBits ↔ a = 0xFF800000#32 :=
  ⟨fun h => key_inj (h.trans key_negInf.symm) (by rw [h]; decide), fun h => h ▸ key_negInf⟩

/-- Every datum but positive infinity is below it. -/
theorem lt_posInf_iff (h : isNaN a = false) : lt a 0x7F800000#32 = true ↔ a ≠ 0x7F800000#32 := by
  have := key_bounds h
  rw [lt_iff_key h isNaN_posInf, key_posInf, ne_eq, ← key_eq_infBits_iff]
  omega

/-- Every datum but negative infinity is above it. -/
theorem negInf_lt_iff (h : isNaN a = false) : lt 0xFF800000#32 a = true ↔ a ≠ 0xFF800000#32 := by
  have := key_bounds h
  rw [lt_iff_key isNaN_negInf h, key_negInf, ne_eq, ← key_eq_neg_infBits_iff]
  omega

end Sys2Proof.Machine.F32

namespace Sys2Proof.Machine

open F32

variable {lo hi v : Word}

theorem clamp_of_lt (h : lt v lo = true) : hw.clamp v lo hi = lo := if_pos h

theorem clamp_of_gt (hlo : le lo hi = true) (h : lt hi v = true) : hw.clamp v lo hi = hi := by
  have hv : ¬lt v lo = true := fun hv => by
    simp only [lt, le, Bool.and_eq_true, decide_eq_true_eq] at hv h hlo
    omega
  exact (if_neg hv).trans (if_pos h)

theorem clamp_of_inRange (h : inRange lo hi v = true) : hw.clamp v lo hi = v := by
  obtain ⟨h1, h2⟩ := inRange_iff.1 h
  have he : hw.eq v v = true := feq_refl (not_isNaN_of_le h1).2
  exact (if_neg (not_flt_of_fle h1)).trans ((if_neg (not_flt_of_fle h2)).trans (if_pos he))

/-- A datum is below the bounds, above them or between them, and `clamp` gives the lower one, the upper one or itself. -/
theorem inRange_clamp (hv : isNaN v = false) (h : le lo hi = true) : inRange lo hi (hw.clamp v lo hi) = true := by
  obtain ⟨hlo, hhi⟩ := not_isNaN_of_le h
  by_cases h1 : lt v lo = true
  · rw [clamp_of_lt h1]
    exact inRange_iff.2 ⟨fle_refl hlo, h⟩
  by_cases h2 : lt hi v = true
  · rw [clamp_of_gt h h2]
    exact inRange_iff.2 ⟨h, fle_refl hhi⟩
  · have hin : inRange lo hi v = true := inRange_iff.2 ⟨fle_of_not_flt hv hlo h1, fle_of_not_flt hhi hv h2⟩
    rwa [clamp_of_inRange hin]

end Sys2Proof.Machine

namespace Sys2Proof.Proofs

open Sys2Proof.Machine Sys2Proof.Machine.F32

/-- Settles O59, by where the datum stands to the bounds. -/
theorem clampLaws : Obligations.ClampLaws := by
  refine ⟨fun a b => ⟨fun h => if_pos h, fun h => if_pos h, fun h => if_neg (not_fle_of_flt h),
    fun h => if_neg (not_fle_of_flt h)⟩, fun v lo hi hv h => ?_⟩
  rw [← isNaN_eq_false_iff] at hv
  refine ⟨inRange_clamp hv h, clamp_of_inRange, clamp_of_lt, clamp_of_gt h, fun hf => ?_, fun hf => ?_⟩
  · exact clamp_of_gt h ((lt_posInf_iff (not_isNaN_of_le h).2).2 fun he => hf (he ▸ rfl))
  · exact clamp_of_lt ((negInf_lt_iff (not_isNaN_of_le h).1).2 fun he => hf (he ▸ rfl))

end Sys2Proof.Proofs

/-! ## NaN operands and reserved words (spec/30_encoding.md R82, R86; spec/60_exceptions.md R326) -/

namespace Sys2Proof.Proofs

open Sys2Proof.Machine Sys2Proof.Machine.F32

/-- Every command that reads `F` as a `Num` tests it before anything else (`withNum`). -/
theorem exec_of_nan {i : Instr} {f : BitVec 32} (h : Spec.numOperand i = some f) (hf : F32.isNaN f = true) (s : State) :
    exec i s = .next s := by
  cases i <;> cases h
  all_goals exact if_pos hf

/-- A reserved word is no row of the opcode map, so the decoder gives it no command. -/
theorem executedAs_of_reserved {w : CmdWord} (h : Spec.Reserved w) : (decode w).executedAs = .nop := by
  have hop : Spec.OP w = (fieldOP w).toNat := rfl
  have he : Spec.E w = fieldE w := rfl
  rw [Spec.Reserved, hop, he] at h
  unfold decode
  split
  case h_9 h12 =>
    have hE : fieldE w = .live := by simpa [h12] using h
    rw [hE]
    rfl
  case h_40 => rfl
  all_goals omega

/-- Settles O25: the NaN test comes before everything else, and a reserved word is executed as NOP. -/
theorem nanOperandDiscards : Obligations.NanOperandDiscards :=
  ⟨fun _ f hi hf s => exec_of_nan hi ((isNaN_iff f).2 hf) s, fun _ h => executedAs_of_reserved h, isNaN_iff⟩

end Sys2Proof.Proofs

/-! ## The constraints on a configuration, on the values of its decimals (spec/00_scope.md R9) -/

namespace Sys2Proof.Dec

theorem le_iff (a b : Dec) : Dec.le a b = true ↔ Spec.decimal a ≤ Spec.decimal b := by
  rw [Dec.le, decide_eq_true_eq, Spec.decimal, Spec.decimal, div_le_div_iff₀ (by positivity) (by positivity)]
  exact_mod_cast Iff.rfl

theorem lt_iff (a b : Dec) : Dec.lt a b = true ↔ Spec.decimal a < Spec.decimal b := by
  rw [Dec.lt, decide_eq_true_eq, Spec.decimal, Spec.decimal, div_lt_div_iff₀ (by positivity) (by positivity)]
  exact_mod_cast Iff.rfl

theorem decimal_add (a b : Dec) : Spec.decimal (a.add b) = Spec.decimal a + Spec.decimal b := by
  simp only [Spec.decimal, Dec.add]
  push_cast
  rw [pow_add]
  field_simp

theorem decimal_int (n : ℤ) : Spec.decimal ⟨n, 0⟩ = n := by simp [Spec.decimal]

theorem floorMul_eq (d : Dec) (n : Nat) : d.floorMul n = ⌊Spec.decimal d * n⌋ := by
  have h : Spec.decimal d * n = ((d.num * n : ℤ) : ℚ) / ((10 ^ d.scale : ℕ) : ℚ) := by
    rw [Spec.decimal]
    push_cast
    ring
  rw [h, Rat.floor_intCast_div_natCast, Dec.floorMul]
  norm_cast

end Sys2Proof.Dec

namespace Sys2Proof.Proofs

open Sys2Proof.Machine

/-- R9's bounds on `FS`. -/
theorem fs_bounds {C : Config} (h : C.wf = true) : 1000 ≤ C.fs ∧ C.fs ≤ 192000 := by
  obtain ⟨hlo, hhi, -⟩ := of_decide_eq_true h
  exact ⟨hlo, hhi⟩

theorem step_of_not_wf {s : State} (h : s.cfg.wf = false) : step s = .refused .badConfig :=
  if_neg (Bool.eq_false_iff.1 h)

/-- At the lowest sample rate the default base delay is one sample. -/
theorem one_le_baseDelay {C : Config} (hwf : C.wf = true) (hb : C.flBaseS = Config.default.flBaseS) :
    1 ≤ ⌊(C.fs : ℚ) * Spec.decimal C.flBaseS⌋ := by
  have hfs : (1000 : ℚ) ≤ C.fs := by exact_mod_cast (fs_bounds hwf).1
  rw [Int.le_floor, hb, Spec.decimal, Config.default]
  norm_num
  linarith

/-- Settles O11: the model's tests on the decimals' numerators are the comparisons and floors of their values. -/
theorem configConstraints : Obligations.ConfigConstraints := by
  refine ⟨fun C => ?_, fun _ => step_of_not_wf, fun _ => one_le_baseDelay⟩
  simp only [Config.wf, decide_eq_true_eq, Dec.le_iff, Dec.lt_iff, Dec.decimal_add, Dec.floorMul_eq, Dec.decimal_int,
    Int.cast_zero, Int.cast_one, Int.cast_ofNat, mul_comm (C.fs : ℚ)]

end Sys2Proof.Proofs

/-! ## Exact conversions (spec/00_scope.md R10, R11, R14, R19) -/

namespace Sys2Proof.Machine.F32

variable {a b w : Word}

/-! ### NaN results -/

theorem and_fraction_eq_zero_iff (r : Word) : r &&& 0x007FFFFF#32 = 0#32 ↔ r.extractLsb' 0 23 = 0#23 := by
  have h : (r &&& 0x007FFFFF#32).toNat = (r.extractLsb' 0 23).toNat := by
    rw [BitVec.toNat_and, toNat_fraction, fracField]
    exact Nat.and_two_pow_sub_one_eq_mod r.toNat 23
  rw [← BitVec.toNat_inj, ← BitVec.toNat_inj, h]
  rfl

/-- U10: whatever the free bits are, what an invalid operation returns is a NaN. -/
theorem isNaN_nanResult (op : NanOp) (a b : Word) : isNaN (nanResult op a b) = true := by
  rw [isNaN_iff]
  unfold nanResult
  generalize Config.nanBits op a b = r
  dsimp only
  split
  · refine ⟨?_, fun h => ?_⟩
    · rw [BitVec.extractLsb'_or]
      exact BitVec.or_allOnes
    · have h22 : (r ||| 0x7FC00000#32).getLsbD 22 = false := by
        simpa using congrArg (fun x => x.getLsbD 22) h
      simp at h22
  · next h0 =>
    refine ⟨?_, fun h => h0 ((and_fraction_eq_zero_iff r).2 ?_)⟩
    · rw [BitVec.extractLsb'_or]
      exact BitVec.or_allOnes
    · rw [BitVec.extractLsb'_or] at h
      exact (BitVec.or_eq_zero_iff.1 h).1

/-! ### Magnitudes of whole numbers -/

/-- A number of units that some finite magnitude has is packed exactly. -/
theorem pack_exact {n c : Nat} (h : magOf c = n) (hc : c < infBits) (neg : Bool) :
    isFinite (pack neg (roundMag n 1)) = true ∧
      val (pack neg (roundMag n 1)) = (if neg then -(n : ℚ) else n) / 2 ^ 149 := by
  have hr : roundMag n 1 = c := by
    rw [roundMag_eq, ← h, ← mul_one (magOf c), roundBits_magOf c one_pos]
    exact Nat.min_eq_left hc.le
  have hlt : c < 2 ^ 31 := hc.trans (by decide)
  rw [hr, val_pack hlt, h, isFinite, magBits_pack hlt, decide_eq_true_eq]
  exact ⟨hc, rfl⟩

/-- A whole number of at most 24 bits is a finite magnitude. -/
theorem exists_finite_magOf {j : Nat} (hj : j ≤ 2 ^ 24) : ∃ c, c < infBits ∧ magOf c = j * 2 ^ 149 := by
  obtain ⟨c, hc⟩ := exists_magOf (e := 149) hj (by omega)
  refine ⟨c, magOf_strictMono.lt_iff_lt.1 ?_, hc⟩
  calc magOf c = j * 2 ^ 149 := hc
    _ ≤ 2 ^ 24 * 2 ^ 149 := Nat.mul_le_mul_right _ hj
    _ < magOf infBits := by rw [magOf_infBits]; decide

/-- A magnitude of `2^(k + 23)` units or more is a multiple of `2^k` units. -/
theorem pow_dvd_magOf {m k : Nat} (h : 2 ^ (k + 23) ≤ magOf m) : 2 ^ k ∣ magOf m := by
  have hfrac : m % 2 ^ 23 < 2 ^ 23 := Nat.mod_lt _ (by positivity)
  have hk : 2 ^ 23 ≤ 2 ^ (k + 23) := Nat.pow_le_pow_right (by omega) (by omega)
  unfold magOf at h ⊢
  split
  · next he =>
    rw [if_pos he] at h
    omega
  · next he =>
    rw [if_neg he] at h
    refine Dvd.dvd.mul_left (Nat.pow_dvd_pow 2 ?_) _
    have hlt : 2 ^ (k + 23) < 2 ^ (24 + (m / 2 ^ 23 - 1)) := by
      refine h.trans_lt ?_
      rw [pow_add 2 24]
      exact Nat.mul_lt_mul_of_pos_right (by omega) (by positivity)
    have := (Nat.pow_lt_pow_iff_right (by omega)).1 hlt
    omega

/-! ### `floor`, `abs`, `ofInt`, `toNat` -/

theorem natAbs_scaled (w : Word) : (scaled w).natAbs = mag w := by
  rw [scaled]
  split <;> omega

theorem floor_val (w : Word) : ⌊val w⌋ = scaled w / 2 ^ 149 := by
  have h : val w = (scaled w : ℚ) / ((2 ^ 149 : ℕ) : ℚ) := by
    rw [val]
    norm_num
  rw [h, Rat.floor_intCast_div_natCast]
  norm_num

/-- The integer part of a finite datum is a finite datum: below `2^23` by its size, above because the datum is whole. -/
theorem exists_floor_magOf (h : isFinite w = true) :
    ∃ c, c < infBits ∧ magOf c = (scaled w / 2 ^ 149).natAbs * 2 ^ 149 := by
  have hs := natAbs_scaled w
  rcases Nat.lt_or_ge (mag w) (2 ^ (149 + 23)) with hlt | hge
  · exact exists_finite_magOf (by omega)
  · rw [mag_eq] at hge hs
    refine ⟨magBits w, of_decide_eq_true h, ?_⟩
    have hdvd : (2 ^ 149 : ℤ) ∣ scaled w := by
      rw [← Int.natAbs_dvd_natAbs, hs]
      exact pow_dvd_magOf hge
    obtain ⟨q, hq⟩ := hdvd
    rw [hq, Int.mul_ediv_cancel_left _ (by positivity), ← hs, hq, Int.natAbs_mul, Nat.mul_comm]
    rfl

theorem floor_finite (h : isFinite w = true) :
    isFinite (floor w) = true ∧ val (floor w) = ⌊val w⌋ := by
  have hzero : isFinite (pack (sign w) 0) = true ∧ val (pack (sign w) 0) = 0 := by
    rw [val_pack (by positivity), isFinite, magBits_pack (by positivity)]
    refine ⟨by decide, ?_⟩
    cases sign w <;> simp
  obtain ⟨c, hc, hmag⟩ := exists_floor_magOf h
  rw [floor_val, floor, isNaN_of_finite h, isInf_of_finite h]
  simp only [Bool.false_eq_true, if_false]
  split
  · next h0 =>
    rw [h0, Int.cast_zero]
    exact hzero
  · obtain ⟨hfin, hval⟩ := pack_exact hmag hc (decide (scaled w / 2 ^ 149 < 0))
    refine ⟨hfin, hval.trans ?_⟩
    rw [scaled_cast]
    norm_num

theorem abs_finite (h : isFinite w = true) : isFinite (abs w) = true ∧ val (abs w) = |val w| := by
  rw [abs, isNaN_of_finite h, if_neg Bool.false_ne_true, isFinite, magBits_pack (magBits_lt w), val_pack (magBits_lt w),
    val_sign_mag, mag_eq]
  refine ⟨h, ?_⟩
  rw [abs_div, abs_of_pos (by positivity : (0 : ℚ) < 2 ^ 149)]
  cases sign w <;> simp

theorem ofInt_exact {n : ℤ} (h : n.natAbs ≤ 2 ^ 24) : isFinite (ofInt n) = true ∧ val (ofInt n) = n := by
  obtain ⟨c, hc, hmag⟩ := exists_finite_magOf h
  obtain ⟨hfin, hval⟩ := pack_exact hmag hc (decide (n < 0))
  refine ⟨hfin, hval.trans ?_⟩
  rw [scaled_cast]
  norm_num

theorem scaled_nonneg_iff (w : Word) : 0 ≤ scaled w ↔ 0 ≤ val w := by
  rw [val, le_div_iff₀ (by positivity), zero_mul, Int.cast_nonneg_iff]

theorem val_of_nonneg (h : 0 ≤ val w) : val w = (mag w : ℚ) / ((2 ^ 149 : ℕ) : ℚ) := by
  rw [val, ← natAbs_scaled w, Nat.cast_natAbs, abs_of_nonneg ((scaled_nonneg_iff w).2 h)]
  norm_num

theorem toNat_eq_floor (h : isFinite w = true) (h0 : 0 ≤ val w) : toNat w = ⌊val w⌋₊ := by
  rw [toNat, h, val_of_nonneg h0, Nat.floor_div_eq_div]
  simp [(scaled_nonneg_iff w).2 h0]

/-! ### Infinities and NaNs -/

theorem toBits32_of_num (h : isNaN w = false) : toBits32 w = w := by
  rw [toBits32, h, if_neg Bool.false_ne_true]

theorem isNaN_conversions (h : isNaN w = true) :
    isNaN (floor w) = true ∧ isNaN (abs w) = true ∧ isNaN (toBits32 w) = true := by
  rw [floor, abs, toBits32, if_pos h, if_pos h, if_pos h]
  exact ⟨isNaN_nanResult _ _ _, isNaN_nanResult _ _ _, isNaN_nanResult _ _ _⟩

theorem compare_of_isNaN (h : isNaN a = true ∨ isNaN b = true) :
    lt a b = false ∧ le a b = false ∧ eq a b = false := by
  rcases h with h | h <;> simp [lt, le, eq, h]

/-- Positive infinity is above every datum, and equal to itself alone. -/
theorem compare_posInf (h : isNaN a = false) :
    le a 0x7F800000#32 = true ∧ lt 0x7F800000#32 a = false ∧ (le 0x7F800000#32 a = true ↔ a = 0x7F800000#32) ∧
    (eq a 0x7F800000#32 = true ↔ a = 0x7F800000#32) ∧ (eq 0x7F800000#32 a = true ↔ a = 0x7F800000#32) := by
  have hk := key_bounds h
  rw [flt_false_iff isNaN_posInf h, le_iff_key h isNaN_posInf, le_iff_key isNaN_posInf h, eq_iff_key h isNaN_posInf,
    eq_iff_key isNaN_posInf h, key_posInf, ← key_eq_infBits_iff]
  omega

/-- Negative infinity is below every datum, and equal to itself alone. -/
theorem compare_negInf (h : isNaN a = false) :
    le 0xFF800000#32 a = true ∧ lt a 0xFF800000#32 = false ∧ (le a 0xFF800000#32 = true ↔ a = 0xFF800000#32) ∧
    (eq a 0xFF800000#32 = true ↔ a = 0xFF800000#32) ∧ (eq 0xFF800000#32 a = true ↔ a = 0xFF800000#32) := by
  have hk := key_bounds h
  rw [flt_false_iff h isNaN_negInf, le_iff_key h isNaN_negInf, le_iff_key isNaN_negInf h, eq_iff_key h isNaN_negInf,
    eq_iff_key isNaN_negInf h, key_negInf, ← key_eq_neg_infBits_iff]
  omega

end Sys2Proof.Machine.F32

namespace Sys2Proof.Proofs

open Sys2Proof.Machine Sys2Proof.Machine.F32

/-- Settles O57, from the laws of each conversion and of the order. -/
theorem exactConversions : Obligations.ExactConversions := by
  unfold Obligations.ExactConversions
  simp only [← isFinite_iff, ← isNaN_iff, Bool.not_eq_true, value_eq]
  refine ⟨fun a ha => ?_, fun a => toBits32_of_num, fun a => isNaN_conversions, fun d => (packs_ofDec d).rounded,
    fun n hn => ofInt_exact hn.le, fun a b ha hb => ?_, fun a ha => ?_, by decide, fun a b => compare_of_isNaN⟩
  · obtain ⟨hfloor, hfloorVal⟩ := floor_finite ha
    obtain ⟨habs, habsVal⟩ := abs_finite ha
    exact ⟨hfloor, hfloorVal, habs, habsVal, toNat_eq_floor ha⟩
  · have hna := isNaN_of_finite ha
    have hnb := isNaN_of_finite hb
    exact ⟨lt_iff hna hnb, le_iff hna hnb, eq_iff hna hnb⟩
  · obtain ⟨hle, hlt, hleIff, heq, heq'⟩ := compare_posInf ha
    obtain ⟨nle, nlt, nleIff, neq, neq'⟩ := compare_negInf ha
    exact ⟨hle, nle, hlt, nlt, lt_posInf_iff ha, negInf_lt_iff ha, hleIff, nleIff, heq, heq', neq, neq'⟩

end Sys2Proof.Proofs

/-! ## Operands that are not finite, and zeros (spec/00_scope.md R11, R13) -/

namespace Sys2Proof.Machine.F32

variable {a b w : Word}

/-! ### Infinities and zeros by their fields -/

theorem isInf_iff (w : Word) : isInf w = true ↔ magBits w = infBits := by rw [isInf, decide_eq_true_eq]

/-- A datum that is not a NaN is an infinity when it is not finite. -/
theorem not_isFinite_iff (h : isNaN w = false) : ¬isFinite w = true ↔ isInf w = true := by
  have hm : magBits w ≤ infBits := by simpa [isNaN] using h
  rw [isInf_iff, isFinite, decide_eq_true_eq]
  omega

theorem isNaN_of_inf (h : isInf w = true) : isNaN w = false := by
  rw [isInf_iff] at h
  simp [isNaN, h]

theorem not_isFinite_of_inf (h : isInf w = true) : ¬isFinite w = true := (not_isFinite_iff (isNaN_of_inf h)).2 h

theorem isFinite_of_zero (h : magBits w = 0) : isFinite w = true := by
  rw [isFinite, h]
  decide

theorem isInf_pack {neg : Bool} {m : Nat} (hm : m ≤ infBits) : isInf (pack neg m) = true ↔ m = infBits := by
  rw [isInf_iff, magBits_pack (hm.trans_lt (by decide))]

theorem magBits_ne_zero_of_inf (h : isInf w = true) : magBits w ≠ 0 := by
  rw [(isInf_iff w).1 h]
  decide

theorem eq_posZero_iff (w : Word) : w = 0#32 ↔ sign w = false ∧ magBits w = 0 :=
  ⟨fun h => h ▸ by decide, fun ⟨hs, hm⟩ => (pack_eq hs hm).symm⟩

theorem eq_negZero_iff (w : Word) : w = 0x80000000#32 ↔ sign w = true ∧ magBits w = 0 :=
  ⟨fun h => h ▸ by decide, fun ⟨hs, hm⟩ => (pack_eq hs hm).symm⟩

/-- Two infinities are one exactly when their signs are. -/
theorem inf_eq_iff (ha : isInf a = true) (hb : isInf b = true) : a = b ↔ sign a = sign b :=
  ⟨fun h => h ▸ rfl, fun h => word_ext h (((isInf_iff a).1 ha).trans ((isInf_iff b).1 hb).symm)⟩

@[simp] theorem sign_negate (w : Word) : sign (negate w) = !sign w := sign_pack (magBits_lt w)

@[simp] theorem magBits_negate (w : Word) : magBits (negate w) = magBits w := magBits_pack (magBits_lt w)

@[simp] theorem isInf_negate (w : Word) : isInf (negate w) = isInf w := by rw [isInf, isInf, magBits_negate]

theorem negate_eq_xor (w : Word) : negate w = w ^^^ 0x80000000#32 := by
  refine word_ext ?_ ?_
  · rw [sign_negate, sign, sign, BitVec.getLsbD_xor]
    simp
  · have h : (w ^^^ 0x80000000#32).toNat % 2 ^ 31 = w.toNat % 2 ^ 31 := by
      rw [BitVec.toNat_xor, Nat.xor_mod_two_pow]
      simp
    exact (magBits_negate w).trans h.symm

theorem negate_eq_negZero_iff (w : Word) : negate w = 0x80000000#32 ↔ w = 0#32 := by
  rw [eq_negZero_iff, eq_posZero_iff, sign_negate, magBits_negate, Bool.not_eq_true']

/-! ### Sums -/

section Sum

variable {nan : Word}

theorem sum_of_isNaN (h : isNaN a = true ∨ isNaN b = true) : sum nan a b = nan := by
  rcases h with h | h <;> simp [sum, h]

/-- An infinity plus a finite datum or itself. -/
theorem sum_inf_left (ha : isInf a = true) (hb : isNaN b = false) (h : isFinite b = true ∨ a = b) : sum nan a b = a := by
  have hs : (isInf b && (sign a != sign b)) = false := by
    rcases h with h | rfl
    · rw [isInf_of_finite h, Bool.false_and]
    · rw [bne_self_eq_false, Bool.and_false]
  simp [sum, isNaN_of_inf ha, hb, ha, hs]

/-- An infinity plus its opposite. -/
theorem sum_inf_inf (ha : isInf a = true) (hb : isInf b = true) (h : a ≠ b) : sum nan a b = nan := by
  rw [ne_eq, inf_eq_iff ha hb] at h
  simp [sum, isNaN_of_inf ha, isNaN_of_inf hb, ha, hb, h]

theorem sum_inf_right (ha : isFinite a = true) (hb : isInf b = true) : sum nan a b = b := by
  simp [sum, isNaN_of_finite ha, isNaN_of_inf hb, isInf_of_finite ha, hb]

/-- What a sum of two data that are not NaNs is, when one of them is an infinity. -/
theorem sum_inf_cases (ha : isNaN a = false) (hb : isNaN b = false) (h : ¬(isFinite a = true ∧ isFinite b = true)) :
    (isInf a = true ∧ (isFinite b = true ∨ a = b) ∧ sum nan a b = a) ∨
    (isFinite a = true ∧ isInf b = true ∧ sum nan a b = b) ∨
    (isInf a = true ∧ isInf b = true ∧ a ≠ b ∧ sum nan a b = nan) := by
  by_cases hfa : isFinite a = true
  · have hib := (not_isFinite_iff hb).1 fun hfb => h ⟨hfa, hfb⟩
    exact .inr (.inl ⟨hfa, hib, sum_inf_right hfa hib⟩)
  · have hia := (not_isFinite_iff ha).1 hfa
    by_cases hs : isFinite b = true ∨ a = b
    · exact .inl ⟨hia, hs, sum_inf_left hia hb hs⟩
    · rw [not_or, not_isFinite_iff hb] at hs
      exact .inr (.inr ⟨hia, hs.1, hs.2, sum_inf_inf hia hs.1 hs.2⟩)

theorem isNaN_sum_iff (hn : isNaN nan = true) (ha : isNaN a = false) (hb : isNaN b = false) :
    isNaN (sum nan a b) = true ↔ isInf a = true ∧ isInf b = true ∧ a ≠ b := by
  by_cases h : isFinite a = true ∧ isFinite b = true
  · simp [(rounds_sum nan h.1 h.2).num, isInf_of_finite h.1]
  · rcases sum_inf_cases (nan := nan) ha hb h with ⟨-, hfb | rfl, hsum⟩ | ⟨hfa, -, hsum⟩ | ⟨hia, hib, hne, hsum⟩
    · simp [hsum, ha, isInf_of_finite hfb]
    · simp [hsum, ha]
    · simp [hsum, hb, isInf_of_finite hfa]
    · simp [hsum, hn, hia, hib, hne]

theorem not_isFinite_sum (hn : isNaN nan = true) (ha : isNaN a = false) (hb : isNaN b = false)
    (h : ¬(isFinite a = true ∧ isFinite b = true)) : ¬isFinite (sum nan a b) = true := by
  rcases sum_inf_cases (nan := nan) ha hb h with ⟨hia, -, hsum⟩ | ⟨-, hib, hsum⟩ | ⟨-, -, -, hsum⟩
  · rw [hsum, not_isFinite_iff ha]
    exact hia
  · rw [hsum, not_isFinite_iff hb]
    exact hib
  · rw [hsum]
    intro hf
    simp [isNaN_of_finite hf] at hn

theorem roundMag_pos {n : Nat} (h : n ≠ 0) : 0 < roundMag n 1 := by
  have h1 : magOf 1 * 1 ≤ n := by
    have hone : magOf 1 = 1 := by decide
    omega
  exact Nat.lt_min.2 ⟨le_roundBits one_pos h1, by decide⟩

/-- Two finite data sum to no units: both are zeros, or their signs differ. -/
theorem zero_sum_cases (h : scaled a + scaled b = 0) :
    (magBits a = 0 ∧ magBits b = 0) ∨ (sign a && sign b) = false := by
  rw [← mag_eq_zero_iff, ← mag_eq_zero_iff]
  simp only [scaled] at h
  cases ha : sign a <;> cases hb : sign b <;> simp [ha, hb] at h ⊢
  omega

/-- Only two negative zeros sum to a negative zero. -/
theorem sum_eq_negZero_iff (hn : isNaN nan = true) (ha : isNaN a = false) (hb : isNaN b = false) :
    sum nan a b = 0x80000000#32 ↔ a = 0x80000000#32 ∧ b = 0x80000000#32 := by
  by_cases h : isFinite a = true ∧ isFinite b = true
  · rw [sum_finite nan h.1 h.2, eq_negZero_iff, eq_negZero_iff, eq_negZero_iff]
    split
    · next h0 =>
      rw [sign_pack (by positivity), magBits_pack (by positivity), Bool.and_eq_true]
      rcases zero_sum_cases h0 with ⟨hma, hmb⟩ | hs
      · simp [hma, hmb]
      · simp only [Bool.and_eq_false_iff] at hs
        rcases hs with hs | hs <;> simp [hs]
    · next h0 =>
      have hpos := roundMag_pos (Int.natAbs_ne_zero.2 h0)
      rw [magBits_pack ((roundMag_le _ _).trans_lt (by decide))]
      refine ⟨fun ⟨_, hm⟩ => absurd hm hpos.ne', fun ⟨⟨_, hma⟩, ⟨_, hmb⟩⟩ => absurd ?_ h0⟩
      rw [scaled_eq, scaled_eq, hma, hmb]
      simp
  · refine ⟨fun hs => absurd ?_ (not_isFinite_sum hn ha hb h), fun ⟨hza, hzb⟩ => absurd ?_ h⟩
    · rw [hs]
      decide
    · rw [hza, hzb]
      decide

/-- Every other exact zero sum is a positive zero. -/
theorem sum_eq_posZero (ha : isFinite a = true) (hb : isFinite b = true) (h : scaled a + scaled b = 0)
    (hne : ¬(a = 0x80000000#32 ∧ b = 0x80000000#32)) : sum nan a b = 0#32 := by
  suffices hs : (sign a && sign b) = false by
    rw [sum_finite nan ha hb, if_pos h, hs]
    rfl
  rcases zero_sum_cases h with ⟨hma, hmb⟩ | hs
  · rw [eq_negZero_iff, eq_negZero_iff] at hne
    simp only [hma, hmb, and_true, ← Bool.and_eq_true, Bool.not_eq_true] at hne
    exact hne
  · exact hs

end Sum

/-! ### Products and quotients -/

/-- An infinity times a zero. -/
def InvalidMul (a b : Word) : Prop := isInf a = true ∧ magBits b = 0 ∨ magBits a = 0 ∧ isInf b = true

/-- An infinity over an infinity, or a zero over a zero. -/
def InvalidDiv (a b : Word) : Prop := isInf a = true ∧ isInf b = true ∨ magBits a = 0 ∧ magBits b = 0

theorem mul_inf (ha : isNaN a = false) (hb : isNaN b = false) (h : isInf a = true ∨ isInf b = true) :
    mul a b = if magBits a = 0 ∨ magBits b = 0 then nanResult .mul a b else pack (sign a != sign b) infBits := by
  have h' : (isInf a || isInf b) = true := by rwa [Bool.or_eq_true]
  simp [mul, ha, hb, h', mag_eq_zero_iff]

/-- What a product is: a NaN of an infinity and a zero, else a number with the exclusive or of the signs, an infinity when
an operand is one. -/
theorem mul_cases (ha : isNaN a = false) (hb : isNaN b = false) :
    (InvalidMul a b ∧ isNaN (mul a b) = true) ∨
    (¬InvalidMul a b ∧ ∃ m, m ≤ infBits ∧ mul a b = pack (sign a != sign b) m ∧
      (isInf a = true ∨ isInf b = true → m = infBits)) := by
  by_cases h : isInf a = true ∨ isInf b = true
  · have hmul := mul_inf ha hb h
    have hinv : InvalidMul a b ↔ magBits a = 0 ∨ magBits b = 0 := by
      have hpos : infBits ≠ 0 := by decide
      simp only [InvalidMul, isInf_iff] at h ⊢
      omega
    rw [hinv]
    split at hmul
    · next h0 => exact .inl ⟨h0, hmul ▸ isNaN_nanResult _ _ _⟩
    · next h0 => exact .inr ⟨h0, infBits, le_rfl, hmul, fun _ => rfl⟩
  · have hinv : ¬InvalidMul a b := fun hi => h (hi.imp And.left And.right)
    rw [not_or, ← not_isFinite_iff ha, ← not_isFinite_iff hb, not_not, not_not] at h
    exact .inr ⟨hinv, _, roundMag_le _ _, mul_finite h.1 h.2, fun hi =>
      absurd hi (not_or.2 ⟨fun hia => not_isFinite_of_inf hia h.1, fun hib => not_isFinite_of_inf hib h.2⟩)⟩

theorem isNaN_div_of_invalid (h : InvalidDiv a b) : isNaN (div a b) = true := by
  have hnan := isNaN_nanResult .div a b
  rcases h with ⟨hia, hib⟩ | ⟨h0a, h0b⟩
  · simp [div, hia, hib, hnan]
  · simp [div, mag_eq_zero_iff, h0a, h0b, isInf_of_finite (isFinite_of_zero h0a), isInf_of_finite (isFinite_of_zero h0b),
      hnan]

theorem div_inf_left (ha : isInf a = true) (hb : isFinite b = true) : div a b = pack (sign a != sign b) infBits := by
  simp [div, isNaN_of_inf ha, isNaN_of_finite hb, ha, isInf_of_finite hb]

theorem div_inf_right (ha : isFinite a = true) (hb : isInf b = true) : div a b = pack (sign a != sign b) 0 := by
  simp [div, isNaN_of_finite ha, isNaN_of_inf hb, isInf_of_finite ha, hb]

theorem div_by_zero (ha : isFinite a = true) (h0a : magBits a ≠ 0) (hb : magBits b = 0) :
    div a b = pack (sign a != sign b) infBits := by
  have hfb := isFinite_of_zero hb
  simp [div, isNaN_of_finite ha, isNaN_of_finite hfb, isInf_of_finite ha, isInf_of_finite hfb, mag_eq_zero_iff, h0a, hb]

/-- What a quotient is: a NaN of two infinities or two zeros, else a number with the exclusive or of the signs, which is an
infinity of an infinity and of a division by zero, and a zero of a division by an infinity. -/
theorem div_cases (ha : isNaN a = false) (hb : isNaN b = false) :
    (InvalidDiv a b ∧ isNaN (div a b) = true) ∨
    (¬InvalidDiv a b ∧ ∃ m, m ≤ infBits ∧ div a b = pack (sign a != sign b) m ∧
      (isInf a = true ∨ magBits b = 0 → m = infBits) ∧ (isInf b = true → m = 0)) := by
  by_cases hinv : InvalidDiv a b
  · exact .inl ⟨hinv, isNaN_div_of_invalid hinv⟩
  refine .inr ⟨hinv, ?_⟩
  by_cases hfa : isFinite a = true
  · have hia : ¬isInf a = true := fun h => not_isFinite_of_inf h hfa
    by_cases hfb : isFinite b = true
    · have hib : ¬isInf b = true := fun h => not_isFinite_of_inf h hfb
      by_cases h0 : magBits b = 0
      · have h0a : magBits a ≠ 0 := fun h => hinv (.inr ⟨h, h0⟩)
        exact ⟨infBits, le_rfl, div_by_zero hfa h0a h0, fun _ => rfl, fun h => absurd h hib⟩
      · exact ⟨_, roundMag_le _ _, div_finite hfa hfb (mt (mag_eq_zero_iff b).1 h0), fun h => absurd h (not_or.2 ⟨hia, h0⟩),
          fun h => absurd h hib⟩
    · have hib := (not_isFinite_iff hb).1 hfb
      exact ⟨0, Nat.zero_le _, div_inf_right hfa hib, fun h => absurd h (not_or.2 ⟨hia, magBits_ne_zero_of_inf hib⟩),
        fun _ => rfl⟩
  · have hia := (not_isFinite_iff ha).1 hfa
    have hib : ¬isInf b = true := fun h => hinv (.inl ⟨hia, h⟩)
    have hfb : isFinite b = true := not_not.1 (mt (not_isFinite_iff hb).1 hib)
    exact ⟨infBits, le_rfl, div_inf_left hia hfb, fun _ => rfl, fun h => absurd h hib⟩

theorem isNaN_mul_iff (ha : isNaN a = false) (hb : isNaN b = false) : isNaN (mul a b) = true ↔ InvalidMul a b := by
  rcases mul_cases ha hb with ⟨hi, hn⟩ | ⟨hi, m, hm, hmul, -⟩
  · exact iff_of_true hn hi
  · rw [hmul, not_isNaN_pack hm]
    exact iff_of_false Bool.false_ne_true hi

theorem sign_mul (ha : isNaN a = false) (hb : isNaN b = false) (h : ¬isNaN (mul a b) = true) :
    sign (mul a b) = (sign a != sign b) := by
  rcases mul_cases ha hb with ⟨-, hn⟩ | ⟨-, m, hm, hmul, -⟩
  · exact absurd hn h
  · rw [hmul, sign_pack (hm.trans_lt (by decide))]

theorem not_isFinite_mul (ha : isNaN a = false) (hb : isNaN b = false) (h : isInf a = true ∨ isInf b = true) :
    ¬isFinite (mul a b) = true := by
  rcases mul_cases ha hb with ⟨-, hn⟩ | ⟨-, m, hm, hmul, hinf⟩
  · exact fun hf => Bool.false_ne_true ((isNaN_of_finite hf).symm.trans hn)
  · rw [hmul, hinf h]
    exact not_isFinite_of_inf ((isInf_pack le_rfl).2 rfl)

theorem isNaN_div_iff (ha : isNaN a = false) (hb : isNaN b = false) : isNaN (div a b) = true ↔ InvalidDiv a b := by
  rcases div_cases ha hb with ⟨hi, hn⟩ | ⟨hi, m, hm, hdiv, -⟩
  · exact iff_of_true hn hi
  · rw [hdiv, not_isNaN_pack hm]
    exact iff_of_false Bool.false_ne_true hi

theorem sign_div (ha : isNaN a = false) (hb : isNaN b = false) (h : ¬isNaN (div a b) = true) :
    sign (div a b) = (sign a != sign b) := by
  rcases div_cases ha hb with ⟨-, hn⟩ | ⟨-, m, hm, hdiv, -⟩
  · exact absurd hn h
  · rw [hdiv, sign_pack (hm.trans_lt (by decide))]

theorem not_isFinite_div (ha : isNaN a = false) (hb : isNaN b = false) (h : isInf a = true ∨ magBits b = 0) :
    ¬isFinite (div a b) = true := by
  rcases div_cases ha hb with ⟨-, hn⟩ | ⟨-, m, hm, hdiv, hinf, -⟩
  · exact fun hf => Bool.false_ne_true ((isNaN_of_finite hf).symm.trans hn)
  · rw [hdiv, hinf h]
    exact not_isFinite_of_inf ((isInf_pack le_rfl).2 rfl)

theorem magBits_div_inf (ha : isFinite a = true) (hb : isInf b = true) : magBits (div a b) = 0 := by
  rcases div_cases (isNaN_of_finite ha) (isNaN_of_inf hb) with ⟨hi, -⟩ | ⟨-, m, hm, hdiv, -, hzero⟩
  · rcases hi with ⟨hia, -⟩ | ⟨-, h0⟩
    · exact absurd ha (not_isFinite_of_inf hia)
    · exact absurd h0 (magBits_ne_zero_of_inf hb)
  · rw [hdiv, hzero hb, magBits_pack (by positivity)]

/-! ### NaN operands -/

theorem isNaN_of_isNaN_operand (h : isNaN a = true ∨ isNaN b = true) :
    isNaN (add a b) = true ∧ isNaN (sub a b) = true ∧ isNaN (mul a b) = true ∧ isNaN (div a b) = true := by
  have hor : (isNaN a || isNaN b) = true := by rwa [Bool.or_eq_true]
  rw [add, sub, sum_of_isNaN h, sum_of_isNaN (by rwa [isNaN_negate]), mul, div, if_pos hor, if_pos hor]
  exact ⟨isNaN_nanResult _ _ _, isNaN_nanResult _ _ _, isNaN_nanResult _ _ _, isNaN_nanResult _ _ _⟩

/-- Of two infinities, one is the other negated exactly when they differ. -/
theorem inf_eq_negate_iff (ha : isInf a = true) (hb : isInf b = true) : a = negate b ↔ a ≠ b := by
  rw [inf_eq_iff ha (by rwa [isInf_negate]), ne_eq, inf_eq_iff ha hb, sign_negate, Bool.eq_not]

/-! ### Sums and differences -/

theorem isNaN_sub_iff (ha : isNaN a = false) (hb : isNaN b = false) :
    isNaN (sub a b) = true ↔ isInf a = true ∧ isInf b = true ∧ a = b := by
  rw [sub, isNaN_sum_iff (isNaN_nanResult _ _ _) ha ((isNaN_negate b).trans hb), isInf_negate]
  refine and_congr_right fun hia => and_congr_right fun hib => ?_
  rw [ne_eq, inf_eq_negate_iff hia hib, not_not]

theorem sub_inf_left (ha : isInf a = true) (hb : isNaN b = false) (h : isFinite b = true ∨ a ≠ b) : sub a b = a := by
  refine sum_inf_left ha ((isNaN_negate b).trans hb) ?_
  rw [isFinite_negate]
  by_cases hf : isFinite b = true
  · exact .inl hf
  · exact .inr ((inf_eq_negate_iff ha ((not_isFinite_iff hb).1 hf)).2 (h.resolve_left hf))

theorem sub_inf_right (ha : isFinite a = true) (hb : isInf b = true) : sub a b = b ^^^ 0x80000000#32 := by
  rw [sub, sum_inf_right ha ((isInf_negate b).trans hb), negate_eq_xor]

theorem sub_eq_negZero_iff (ha : isNaN a = false) (hb : isNaN b = false) :
    sub a b = 0x80000000#32 ↔ a = 0x80000000#32 ∧ b = 0x00000000#32 := by
  rw [sub, sum_eq_negZero_iff (isNaN_nanResult _ _ _) ha ((isNaN_negate b).trans hb), negate_eq_negZero_iff]

theorem scaled_add_eq_zero_iff (a b : Word) : scaled a + scaled b = 0 ↔ val a + val b = 0 := by
  rw [val, val, ← add_div, ← Int.cast_add, div_eq_zero_iff, or_iff_left (by positivity), Int.cast_eq_zero]

theorem add_eq_posZero (ha : isFinite a = true) (hb : isFinite b = true) (h : val a + val b = 0)
    (hne : ¬(a = 0x80000000#32 ∧ b = 0x80000000#32)) : add a b = 0#32 :=
  sum_eq_posZero ha hb ((scaled_add_eq_zero_iff a b).2 h) hne

theorem sub_eq_posZero (ha : isFinite a = true) (hb : isFinite b = true) (h : val a - val b = 0)
    (hne : ¬(a = 0x80000000#32 ∧ b = 0#32)) : sub a b = 0#32 := by
  refine sum_eq_posZero ha ((isFinite_negate b).trans hb) ?_ (by rwa [negate_eq_negZero_iff])
  rwa [scaled_add_eq_zero_iff, val_negate, ← sub_eq_add_neg]

end Sys2Proof.Machine.F32

namespace Sys2Proof.Proofs

open Sys2Proof.Machine Sys2Proof.Machine.F32

/-- Settles O56: what each operation does of a NaN, an infinity and a zero; a difference is the sum with the subtrahend
negated. -/
theorem specialOperands : Obligations.SpecialOperands := by
  unfold Obligations.SpecialOperands
  simp only [← isFinite_iff, ← isNaN_iff, isZero_iff, value_eq]
  refine ⟨fun a b => isNaN_of_isNaN_operand, fun a b ha hb => ?_,
    fun a b ha hb => ⟨add_eq_posZero ha hb, sub_eq_posZero ha hb⟩⟩
  rw [Bool.not_eq_true] at ha hb
  simp only [not_isFinite_iff ha, not_isFinite_iff hb]
  exact ⟨isNaN_sum_iff (isNaN_nanResult _ _ _) ha hb, isNaN_sub_iff ha hb, isNaN_mul_iff ha hb, isNaN_div_iff ha hb,
    sign_mul ha hb, sign_div ha hb, sum_eq_negZero_iff (isNaN_nanResult _ _ _) ha hb, sub_eq_negZero_iff ha hb,
    fun hia h => sum_inf_left hia hb h, fun hia h => sub_inf_left hia hb h,
    fun hfa hib => ⟨sum_inf_right hfa hib, sub_inf_right hfa hib, magBits_div_inf hfa hib⟩,
    fun h => not_isFinite_mul ha hb (h.imp And.left And.right), fun hia _ => not_isFinite_div ha hb (.inl hia),
    fun _ _ h0 => not_isFinite_div ha hb (.inr h0)⟩

end Sys2Proof.Proofs

/-! ## The transcendental fields (spec/00_scope.md R12) -/

namespace Sys2Proof.Machine.F32

variable {a b w : Word}

/-! ### Bisection between two values is monotone, whatever the free function is -/

/-- What the free function gives at a midpoint is cut to the two values it lies between. -/
theorem cut_bounds (v : Nat) {flo fhi : Nat} (h : flo ≤ fhi) :
    flo ≤ Nat.max flo (Nat.min fhi v) ∧ Nat.max flo (Nat.min fhi v) ≤ fhi :=
  ⟨Nat.le_max_left _ _, Nat.max_le.2 ⟨h, Nat.min_le_left _ _⟩⟩

theorem monoPick_bounds (fuel : Nat) (lo hi k : Int) {flo fhi : Nat} (h : flo ≤ fhi) :
    flo ≤ monoPick fuel lo hi flo fhi k ∧ monoPick fuel lo hi flo fhi k ≤ fhi := by
  induction fuel generalizing lo hi flo fhi with
  | zero => exact ⟨le_rfl, h⟩
  | succ fuel ih =>
    simp only [monoPick]
    obtain ⟨hlo, hhi⟩ := cut_bounds (Config.exp2Free ((lo + hi) / 2)) h
    split
    · exact ⟨hlo, hhi⟩
    split
    · exact (ih lo _ hlo).imp_right fun h' => h'.trans hhi
    · exact (ih _ hi hhi).imp_left fun h' => hlo.trans h'

theorem monoPick_mono (fuel : Nat) (lo hi : Int) {k k' : Int} {flo fhi : Nat} (h : flo ≤ fhi) (hk : k ≤ k') :
    monoPick fuel lo hi flo fhi k ≤ monoPick fuel lo hi flo fhi k' := by
  induction fuel generalizing lo hi flo fhi with
  | zero => exact le_rfl
  | succ fuel ih =>
    simp only [monoPick]
    obtain ⟨hlo, hhi⟩ := cut_bounds (Config.exp2Free ((lo + hi) / 2)) h
    generalize Nat.max flo (Nat.min fhi (Config.exp2Free ((lo + hi) / 2))) = fmid at hlo hhi ⊢
    generalize (lo + hi) / 2 = mid
    have hbelow := (monoPick_bounds fuel lo mid k hlo).2
    have habove := (monoPick_bounds fuel mid hi k' hhi).1
    rcases lt_trichotomy k mid with h1 | h1 | h1 <;> rcases lt_trichotomy k' mid with h2 | h2 | h2
    · simpa [h1, h1.ne, h2, h2.ne] using ih lo mid hlo
    · simpa [h1, h1.ne, h2] using hbelow
    · simpa [h1, h1.ne, h2.ne', h2.not_gt] using hbelow.trans habove
    · omega
    · simp [h1, h2]
    · simpa [h1, h2.ne', h2.not_gt] using habove
    · omega
    · omega
    · simpa [h1.ne', h1.not_gt, h2.ne', h2.not_gt] using ih mid hi hhi

/-! ### The four stretches of `exp2` between its fixed points -/

theorem exp2Bits_belowNegOne {k : Int} (h : k < -0x3F800000) :
    exp2Bits k = monoPick 32 (-0x7F800000) (-0x3F800000) 1 0x3F000000 k := by
  rw [exp2Bits, if_neg (by omega), if_neg (by omega), if_neg (by omega), if_pos h]

theorem exp2Bits_belowZero {k : Int} (h : -0x3F800000 < k) (h' : k < 0) :
    exp2Bits k = monoPick 32 (-0x3F800000) 0 0x3F000000 0x3F800000 k := by
  rw [exp2Bits, if_neg (by omega), if_neg (by omega), if_neg (by omega), if_neg (by omega), if_pos h']

theorem exp2Bits_belowOne {k : Int} (h : 0 < k) (h' : k < 0x3F800000) :
    exp2Bits k = monoPick 32 0 0x3F800000 0x3F800000 0x40000000 k := by
  rw [exp2Bits, if_neg (by omega), if_neg (by omega), if_neg (by omega), if_neg (by omega), if_neg (by omega), if_pos h']

theorem exp2Bits_aboveOne {k : Int} (h : 0x3F800000 < k) :
    exp2Bits k = monoPick 32 0x3F800000 0x7F800000 0x40000000 infBits k := by
  rw [exp2Bits, if_neg (by omega), if_neg (by omega), if_neg (by omega), if_neg (by omega), if_neg (by omega),
    if_neg (by omega)]

theorem exp2Bits_negOne : exp2Bits (-0x3F800000) = 0x3F000000 := by decide
theorem exp2Bits_zero : exp2Bits 0 = 0x3F800000 := by decide
theorem exp2Bits_one : exp2Bits 0x3F800000 = 0x40000000 := by decide

/-- Every value is positive, none above infinity, and each stands to the fixed points as its key does. -/
theorem exp2Bits_bounds (k : Int) :
    1 ≤ exp2Bits k ∧ exp2Bits k ≤ infBits ∧
    (k ≤ -0x3F800000 → exp2Bits k ≤ 0x3F000000) ∧ (-0x3F800000 ≤ k → 0x3F000000 ≤ exp2Bits k) ∧
    (k ≤ 0 → exp2Bits k ≤ 0x3F800000) ∧ (0 ≤ k → 0x3F800000 ≤ exp2Bits k) ∧
    (k ≤ 0x3F800000 → exp2Bits k ≤ 0x40000000) ∧ (0x3F800000 ≤ k → 0x40000000 ≤ exp2Bits k) := by
  have hinf : infBits = 0x7F800000 := rfl
  rcases lt_trichotomy k (-0x3F800000) with h1 | rfl | h1
  · have := monoPick_bounds 32 (-0x7F800000) (-0x3F800000) k (flo := 1) (fhi := 0x3F000000) (by decide)
    rw [exp2Bits_belowNegOne h1]
    omega
  · rw [exp2Bits_negOne]
    omega
  rcases lt_trichotomy k 0 with h2 | rfl | h2
  · have := monoPick_bounds 32 (-0x3F800000) 0 k (flo := 0x3F000000) (fhi := 0x3F800000) (by decide)
    rw [exp2Bits_belowZero h1 h2]
    omega
  · rw [exp2Bits_zero]
    omega
  rcases lt_trichotomy k 0x3F800000 with h3 | rfl | h3
  · have := monoPick_bounds 32 0 0x3F800000 k (flo := 0x3F800000) (fhi := 0x40000000) (by decide)
    rw [exp2Bits_belowOne h2 h3]
    omega
  · rw [exp2Bits_one]
    omega
  · have := monoPick_bounds 32 0x3F800000 0x7F800000 k (flo := 0x40000000) (fhi := infBits) (by decide)
    rw [exp2Bits_aboveOne h3]
    omega

/-- Two keys with a fixed point between them are ordered through it; two on one stretch are ordered by the bisection. -/
theorem exp2Bits_mono {k k' : Int} (h : k ≤ k') : exp2Bits k ≤ exp2Bits k' := by
  obtain ⟨-, -, hn, -, hz, -, ho, -⟩ := exp2Bits_bounds k
  obtain ⟨-, -, -, hn', -, hz', -, ho'⟩ := exp2Bits_bounds k'
  by_cases h1 : k' < -0x3F800000
  · rw [exp2Bits_belowNegOne h1, exp2Bits_belowNegOne (by omega)]
    exact monoPick_mono 32 _ _ (by decide) h
  by_cases h2 : k ≤ -0x3F800000
  · omega
  by_cases h3 : k' < 0
  · rw [exp2Bits_belowZero (by omega) h3, exp2Bits_belowZero (by omega) (by omega)]
    exact monoPick_mono 32 _ _ (by decide) h
  by_cases h4 : k ≤ 0
  · omega
  by_cases h5 : k' < 0x3F800000
  · rw [exp2Bits_belowOne (by omega) h5, exp2Bits_belowOne (by omega) (by omega)]
    exact monoPick_mono 32 _ _ (by decide) h
  by_cases h6 : k ≤ 0x3F800000
  · omega
  · rw [exp2Bits_aboveOne (by omega), exp2Bits_aboveOne (by omega)]
    exact monoPick_mono 32 _ _ (by decide) h

/-! ### `exp2` -/

theorem exp2_finite (h : isFinite a = true) : exp2 a = pack false (exp2Bits (key a)) := if_pos h

theorem isNaN_exp2 (h : isFinite a = true) : isNaN (exp2 a) = false := by
  rw [exp2_finite h]
  exact not_isNaN_pack (exp2Bits_bounds _).2.1

theorem key_exp2 (h : isFinite a = true) : key (exp2 a) = exp2Bits (key a) := by
  rw [exp2_finite h, key_pack ((exp2Bits_bounds _).2.1.trans_lt (by decide))]
  rfl

theorem exp2_mono (ha : isFinite a = true) (hb : isFinite b = true) (h : le a b = true) : le (exp2 a) (exp2 b) = true := by
  rw [le_iff_key (isNaN_of_finite ha) (isNaN_of_finite hb)] at h
  rw [le_iff_key (isNaN_exp2 ha) (isNaN_exp2 hb), key_exp2 ha, key_exp2 hb]
  exact_mod_cast exp2Bits_mono h

theorem exp2_pos (h : isFinite a = true) : lt 0#32 (exp2 a) = true := by
  have hpos := (exp2Bits_bounds (key a)).1
  have hzero : key 0#32 = 0 := by decide
  rw [lt_iff_key (by decide) (isNaN_exp2 h), key_exp2 h, hzero]
  omega

/-! ### Data that compare equal -/

/-- Data that compare equal are one datum, or two zeros. -/
theorem eq_cases (h : eq a b = true) : a = b ∨ magBits a = 0 ∧ magBits b = 0 := by
  simp only [eq, Bool.and_eq_true, decide_eq_true_eq] at h
  by_cases h0 : key a = 0
  · exact .inr ⟨(key_eq_zero_iff a).1 h0, (key_eq_zero_iff b).1 (h.2 ▸ h0)⟩
  · exact .inl (key_inj h.2 h0)

theorem exp2_congr (h : eq a b = true) : exp2 a = exp2 b := by
  rcases eq_cases h with rfl | ⟨ha, hb⟩
  · rfl
  · rw [exp2_finite (isFinite_of_zero ha), exp2_finite (isFinite_of_zero hb), (key_eq_zero_iff a).2 ha,
      (key_eq_zero_iff b).2 hb]

/-! ### `sin2pi` -/

theorem sin2pi_zero (h : magBits w = 0) : sin2pi w = 0#32 := if_pos ((key_eq_zero_iff w).2 h)

theorem sin2pi_congr (h : eq a b = true) : sin2pi a = sin2pi b := by
  rcases eq_cases h with rfl | ⟨ha, hb⟩
  · rfl
  · rw [sin2pi_zero ha, sin2pi_zero hb]

/-- On `[0, 1)` the free value is cut to `[-1, 1]`. -/
theorem sin2pi_inRange (h : inUnit w = true) : inRange 0xBF800000#32 0x3F800000#32 (sin2pi w) = true := by
  have hunit : (le 0#32 w && lt w 0x3F800000#32) = true := by rwa [inUnit, hw_zero, hw_one] at h
  simp only [sin2pi, hunit, if_true]
  split
  · decide
  split
  · decide
  split
  · decide
  split
  · decide
  generalize Config.sin2piFree w = r
  split
  · decide
  next hr =>
    rw [Bool.not_eq_true] at hr
    split
    · decide
    next h1 =>
      split
      · decide
      next h2 => exact inRange_iff.2 ⟨fle_of_not_flt hr (by decide) h1, fle_of_not_flt (by decide) hr h2⟩

end Sys2Proof.Machine.F32

namespace Sys2Proof.Proofs

open Sys2Proof.Machine Sys2Proof.Machine.F32

theorem transcendental_hw : Spec.Transcendental hw (fun w => Spec.Finite w) where
  exp2_zero := by decide
  exp2_one := by decide
  exp2_neg := by decide
  exp2_mono a b ha hb h := exp2_mono ((isFinite_iff a).2 ha) ((isFinite_iff b).2 hb) h
  exp2_pos a h := by
    rw [hw_zero]
    exact exp2_pos ((isFinite_iff a).2 h)
  sin_0 := by decide
  sin_1 := by decide
  sin_2 := by decide
  sin_3 := by decide
  sin_bounds p h0 h1 := by
    have hunit : inUnit p = true := by rw [inUnit, Bool.and_eq_true]; exact ⟨h0, h1⟩
    have hneg : hw.ofInt (-1) = 0xBF800000#32 := by decide
    rw [hneg, hw_one]
    exact inRange_iff.1 (sin2pi_inRange hunit)
  eq_exp2 _ _ := exp2_congr
  eq_sin2pi _ _ := sin2pi_congr

theorem transcendental_reference : Spec.Transcendental reference (fun _ => True) where
  exp2_zero := by simp [reference, Numerics.zero, Numerics.one]
  exp2_one := by simp [reference, Numerics.one]
  exp2_neg := by
    change (2 : ℝ) ^ (((-1 : ℤ)) : ℝ) = ((5 : ℤ) : ℝ) / 10 ^ 1
    rw [Int.cast_neg, Int.cast_one, Real.rpow_neg_one]
    norm_num
  exp2_mono _ _ _ _ h := decide_eq_true (Real.rpow_le_rpow_of_exponent_le one_le_two (of_decide_eq_true h))
  exp2_pos a _ := by
    have hpos : ((0 : ℤ) : ℝ) < (2 : ℝ) ^ a := by
      rw [Int.cast_zero]
      positivity
    exact decide_eq_true hpos
  sin_0 := by simp [reference, Numerics.zero]
  sin_1 := by
    have : 2 * Real.pi * (25 / 10 ^ 2) = Real.pi / 2 := by ring
    simp [reference, Numerics.one, this]
  sin_2 := by
    have : 2 * Real.pi * (5 / 10) = Real.pi := by ring
    simp [reference, Numerics.half, Numerics.zero, this]
  sin_3 := by
    have : 2 * Real.pi * (75 / 10 ^ 2) = Real.pi / 2 + Real.pi := by ring
    simp [reference, this]
  sin_bounds p _ _ := by
    simp [reference, Numerics.one, Real.neg_one_le_sin, Real.sin_le_one]
  eq_exp2 a b h := congrArg reference.exp2 (of_decide_eq_true h)
  eq_sin2pi a b h := congrArg reference.sin2pi (of_decide_eq_true h)

/-- Settles O58, for the hardware's record and for the reals. -/
theorem transcendentalProperties : Obligations.TranscendentalProperties :=
  ⟨transcendental_hw, transcendental_reference, fun _ => rfl, fun _ => rfl⟩

end Sys2Proof.Proofs

/-! ## Bounds on results: from exact bounds to rounded ones (spec/00_scope.md R11) -/

namespace Sys2Proof.Machine.F32

variable {a b w r : Word} {x lo hi : ℚ}

/-- A finite datum between two values. -/
def Within (lo hi : ℚ) (w : Word) : Prop := isFinite w = true ∧ lo ≤ val w ∧ val w ≤ hi

/-- A value that a finite datum has. -/
def IsDatum (x : ℚ) : Prop := ∃ c, isFinite c = true ∧ val c = x

theorem Within.mono {lo' hi' : ℚ} (h : Within lo hi w) (hlo : lo' ≤ lo) (hhi : hi ≤ hi') : Within lo' hi' w :=
  ⟨h.1, hlo.trans h.2.1, h.2.2.trans hhi⟩

theorem inRange_iff_within {l h : Word} (hl : isFinite l = true) (hh : isFinite h = true) :
    inRange l h w = true ↔ Within (val l) (val h) w := by
  rw [inRange_iff]
  constructor
  · rintro ⟨h1, h2⟩
    have hw := finite_between hl hh h1 h2
    have hn := isNaN_of_finite hw
    exact ⟨hw, (le_iff (isNaN_of_finite hl) hn).1 h1, (le_iff hn (isNaN_of_finite hh)).1 h2⟩
  · rintro ⟨hw, h1, h2⟩
    have hn := isNaN_of_finite hw
    exact ⟨(le_iff (isNaN_of_finite hl) hn).2 h1, (le_iff hn (isNaN_of_finite hh)).2 h2⟩

/-- Rounding does not leave an interval whose ends are data. -/
theorem Rounds.within (h : Rounds x r) (hlo : IsDatum lo) (hhi : IsDatum hi) (h1 : lo ≤ x) (h2 : x ≤ hi) :
    Within lo hi r := by
  obtain ⟨c, hc, rfl⟩ := hlo
  obtain ⟨d, hd, rfl⟩ := hhi
  rw [← inRange_iff_within hc hd, inRange_iff]
  exact ⟨h.ge_of (isNaN_of_finite hc) h1, h.le_of (isNaN_of_finite hd) h2⟩

/-! ### Which values are data -/

theorem isDatum_val (h : isFinite w = true) : IsDatum (val w) := ⟨w, h, rfl⟩

theorem IsDatum.neg (h : IsDatum x) : IsDatum (-x) := by
  obtain ⟨c, hc, rfl⟩ := h
  exact ⟨negate c, (isFinite_negate c).trans hc, val_negate c⟩

/-- A fraction of 24 bits over a power of two. -/
theorem isDatum_dyadic {j k : Nat} (hj : j ≤ 2 ^ 24) (hk : k ≤ 126) : IsDatum (j / 2 ^ k) := by
  obtain ⟨c, hc⟩ := exists_magOf (e := 149 - k) hj (by omega)
  have hfin : c < infBits := by
    refine magOf_strictMono.lt_iff_lt.1 ?_
    calc magOf c = j * 2 ^ (149 - k) := hc
      _ ≤ 2 ^ 24 * 2 ^ 149 := Nat.mul_le_mul hj (Nat.pow_le_pow_right (by omega) (by omega))
      _ < magOf infBits := by rw [magOf_infBits]; decide
  have hlt : c < 2 ^ 31 := hfin.trans (by decide)
  refine ⟨pack false c, ?_, ?_⟩
  · rw [isFinite, magBits_pack hlt, decide_eq_true_eq]
    exact hfin
  · have hpow : (2 : ℚ) ^ 149 = 2 ^ (149 - k) * 2 ^ k := by
      rw [← pow_add]
      congr 1
      omega
    rw [val_pack hlt, hc, hpow]
    push_cast
    field_simp

theorem isDatum_nat {n : Nat} (hn : n ≤ 2 ^ 24) : IsDatum n := by
  simpa using isDatum_dyadic (k := 0) hn (by omega)

theorem isDatum_zero : IsDatum 0 := by simpa using isDatum_nat (n := 0) (by omega)
theorem isDatum_two : IsDatum 2 := by simpa using isDatum_nat (n := 2) (by omega)
theorem isDatum_one : IsDatum 1 := by simpa using isDatum_nat (n := 1) (by omega)

/-! ### The operations -/

theorem within_add {la ha lb hb : ℚ} (hA : Within la ha a) (hB : Within lb hb b) (hlo : IsDatum lo) (hhi : IsDatum hi)
    (h1 : lo ≤ la + lb) (h2 : ha + hb ≤ hi) : Within lo hi (add a b) :=
  (rounds_add hA.1 hB.1).within hlo hhi (h1.trans (add_le_add hA.2.1 hB.2.1)) ((add_le_add hA.2.2 hB.2.2).trans h2)

theorem within_sub {la ha lb hb : ℚ} (hA : Within la ha a) (hB : Within lb hb b) (hlo : IsDatum lo) (hhi : IsDatum hi)
    (h1 : lo ≤ la - hb) (h2 : ha - lb ≤ hi) : Within lo hi (sub a b) :=
  (rounds_sub hA.1 hB.1).within hlo hhi (h1.trans (sub_le_sub hA.2.1 hB.2.2)) ((sub_le_sub hA.2.2 hB.2.1).trans h2)

/-- The factor on the left is not negative. -/
theorem within_mul {la ha lb hb : ℚ} (hA : Within la ha a) (hB : Within lb hb b) (h0 : 0 ≤ la) (h0b : 0 ≤ lb)
    (hlo : IsDatum lo) (hhi : IsDatum hi) (h1 : lo ≤ la * lb) (h2 : ha * hb ≤ hi) : Within lo hi (mul a b) :=
  (rounds_mul hA.1 hB.1).within hlo hhi (h1.trans (mul_le_mul hA.2.1 hB.2.1 h0b (h0.trans hA.2.1)))
    ((mul_le_mul hA.2.2 hB.2.2 (h0b.trans hB.2.1) ((h0.trans hA.2.1).trans hA.2.2)).trans h2)

theorem within_ofInt {n : ℤ} (h : n.natAbs ≤ 2 ^ 24) : Within n n (ofInt n) :=
  ⟨(ofInt_exact h).1, (ofInt_exact h).2.ge, (ofInt_exact h).2.le⟩

@[simp] theorem val_zero : val 0#32 = 0 := by
  have h : scaled 0#32 = 0 := by decide
  rw [val, h, Int.cast_zero, zero_div]

@[simp] theorem val_one : val 0x3F800000#32 = 1 := by
  have h : scaled 0x3F800000#32 = 2 ^ 149 := by decide
  rw [val, h]
  norm_num

@[simp] theorem val_negOne : val 0xBF800000#32 = -1 := by
  have h : scaled 0xBF800000#32 = -2 ^ 149 := by decide
  rw [val, h]
  norm_num

@[simp] theorem val_half : val 0x3F000000#32 = 1 / 2 := by
  have h : scaled 0x3F000000#32 = 2 ^ 148 := by decide
  rw [val, h]
  norm_num

theorem inUnit_iff (w : Word) : inUnit w = true ↔ Within 0 1 w ∧ val w < 1 := by
  have h0 : isNaN 0#32 = false := by decide
  have h1 : isNaN 0x3F800000#32 = false := by decide
  rw [inUnit, hw_zero, hw_one, Bool.and_eq_true, ← val_zero, ← val_one,
    ← inRange_iff_within (by decide) (by decide), inRange_iff]
  constructor
  · rintro ⟨hle, hlt⟩
    exact ⟨⟨hle, fle_of_flt hlt⟩, (lt_iff (not_isNaN_of_le hle).2 h1).1 hlt⟩
  · rintro ⟨⟨hle, -⟩, hlt⟩
    exact ⟨hle, (lt_iff (not_isNaN_of_le hle).2 h1).2 hlt⟩

/-! ## The fractional part, and the waveforms (spec/40_oscillator.md R103, R108) -/

/-- The largest datum below 1 has the value `1 - 2^-24`. -/
theorem val_belowOne : val 0x3F7FFFFF#32 = 1 - 1 / 2 ^ 24 := by
  have h : scaled 0x3F7FFFFF#32 = (2 ^ 24 - 1) * 2 ^ 125 := by decide
  rw [val, h]
  norm_num

/-- A datum's fractional part is a datum's distance below 1: a datum below 1 is its own, and one from 1 up is a whole
number of `2^-23`. -/
theorem fract_val_le (h : isFinite w = true) (h0 : 0 ≤ val w) : Int.fract (val w) ≤ 1 - 1 / 2 ^ 24 := by
  have hn := isNaN_of_finite h
  rcases lt_or_ge (val w) 1 with h1 | h1
  · have hk : key w < key 0x3F800000#32 := by
      rw [← lt_iff_key hn (by decide), lt_iff hn (by decide), val_one]
      exact h1
    have hk' : key w ≤ key 0x3F7FFFFF#32 := by
      have e1 : key 0x3F800000#32 = 0x3F800000 := by decide
      have e2 : key 0x3F7FFFFF#32 = 0x3F7FFFFF := by decide
      omega
    rw [Int.fract_eq_self.2 ⟨h0, h1⟩, ← val_belowOne]
    exact (key_le_iff_val _ _).1 hk'
  · have hv := val_of_nonneg h0
    have hmag : 2 ^ (126 + 23) ≤ magOf (magBits w) := by
      rw [hv, le_div_iff₀ (by positivity), one_mul] at h1
      rw [← mag_eq]
      exact_mod_cast h1
    obtain ⟨q, hq⟩ := pow_dvd_magOf hmag
    have hq' : val w = (q : ℚ) / ((2 ^ 23 : ℕ) : ℚ) := by
      rw [hv, mag_eq, hq]
      push_cast
      ring
    have hlt : q % 2 ^ 23 + 1 ≤ 2 ^ 23 := Nat.mod_lt q (by positivity)
    have hltQ : ((q % 2 ^ 23 : ℕ) : ℚ) + 1 ≤ 2 ^ 23 := by exact_mod_cast hlt
    rw [hq', Int.fract_div_natCast_eq_div_natCast_mod, div_le_iff₀ (by positivity)]
    push_cast at hltQ ⊢
    linarith

theorem wrap01_inUnit (h : isFinite w = true) (h0 : 0 ≤ val w) : inUnit (hw.wrap01 w) = true := by
  obtain ⟨hf, hfv⟩ := floor_finite h
  have hr : Rounds (Int.fract (val w)) (hw.wrap01 w) := by
    rw [Int.fract, ← hfv]
    exact rounds_sub h hf
  have hw := hr.within isDatum_zero (isDatum_val (w := 0x3F7FFFFF#32) (by decide)) (Int.fract_nonneg _)
    (by rw [val_belowOne]; exact fract_val_le h h0)
  rw [val_belowOne] at hw
  refine (inUnit_iff _).2 ⟨hw.mono le_rfl (by norm_num), hw.2.2.trans_lt (by norm_num)⟩

theorem within_one : Within 1 1 0x3F800000#32 := ⟨by decide, val_one.ge, val_one.le⟩

/-- The two phases' halves of a triangle, and a sawtooth, run through `[-1, 1]`: a multiple of the phase less a number. -/
theorem wave_within (c : Waveform) (h : inUnit w = true) : Within (-1) 1 (wave hw c w) := by
  obtain ⟨hp, hlt⟩ := (inUnit_iff w).1 h
  have hn := isNaN_of_finite hp.1
  have hneg := isDatum_one.neg
  cases c with
  | sine =>
    have hs := sin2pi_inRange h
    rwa [inRange_iff_within (by decide) (by decide), val_negOne, val_one] at hs
  | saw =>
    have hm : Within 0 2 (mul (ofInt 2) w) := within_mul (within_ofInt (by decide)) hp (by norm_num) le_rfl isDatum_zero
      isDatum_two (by norm_num) (by norm_num)
    exact within_sub hm within_one hneg isDatum_one (by norm_num) (by norm_num)
  | square =>
    change Within (-1) 1 (if lt w hw.half = true then 0x3F800000#32 else ofInt (-1))
    split
    · exact within_one.mono (by norm_num) le_rfl
    · exact (within_ofInt (n := -1) (by decide)).mono (by norm_num) (by norm_num)
  | triangle =>
    have h3 := within_ofInt (n := 3) (by decide)
    have h4 := within_ofInt (n := 4) (by decide)
    have hhalf : lt w hw.half = true ↔ val w < 1 / 2 := by
      rw [hw_half, lt_iff hn (by decide), val_half]
    change Within (-1) 1 (if lt w hw.half = true then sub (mul (ofInt 4) w) 0x3F800000#32
      else sub (ofInt 3) (mul (ofInt 4) w))
    split
    · next hl =>
      have hp' : Within 0 (1 / 2) w := ⟨hp.1, hp.2.1, (hhalf.1 hl).le⟩
      have hm : Within 0 2 (mul (ofInt 4) w) := within_mul h4 hp' (by norm_num) le_rfl isDatum_zero isDatum_two
        (by norm_num) (by norm_num)
      exact within_sub hm within_one hneg isDatum_one (by norm_num) (by norm_num)
    · next hl =>
      have hp' : Within (1 / 2) 1 w := ⟨hp.1, not_lt.1 (mt hhalf.2 hl), hp.2.2⟩
      have hm : Within 2 4 (mul (ofInt 4) w) := within_mul h4 hp' (by norm_num) (by norm_num) isDatum_two
        (isDatum_nat (n := 4) (by omega)) (by norm_num) (by norm_num)
      exact within_sub h3 hm hneg isDatum_one (by norm_num) (by norm_num)

end Sys2Proof.Machine.F32

namespace Sys2Proof.Proofs

open Sys2Proof.Machine Sys2Proof.Machine.F32

/-- Settles O43: the fractional part is rounded below 1, and each waveform's terms are bounded one by one. -/
theorem waveformBounds : Obligations.WaveformBounds := by
  refine ⟨fun _ => rfl, fun _ => rfl, fun p hp h0 => ?_, fun c p hp => ?_⟩
  · rw [← isFinite_iff] at hp
    rw [le_iff (by decide) (isNaN_of_finite hp), val_zero] at h0
    exact wrap01_inUnit hp h0
  · rw [inRange_iff_within (by decide) (by decide), val_negOne, val_one]
    exact wave_within c hp

end Sys2Proof.Proofs

/-! ## The flanger (spec/47_effects.md R272) -/

namespace Sys2Proof.Machine

open F32

/-- The sine modulator lies in `[0, 1]`. -/
theorem swing_within {phase : Word} (h : inUnit phase = true) : Within 0 1 (Spec.swing phase) := by
  have hsin := sin2pi_inRange h
  rw [inRange_iff_within (by decide) (by decide), val_negOne, val_one] at hsin
  have hhalf : Within (1 / 2) (1 / 2) 0x3F000000#32 := ⟨by decide, val_half.ge, val_half.le⟩
  have hdatum : IsDatum (1 / 2) := by simpa using isDatum_dyadic (j := 1) (k := 1) (by omega) (by omega)
  have hmul : Within (-(1 / 2)) (1 / 2) (mul 0x3F000000#32 (sin2pi phase)) := by
    refine (rounds_mul hhalf.1 hsin.1).within hdatum.neg hdatum ?_ ?_ <;> rw [val_half] <;> linarith [hsin.2.1, hsin.2.2]
  exact within_add hhalf hmul isDatum_zero isDatum_one (by norm_num) (by norm_num)

theorem idxBack_eq (L w d : Nat) : idxBack L w d = (((w : ℤ) - d) % L).toNat := rfl

theorem idxBack_succ (L w d : Nat) : idxBack L w (d + 1) = (((w : ℤ) - d - 1) % L).toNat := by
  rw [idxBack, Nat.cast_add, Nat.cast_one, sub_add_eq_sub_sub]

theorem flanger_delay_eq (C : Config) (f : FlangerState Word) (phase : Word) :
    f.delay hw C phase = F32.mul (F32.ofInt C.fs)
      (F32.add (F32.ofDec C.flBaseS) (F32.mul (F32.mul (F32.ofDec C.flSweepS) f.depth) (Spec.swing phase))) := by
  rw [Spec.swing, ← hw_half]
  rfl

/-! ### The words it reads -/

/-- The default base delay, as a datum: a little above 0.001. -/
theorem val_flBase : val (ofDec Config.default.flBaseS) = 8589935 / 2 ^ 33 := by
  have h : ofDec Config.default.flBaseS = 0x3A83126F#32 := by decide
  have hs : scaled 0x3A83126F#32 = 8589935 * 2 ^ 116 := by decide
  rw [h, val, hs]
  norm_num

/-- The default sweep, as a datum. -/
theorem val_flSweep : val (ofDec Config.default.flSweepS) = 8589935 / 2 ^ 31 := by
  have h : ofDec Config.default.flSweepS = 0x3B83126F#32 := by decide
  have hs : scaled 0x3B83126F#32 = 8589935 * 2 ^ 118 := by decide
  rw [h, val, hs]
  norm_num

/-- In seconds, the delay lies between the base and the datum above base plus sweep. -/
theorem flanger_seconds_within {depth phase : Word} (hd : Within 0 1 depth) (hp : inUnit phase = true) :
    Within (8589935 / 2 ^ 33) (10737419 / 2 ^ 31) (add (ofDec Config.default.flBaseS)
      (mul (mul (ofDec Config.default.flSweepS) depth) (Spec.swing phase))) := by
  have hbase : Within (8589935 / 2 ^ 33) (8589935 / 2 ^ 33) (ofDec Config.default.flBaseS) :=
    ⟨by decide, val_flBase.ge, val_flBase.le⟩
  have hsweep : Within (8589935 / 2 ^ 31) (8589935 / 2 ^ 31) (ofDec Config.default.flSweepS) :=
    ⟨by decide, val_flSweep.ge, val_flSweep.le⟩
  have hdBase : IsDatum (8589935 / 2 ^ 33) := ⟨_, hbase.1, val_flBase⟩
  have hdSweep : IsDatum (8589935 / 2 ^ 31) := ⟨_, hsweep.1, val_flSweep⟩
  have hdMax : IsDatum (10737419 / 2 ^ 31) := by
    simpa using isDatum_dyadic (j := 10737419) (k := 31) (by omega) (by omega)
  have hdepth : Within 0 (8589935 / 2 ^ 31) (mul (ofDec Config.default.flSweepS) depth) :=
    within_mul hsweep hd (by norm_num) le_rfl isDatum_zero hdSweep (by norm_num) (by norm_num)
  have hmod : Within 0 (8589935 / 2 ^ 31) (mul (mul (ofDec Config.default.flSweepS) depth) (Spec.swing phase)) :=
    within_mul hdepth (swing_within hp) le_rfl le_rfl isDatum_zero hdSweep (by norm_num) (by norm_num)
  exact within_add hbase hmod hdBase hdMax (by norm_num) (by norm_num)

/-- With the default base and sweep the delay is at least one sample, and short of the next whole number past `FS / 200`:
the rounded delay of 0.005 s is too little above it to reach that number at any legal sample rate. -/
theorem flanger_delay_within {C : Config} {f : FlangerState Word} {phase : Word} (hfs : 1000 ≤ C.fs) (hfs' : C.fs ≤ 192000)
    (hb : C.flBaseS = Config.default.flBaseS) (hs : C.flSweepS = Config.default.flSweepS)
    (hd : Within 0 1 f.depth) (hp : inUnit phase = true) :
    Within 1 ((C.fs / 200 : ℕ) + 1 - 1 / 2 ^ 9) (f.delay hw C phase) := by
  have hend : IsDatum ((C.fs / 200 : ℕ) + 1 - 1 / 2 ^ 9) := by
    have h : (((C.fs / 200 : ℕ) : ℚ) + 1 - 1 / 2 ^ 9) = ((512 * (C.fs / 200) + 511 : ℕ) : ℚ) / 2 ^ 9 := by
      push_cast
      ring
    exact h ▸ isDatum_dyadic (by omega) (by omega)
  have hfsW := within_ofInt (n := C.fs) (by omega)
  have hfsQ : (1000 : ℚ) ≤ C.fs := by exact_mod_cast hfs
  have hfsQ' : (C.fs : ℚ) ≤ 192000 := by exact_mod_cast hfs'
  have hdiv : (C.fs : ℚ) ≤ 200 * (C.fs / 200 : ℕ) + 199 := by
    have : C.fs ≤ 200 * (C.fs / 200) + 199 := by omega
    exact_mod_cast this
  rw [flanger_delay_eq, hb, hs]
  refine within_mul hfsW (flanger_seconds_within hd hp) ?_ (by norm_num) isDatum_one hend ?_ ?_ <;> push_cast <;> linarith

/-- The whole part, as a number of samples. -/
theorem toNat_floor {w : Word} (h : isFinite w = true) (h0 : 0 ≤ val w) : toNat (floor w) = ⌊val w⌋₊ := by
  obtain ⟨hf, hv⟩ := floor_finite h
  have h0' : 0 ≤ val (floor w) := by
    rw [hv]
    exact_mod_cast Int.floor_nonneg.2 h0
  rw [toNat_eq_floor hf h0', hv, ← Int.floor_toNat, Int.floor_intCast, Int.floor_toNat]

end Sys2Proof.Machine

namespace Sys2Proof.Proofs

open Sys2Proof.Machine Sys2Proof.Machine.F32

/-- R9's bound on `FL_LEN`, of the default base delay and sweep. -/
theorem flLen_bound {C : Config} (h : C.wf = true) (hb : C.flBaseS = Config.default.flBaseS)
    (hs : C.flSweepS = Config.default.flSweepS) : C.fs / 200 + 2 ≤ C.flLen := by
  obtain ⟨-, -, -, -, -, -, -, -, hfl, -⟩ := of_decide_eq_true h
  rw [hb, hs] at hfl
  have hmul : (Config.default.flBaseS.add Config.default.flSweepS).floorMul C.fs = 5000 * C.fs / 1000000 := rfl
  rw [hmul] at hfl
  omega

/-- Settles O54: the step by its definition, and the delay by its bounds. -/
theorem flangerReads : Obligations.FlangerReads := by
  refine ⟨fun C f x => ⟨flanger_delay_eq C f _, ?_⟩, fun C f phase hwf hb hs hd hp => ?_⟩
  · unfold FlangerState.process dryWet Spec.wetMix Spec.phaseOn
    simp -zeta only [flanger_delay_eq, idxBack_succ, idxBack_eq, idxNext, hw_add, hw_sub, hw_mul, hw_div, hw_ofInt,
      hw_floor, hw_toNat, hw_ofDec, hw_zero, hw_one]
    rfl
  · obtain ⟨hlo, hhi⟩ := fs_bounds hwf
    rw [inRange_iff_within (by decide) (by decide), val_zero, val_one] at hd
    have hdl := flanger_delay_within hlo hhi hb hs hd hp
    have hlen := flLen_bound hwf hb hs
    have h0 : 0 ≤ val (f.delay hw C phase) := zero_le_one.trans hdl.2.1
    rw [toNat_floor hdl.1 h0]
    have h1 : 1 ≤ ⌊val (f.delay hw C phase)⌋₊ := (Nat.one_le_floor_iff _).2 hdl.2.1
    have h2 : ⌊val (f.delay hw C phase)⌋₊ < C.fs / 200 + 1 := (Nat.floor_lt h0).2 (by
      push_cast
      linarith [hdl.2.2])
    omega

end Sys2Proof.Proofs

/-! ## What each command does to the state, once (spec/46_engine.md R226; spec/48_mixer.md R294) -/

namespace Sys2Proof.Machine

/-! ### Commands of one engine -/

/-- What a command with an `E` field does to its engine, if no NaN discards it. -/
def engineEffect (C : Config) : Instr → EngineState Word → EngineState Word
  | .noteOn _ a f => EngineState.noteOn hw C (noteOperand a) (unitClamp hw f)
  | .noteOff _ a => EngineState.noteOff hw C (noteOperand a)
  | .stopAllNotes .timeline => EngineState.stopAll
  | .setWaveform _ a => EngineState.setWaveform (waveformOperand a)
  | .setAttack _ f => EngineState.setAttack hw C f
  | .setDecay _ f => EngineState.setDecay hw C f
  | .setSustain _ f => EngineState.setSustain hw f
  | .setRelease _ f => EngineState.setRelease hw C f
  | .setDetune _ f => EngineState.setDetune hw C f
  | .setGlideTime _ f => EngineState.setGlideMs hw C f
  | .setFilterCutoff _ f => EngineState.setCutoff hw C f
  | .setFilterResonance _ f => EngineState.setResonance hw C f
  | .setFilterMode _ a => EngineState.setFltMode (modeOperand a)
  | .setFilterEnable _ a => EngineState.setFltEnable (boolOperand a)
  | .setLfoRate _ f => EngineState.setLfoRate hw C f
  | .setLfoDepth _ f => EngineState.setLfoDepth hw f
  | .setLfoWaveform _ a => EngineState.setLfoWaveform (waveformOperand a)
  | .setLfoRoute _ a => EngineState.setLfoRoute (boolOperand a)
  | .setDelayEnable _ a => EngineState.setDlyEnable (boolOperand a)
  | .setDelayTime _ f => EngineState.setDelayTime hw C f
  | .setDelayFeedback _ f => EngineState.setDelayFeedback hw C f
  | .setDelayMix _ f => EngineState.setDelayMix hw f
  | .setReverbEnable _ a => EngineState.setRevEnable (boolOperand a)
  | .setReverbRoom _ f => EngineState.setReverbRoom hw f
  | .setReverbDamp _ f => EngineState.setReverbDamp hw f
  | .setTremoloEnable _ a => EngineState.setTrmEnable (boolOperand a)
  | .setTremoloRate _ f => EngineState.setTremoloRate hw C f
  | .setTremoloDepth _ f => EngineState.setTremoloDepth hw f
  | .setFlangerEnable _ a => EngineState.setFlgEnable (boolOperand a)
  | .setFlangerRate _ f => EngineState.setFlangerRate hw C f
  | .setFlangerDepth _ f => EngineState.setFlangerDepth hw f
  | .setFlangerFeedback _ f => EngineState.setFlangerFeedback hw C f
  | .setFlangerMix _ f => EngineState.setFlangerMix hw f
  | _ => id

/-- The command's `Num` operand, if it has one, is no NaN (spec/30_encoding.md R82). -/
def NumOperandOk (i : Instr) : Prop := ∀ f, Spec.numOperand i = some f → F32.isNaN f = false

/-- A command with an `E` field, but for SET_ENGINE_VOLUME, changes its engine, by that engine and the configuration
alone. -/
theorem exec_updEngine {i : Instr} {e : EngineSel} (h : Spec.engineOf i = some e)
    (hvol : ∀ f, i ≠ .setEngineVolume e f) (hn : NumOperandOk i) (s : State) :
    exec i s = .next (s.updEngine e (engineEffect s.cfg i)) := by
  cases i <;> cases h
  case setEngineVolume f => exact absurd rfl (hvol f)
  case stopAllNotes => cases e <;> rfl
  case noteOff | setWaveform | setFilterMode | setFilterEnable | setLfoWaveform | setLfoRoute | setDelayEnable |
      setReverbEnable | setTremoloEnable | setFlangerEnable => rfl
  all_goals exact if_neg (Bool.eq_false_iff.1 (hn _ rfl))

theorem exec_setEngineVolume (e : EngineSel) {f : BitVec 32} (hf : F32.isNaN f = false) (s : State) :
    exec (.setEngineVolume e f) s = .next (s.setVol e (hw.clamp f hw.zero (hw.ofDec s.cfg.engineVolMax))) :=
  if_neg (Bool.eq_false_iff.1 hf)

/-- Every outcome of a command with an `E` field. -/
theorem exec_engine_cases {i : Instr} {e : EngineSel} (h : Spec.engineOf i = some e) :
    (∀ s, exec i s = .next s) ∨
    (NumOperandOk i ∧ ∀ s, exec i s = .next (s.updEngine e (engineEffect s.cfg i))) ∨
    ∃ f, F32.isNaN f = false ∧
      ∀ s, exec i s = .next (s.setVol e (hw.clamp f hw.zero (hw.ofDec s.cfg.engineVolMax))) := by
  by_cases hn : NumOperandOk i
  · by_cases hvol : ∃ f, i = .setEngineVolume e f
    · obtain ⟨f, rfl⟩ := hvol
      exact .inr (.inr ⟨f, hn f rfl, exec_setEngineVolume e (hn f rfl)⟩)
    · exact .inr (.inl ⟨hn, exec_updEngine h (not_exists.1 hvol) hn⟩)
  · rw [NumOperandOk] at hn
    push Not at hn
    obtain ⟨f, hi, hf⟩ := hn
    exact .inl (Proofs.exec_of_nan hi (by simpa using hf))

section OtherEngine

variable {e e' : EngineSel} (h : e' ≠ e) (s : State) (X : EngineState Word) (v : Word)
include h

theorem State.updEngine_comm (g : EngineState Word → EngineState Word) :
    ((s.updEngine e' fun _ => X).setVol e' v).updEngine e g =
      ((s.updEngine e g).updEngine e' fun _ => X).setVol e' v := by
  cases e <;> cases e'
  case live.live | timeline.timeline => exact absurd rfl h
  case live.timeline | timeline.live => rfl

theorem State.setVol_comm (w : Word) :
    ((s.updEngine e' fun _ => X).setVol e' v).setVol e w =
      ((s.setVol e w).updEngine e' fun _ => X).setVol e' v := by
  cases e <;> cases e'
  case live.live | timeline.timeline => exact absurd rfl h
  case live.timeline | timeline.live => rfl

end OtherEngine

/-- What both engines have and a change of one keeps, both engines have after it. -/
theorem State.forall_engine_updEngine {p : EngineState Word → Prop} {s : State} (he : ∀ e, p (s.engine e))
    {e : EngineSel} {g : EngineState Word → EngineState Word} (hg : p (s.engine e) → p (g (s.engine e))) (e' : EngineSel) :
    p ((s.updEngine e g).engine e') := by
  by_cases hne : e' = e
  · rw [hne, State.updEngine_engine_same]
    exact hg (he e)
  · rw [State.updEngine_engine_other _ _ _ _ hne]
    exact he e'

/-! ### Output steps -/

@[simp] theorem State.drain_engine (s : State) (e : EngineSel) : s.drain.engine e = s.engine e := by
  cases e
  · exact s.drain_live
  · exact s.drain_timeline

@[simp] theorem State.drain_vol (s : State) (e : EngineSel) : s.drain.vol e = s.vol e := by
  cases e
  · exact s.drain_volLive
  · exact s.drain_volTimeline

/-! ### PROCESS -/

/-- The two engines after a block. -/
def State.runEngines (s : State) (len : Nat) : State :=
  (s.updEngine .timeline (EngineState.process hw s.cfg len)).updEngine .live (EngineState.process hw s.cfg len)

/-- The state after PROCESS. -/
def State.afterProcess (s : State) (n : BitVec 32) : State :=
  let len := blockLength s.cfg n
  { (s.runEngines len).emit ((s.runEngines len).blockSamples hw len) with busy := decide (0 < len) }

theorem exec_process (n : BitVec 32) (s : State) : exec (.process n) s = .next (s.afterProcess n) := rfl

section Process

variable (s : State) (n : BitVec 32)

@[simp] theorem State.afterProcess_cfg : (s.afterProcess n).cfg = s.cfg := rfl
@[simp] theorem State.afterProcess_masterVol : (s.afterProcess n).masterVol = s.masterVol := rfl
@[simp] theorem State.afterProcess_vol (e : EngineSel) : (s.afterProcess n).vol e = s.vol e := by cases e <;> rfl
@[simp] theorem State.afterProcess_rsp : (s.afterProcess n).rsp = s.rsp := rfl
@[simp] theorem State.afterProcess_outStream : (s.afterProcess n).outStream = s.outStream := rfl
@[simp] theorem State.afterProcess_cmdIn : (s.afterProcess n).cmdIn = s.cmdIn := rfl
@[simp] theorem State.afterProcess_busy : (s.afterProcess n).busy = decide (0 < blockLength s.cfg n) := rfl
@[simp] theorem State.afterProcess_outPort : (s.afterProcess n).outPort =
    s.outPort ++ (s.runEngines (blockLength s.cfg n)).blockSamples hw (blockLength s.cfg n) := rfl
@[simp] theorem State.afterProcess_engine (e : EngineSel) :
    (s.afterProcess n).engine e = (s.engine e).process hw s.cfg (blockLength s.cfg n) := by cases e <;> rfl

theorem blockLength_eq (C : Config) : blockLength C n = min n.toNat C.blockMax := rfl

end Process

/-! ### Every command -/

/-- The state `t` is what the command `i` can make of `s`. -/
inductive Executes (i : Instr) (s : State) : State → Prop
  | nothing : Executes i s s
  | reset : Executes i s (s.afterReset hw)
  | respond (w : BitVec 32) : Executes i s (s.respond w)
  | process (n : BitVec 32) : Executes i s (s.afterProcess n)
  | engine (e : EngineSel) (hn : NumOperandOk i) : Executes i s (s.updEngine e (engineEffect s.cfg i))
  | engineVol (e : EngineSel) {f : BitVec 32} (hf : F32.isNaN f = false) :
    Executes i s (s.setVol e (hw.clamp f hw.zero (hw.ofDec s.cfg.engineVolMax)))
  | masterVol {f : BitVec 32} (hf : F32.isNaN f = false) :
    Executes i s { s with masterVol := hw.clamp f hw.zero hw.one }

theorem executes_of_exec {i : Instr} {s t : State} (h : exec i s = .next t) : Executes i s t := by
  cases he : Spec.engineOf i with
  | some e =>
    rcases exec_engine_cases he with hs | ⟨hn, hs⟩ | ⟨f, hf, hs⟩ <;> cases (hs s).symm.trans h
    · exact .nothing
    · exact .engine e hn
    · exact .engineVol e hf
  | none =>
    cases i <;> simp only [Spec.engineOf, reduceCtorEq] at he
    case nop => cases h; exact .nothing
    case reset => cases h; exact .reset
    case getSampleRate => cases h; exact .respond _
    case process n => cases h; exact .process n
    case setMasterVolume f =>
      by_cases hf : F32.isNaN f = true
      · cases (Proofs.exec_of_nan rfl hf s).symm.trans h
        exact .nothing
      · cases ((if_neg hf).symm.trans h : Host.Outcome.next _ = _)
        exact .masterVol (Bool.eq_false_iff.2 hf)

/-- What the reset, an output step, the taking of a command word and every command keep, a step keeps. -/
theorem step_keeps {p : State → Prop} {s t : State} (h : step s = .next t) (hs : p s)
    (hreset : s.cfg.wf = true → p { s.afterReset hw with rst := false }) (hdrain : s.busy = true → p s.drain)
    (hexec : ∀ i rest t, s.cfg.wf = true → s.busy = false → Executes i { s with cmdIn := rest } t → p t) :
    p t := by
  obtain ⟨hwf, ⟨-, rfl⟩ | ⟨-, hb, rfl⟩ | ⟨-, -, -, rfl⟩ | ⟨-, hb, w, rest, -, he⟩⟩ := step_cases h
  · exact hreset hwf
  · exact hdrain hb
  · exact hs
  · exact hexec _ rest t hwf hb (executes_of_exec he)

end Sys2Proof.Machine

namespace Sys2Proof.Proofs

open Sys2Proof.Machine

/-- Settles O26: such a command is discarded, or changes its engine by that engine alone, or its engine's volume; each
commutes with a change of the other engine. -/
theorem engineSeparation : Obligations.EngineSeparation := by
  intro i e e' s h hne
  rcases exec_engine_cases h with hs | ⟨-, hs⟩ | ⟨f, -, hs⟩ <;> refine ⟨_, hs s, ?_⟩
  · exact ⟨rfl, rfl, rfl, rfl, rfl, rfl, rfl, fun X v => hs _⟩
  · simp [State.updEngine_engine_other _ _ _ _ hne, hs, State.updEngine_comm hne]
  · simp [State.setVol_vol_other _ _ _ _ hne, hs, State.setVol_comm hne]

end Sys2Proof.Proofs

/-! ## The structural invariant (spec/10_state.md R21, R25, R32; spec/20_memory.md R60, R62, R71) -/

namespace Sys2Proof.Machine

/-! ### Memories with a write index -/

/-- A memory of `len` words in canonical form, its write index inside. -/
def Line (len w : Nat) (m : Mem Word) : Prop := w < len ∧ Mem.wf hw.zero len m = true

theorem line_nil {len : Nat} (h : 0 < len) : Line len 0 [] := ⟨h, rfl⟩

/-- Writing at the index and moving it on, as every effect does. -/
theorem Line.advance {len w : Nat} {m : Mem Word} (h : Line len w m) (v : Word) :
    Line len (idxNext len w) (Mem.write hw.zero m w v) :=
  ⟨idxNext_lt (Nat.zero_lt_of_lt h.1) w, Mem.wf_write h.2 h.1 v⟩

/-! ### Pools of voices -/

theorem updAt_forall {α : Type} {p : α → Prop} {f : α → α} (hf : ∀ a, p a → p (f a)) :
    ∀ (i : Nat) (l : List α), (∀ a ∈ l, p a) → ∀ a ∈ updAt f i l, p a
  | _, [], _ => by simp [updAt]
  | 0, a :: t, h => by
    rw [List.forall_mem_cons] at h
    exact List.forall_mem_cons.2 ⟨hf a h.1, h.2⟩
  | i + 1, a :: t, h => by
    rw [List.forall_mem_cons] at h
    exact List.forall_mem_cons.2 ⟨h.1, updAt_forall hf i t h.2⟩

theorem map_if_forall {α : Type} {p : α → Prop} {c : α → Bool} {f : α → α} (hf : ∀ a, p a → p (f a))
    {l : List α} (h : ∀ a ∈ l, p a) : ∀ a ∈ l.map (fun a => if c a then f a else a), p a := by
  rw [List.forall_mem_map]
  intro a ha
  split
  · exact hf a (h a ha)
  · exact h a ha

/-- What a voice's block keeps, the pool's block keeps. -/
theorem runVoices_forall {α : Type} [DecidableEq α] {N : Numerics α} {C : Config} {p : VoiceState α → Prop}
    (P : VoiceParams α) (n : Nat) (hp : ∀ v buf, p v → p (v.process N C P n buf).1) :
    ∀ (vs : List (VoiceState α)) (buf : Mem α), (∀ v ∈ vs, p v) → ∀ v ∈ (runVoices N C P n vs buf).1, p v
  | [], _, h => h
  | v :: t, buf, h => by
    rw [List.forall_mem_cons] at h
    exact List.forall_mem_cons.2 ⟨hp v buf h.1, runVoices_forall P n hp t _ h.2⟩

/-! ### An engine -/

/-- `EngineState.wf`, with a name for each part. -/
structure Fits (C : Config) (E : EngineState Word) : Prop where
  pool  : E.voices.length = C.nvoices
  ages  : ∀ v ∈ E.voices, v.age < 2 ^ C.ageW
  dly   : Line C.delayLen E.dly.w E.dly.mem
  flg   : Line C.flLen E.flg.w E.flg.mem
  comb0 : Line C.combLen.k0 E.rev.combs.k0.ci E.rev.combs.k0.mem
  comb1 : Line C.combLen.k1 E.rev.combs.k1.ci E.rev.combs.k1.mem
  comb2 : Line C.combLen.k2 E.rev.combs.k2.ci E.rev.combs.k2.mem
  comb3 : Line C.combLen.k3 E.rev.combs.k3.ci E.rev.combs.k3.mem
  ap0   : Line C.apLen.j0 E.rev.aps.j0.ai E.rev.aps.j0.mem
  ap1   : Line C.apLen.j1 E.rev.aps.j1.ai E.rev.aps.j1.mem
  scr   : Mem.wf hw.zero C.blockMax E.scr = true

theorem engine_wf_iff {C : Config} {E : EngineState Word} : EngineState.wf C E = true ↔ Fits C E := by
  rw [EngineState.wf, decide_eq_true_eq, List.all_eq_true]
  simp only [decide_eq_true_eq]
  constructor
  · rintro ⟨pool, ages, d, dm, f, fm, k0, km0, k1, km1, k2, km2, k3, km3, j0, jm0, j1, jm1, scr⟩
    exact ⟨pool, ages, ⟨d, dm⟩, ⟨f, fm⟩, ⟨k0, km0⟩, ⟨k1, km1⟩, ⟨k2, km2⟩, ⟨k3, km3⟩, ⟨j0, jm0⟩, ⟨j1, jm1⟩, scr⟩
  · rintro ⟨pool, ages, ⟨d, dm⟩, ⟨f, fm⟩, ⟨k0, km0⟩, ⟨k1, km1⟩, ⟨k2, km2⟩, ⟨k3, km3⟩, ⟨j0, jm0⟩, ⟨j1, jm1⟩, scr⟩
    exact ⟨pool, ages, d, dm, f, fm, k0, km0, k1, km1, k2, km2, k3, km3, j0, jm0, j1, jm1, scr⟩

section Engine

variable {C : Config} {E : EngineState Word}

/-- A legal configuration's memories hold a word each, but for a flanger line (assumption log 11). -/
theorem fits_reset (hC : C.wf = true) (hfl : 0 < C.flLen) : Fits C (EngineState.reset hw C) := by
  obtain ⟨-, -, -, -, -, -, -, hd, -, h0, h1, h2, h3, hj0, hj1, -⟩ := of_decide_eq_true hC
  refine ⟨List.length_replicate, fun v hv => ?_, line_nil hd, line_nil hfl, line_nil h0, line_nil h1, line_nil h2,
    line_nil h3, line_nil hj0, line_nil hj1, rfl⟩
  rw [List.eq_of_mem_replicate hv]
  exact Nat.two_pow_pos C.ageW

theorem ageNext_lt (C : Config) (age : Nat) : ageNext C age < 2 ^ C.ageW :=
  (Nat.min_le_right _ _).trans_lt (Nat.sub_one_lt (Nat.two_pow_pos C.ageW).ne')

theorem voice_process_age_lt (P : VoiceParams Word) (n : Nat) {v : VoiceState Word} (buf : Mem Word)
    (h : v.age < 2 ^ C.ageW) : (v.process hw C P n buf).1.age < 2 ^ C.ageW := by
  rw [(VoiceState.process_frame P n v buf).1]
  split
  · exact ageNext_lt C v.age
  · exact h

theorem Fits.noteOn (h : Fits C E) (n : Int) (vel : Word) : Fits C (E.noteOn hw C n vel) :=
  { h with
    pool := (updAt_length _ _ _).trans h.pool
    ages := updAt_forall (p := fun v : VoiceState Word => v.age < 2 ^ C.ageW) (fun _ _ => Nat.two_pow_pos C.ageW) _ _
      h.ages }

theorem Fits.release (h : Fits C E) (c : VoiceState Word → Bool) :
    Fits C { E with voices := E.voices.map fun v => if c v then v.noteOff else v } :=
  { h with
    pool := (List.length_map _).trans h.pool
    ages := map_if_forall (p := fun v => v.age < 2 ^ C.ageW) (f := VoiceState.noteOff) (fun _ hv => hv) h.ages }

/-- Of the commands' effects NOTE_ON alone writes an age, 0; none writes an index or a memory. -/
theorem Fits.engineEffect (h : Fits C E) (i : Instr) : Fits C (engineEffect C i E) := by
  cases i
  case noteOn => exact h.noteOn _ _
  case noteOff => exact h.release _
  case stopAllNotes e =>
    cases e
    · exact h
    · exact h.release _
  all_goals exact { h with pool := h.pool }

/-- Each stage of the chain moves its own lines on. -/
theorem Fits.chain (h : Fits C E) (x : Word) : Fits C (E.chain hw C x).1 := by
  apply EngineState.chain_induct E x h
  case hlfo => exact fun _ h => { h with pool := h.pool }
  case hflt => exact fun _ _ _ h => { h with pool := h.pool }
  case htrm => exact fun _ _ _ h => { h with pool := h.pool }
  case hflg => exact fun _ _ _ h => { h with flg := h.flg.advance _ }
  case hdly => exact fun _ _ _ h => { h with dly := h.dly.advance _ }
  case hrev =>
    exact fun _ _ _ h => { h with
      comb0 := h.comb0.advance _, comb1 := h.comb1.advance _, comb2 := h.comb2.advance _, comb3 := h.comb3.advance _
      ap0 := h.ap0.advance _, ap1 := h.ap1.advance _ }

theorem Fits.process (h : Fits C E) {n : Nat} (hn : n ≤ C.blockMax) : Fits C (E.process hw C n) := by
  refine EngineState.process_induct n E ?_ fun i F hi hF => ?_
  · exact { h with
      pool := (runVoices_length E.prm n E.voices _).trans h.pool
      ages := runVoices_forall E.prm n (fun v buf => voice_process_age_lt E.prm n buf) E.voices _ h.ages
      scr := runVoices_wf E.prm hn E.voices _ (Mem.wf_zeroBelow h.scr n hn) }
  · exact { hF.chain _ with scr := Mem.wf_write hF.scr (hi.trans_le hn) _ }

end Engine

/-! ### The port -/

/-- The block is busy exactly while samples wait, the last of them and no other marked. -/
def PortFits (busy : Bool) (port : List OutSample) : Prop := (busy = !port.isEmpty) ∧ lastMarked port = true

theorem lastMarked_append {x : OutSample} (hx : x.last = true) :
    ∀ l : List OutSample, (∀ y ∈ l, y.last = false) → lastMarked (l ++ [x]) = true
  | [], _ => hx
  | [y], h => by simp [lastMarked, h y, hx]
  | y :: z :: t, h => by
    rw [List.forall_mem_cons] at h
    simp only [List.cons_append, lastMarked, h.1, Bool.not_false, Bool.true_and]
    exact lastMarked_append hx (z :: t) h.2

/-- A block's samples: word `n - 1` alone is the last one. -/
theorem portFits_block (s : State) (n : Nat) : PortFits (decide (0 < n)) (s.blockSamples hw n) := by
  cases n with
  | zero => exact ⟨rfl, rfl⟩
  | succ m =>
    rw [State.blockSamples, List.range_succ, List.map_append]
    refine ⟨by simp, lastMarked_append (decide_eq_true rfl) _ ?_⟩
    simp only [List.forall_mem_map, List.mem_range, decide_eq_false_iff_not]
    omega

theorem PortFits.tail {busy : Bool} {x : OutSample} {xs : List OutSample} (h : PortFits busy (x :: xs)) :
    PortFits (!x.last) xs := by
  obtain ⟨-, h⟩ := h
  cases xs with
  | nil => exact ⟨congrArg _ h, rfl⟩
  | cons y t =>
    rw [lastMarked, Bool.and_eq_true, Bool.not_eq_true'] at h
    exact ⟨by simp [h.1], h.2⟩

/-- The host takes the oldest sample. -/
theorem portFits_take {s : State} (h : PortFits s.busy s.outPort) : PortFits s.take.busy s.take.outPort := by
  cases hp : s.outPort with
  | nil => simp [State.take, hp, PortFits, lastMarked]
  | cons x xs =>
    rw [State.take_cons hp]
    exact (hp ▸ h).tail

/-! ### The state -/

/-- `State.wf`, by its parts. -/
theorem state_wf_iff {s : State} :
    State.wf s = true ↔ (∀ e, Fits s.cfg (s.engine e)) ∧ PortFits s.busy s.outPort := by
  simp only [State.wf, decide_eq_true_eq, engine_wf_iff, beq_iff_eq, PortFits]
  constructor
  · rintro ⟨hl, ht, hp⟩
    exact ⟨fun e => by cases e; exacts [hl, ht], hp⟩
  · rintro ⟨he, hp⟩
    exact ⟨he .live, he .timeline, hp⟩

/-- An idle block has no sample waiting. -/
theorem outPort_eq_nil {s : State} (h : PortFits s.busy s.outPort) (hb : s.busy = false) : s.outPort = [] := by
  simpa [hb] using h.1

theorem wf_afterReset {s : State} (hC : s.cfg.wf = true) (h : State.wf s = true) :
    State.wf (s.afterReset hw) = true := by
  have hfl : 0 < s.cfg.flLen := Nat.zero_lt_of_lt ((state_wf_iff.1 h).1 .live).flg.1
  exact state_wf_iff.2 ⟨fun e => by cases e <;> exact fits_reset hC hfl, rfl, rfl⟩

theorem wf_drain {s : State} (h : State.wf s = true) : State.wf s.drain = true := by
  rw [state_wf_iff] at h ⊢
  obtain ⟨he, hp⟩ := h
  refine ⟨fun e => by simpa using he e, ?_⟩
  cases hr : s.hostReady with
  | false =>
    rw [State.drain_stalled hr]
    exact hp
  | true =>
    rw [State.drain_ready hr]
    exact portFits_take (s := { s with outReady := s.outReady.tail }) hp

theorem wf_updEngine {s : State} (h : State.wf s = true) (e : EngineSel) {g : EngineState Word → EngineState Word}
    (hg : Fits s.cfg (s.engine e) → Fits s.cfg (g (s.engine e))) : State.wf (s.updEngine e g) = true := by
  rw [state_wf_iff] at h ⊢
  obtain ⟨he, hp⟩ := h
  rw [State.updEngine_cfg]
  exact ⟨State.forall_engine_updEngine he hg, by simpa using hp⟩

theorem wf_afterProcess {s : State} (h : State.wf s = true) (hb : s.busy = false) (n : BitVec 32) :
    State.wf (s.afterProcess n) = true := by
  rw [state_wf_iff] at h ⊢
  obtain ⟨he, hp⟩ := h
  refine ⟨fun e => ?_, ?_⟩
  · rw [State.afterProcess_cfg, State.afterProcess_engine]
    exact (he e).process (blockLength_le s.cfg n)
  · rw [State.afterProcess_busy, State.afterProcess_outPort, outPort_eq_nil hp hb, List.nil_append]
    exact portFits_block _ _

/-- A command keeps the invariant of an idle block. -/
theorem wf_of_executes {i : Instr} {s t : State} (hC : s.cfg.wf = true) (h : State.wf s = true) (hb : s.busy = false)
    (ht : Executes i s t) : State.wf t = true := by
  cases ht with
  | nothing | respond | masterVol => exact h
  | reset => exact wf_afterReset hC h
  | process n => exact wf_afterProcess h hb n
  | engine e => exact wf_updEngine h e fun hE => hE.engineEffect i
  | engineVol e => simpa [state_wf_iff] using state_wf_iff.1 h

end Sys2Proof.Machine

namespace Sys2Proof.Proofs

open Sys2Proof.Machine

/-- Settles O14: reset, output step and every command keep each engine's fit and the port's. -/
theorem stepKeepsWf : Obligations.StepKeepsWf := fun s _ hs h =>
  step_keeps (p := fun s => State.wf s = true) h hs (fun hC => wf_afterReset (s := s) hC hs) (fun _ => wf_drain hs)
    fun _ rest _ hC hb ht => wf_of_executes (s := { s with cmdIn := rest }) hC hs hb ht

end Sys2Proof.Proofs

/-! ## What PROCESS leaves unchanged (spec/10_state.md R45, R46; spec/20_memory.md R67, R72) -/

namespace Sys2Proof.Machine

/-- The modulation stage alone writes the cutoff. -/
theorem process_cutoff (C : Config) (n : Nat) (E : EngineState Word) (h : E.lfoRoute = false) :
    (E.process hw C n).flt.cutoff = E.flt.cutoff := by
  suffices hp : (E.process hw C n).lfoRoute = false ∧ (E.process hw C n).flt.cutoff = E.flt.cutoff from hp.2
  refine EngineState.process_induct (p := fun F => F.lfoRoute = false ∧ F.flt.cutoff = E.flt.cutoff) n E ⟨h, rfl⟩ ?_
  intro i F _ ⟨hr, hc⟩
  obtain ⟨-, -, hreg⟩ := EngineState.chain_frame (N := hw) (C := C) F (Mem.read hw.zero F.scr i)
  obtain ⟨hlfo, -⟩ := EngineState.chain_frozen (N := hw) (C := C) F (Mem.read hw.zero F.scr i)
  exact ⟨(congrArg Registers.lfoRoute hreg).trans hr, (hlfo hr).2.trans hc⟩

end Sys2Proof.Machine

namespace Sys2Proof.Proofs

open Sys2Proof.Machine

/-- Settles O34: the registers by the chain's frame, the scratch words by the canonical form. -/
theorem processFrame : Obligations.ProcessFrame := by
  intro n s hs
  refine ⟨_, exec_process n s, rfl, rfl, rfl, rfl, rfl, rfl, rfl, fun e => ?_⟩
  rw [State.afterProcess_engine, ← blockLength_eq]
  exact ⟨(EngineState.process_frame _ _).2, process_cutoff s.cfg _ _, fun i hi =>
    EngineState.process_read_above (blockLength_le s.cfg n) hi _ ((state_wf_iff.1 hs).1 e).scr⟩

end Sys2Proof.Proofs

/-! ## A voice over a block (spec/45_voice.md R194; spec/10_state.md R31, R32) -/

namespace Sys2Proof.Machine

theorem isActive_iff {α : Type} (v : VoiceState α) : v.isActive = true ↔ Spec.Sounding v := by
  simp [VoiceState.isActive, EnvState.isActive, Spec.Sounding]

theorem isActive_eq_false_iff {α : Type} (v : VoiceState α) : v.isActive = false ↔ ¬Spec.Sounding v := by
  rw [← isActive_iff, Bool.not_eq_true]

section Voice

variable {α : Type} {N : Numerics α} {C : Config} (P : VoiceParams α)

/-- The glide's target and step are fixed when the target is set. -/
theorem glide_advance_frame (g : GlideState α) :
    (g.advance N P).target = g.target ∧ (g.advance N P).step = g.step := by
  unfold GlideState.advance
  split
  · exact ⟨rfl, rfl⟩
  split
  · exact ⟨rfl, rfl⟩
  split <;> exact ⟨rfl, rfl⟩

theorem env_advance_idle {v : EnvState α} (h : v.stage = .idle) : (v.advance N C P).stage = .idle := by
  simp only [EnvState.advance, h]

theorem tick_active (v : VoiceState α) :
    (v.tick N C P).1.active = (v.active && decide ((v.tick N C P).1.env.stage ≠ .idle)) := by
  change (if decide ((v.env.advance N C P).stage ≠ .idle) = true then v.active else false) =
    (v.active && decide ((v.env.advance N C P).stage ≠ .idle))
  cases decide ((v.env.advance N C P).stage ≠ .idle) <;> simp

theorem tick_inactive_of_idle {v : VoiceState α} (h : (v.tick N C P).1.env.stage = .idle) :
    (v.tick N C P).1.active = false := by
  simp [tick_active, h]

/-- A sample that leaves a voice inactive found it so, or its envelope Idle. -/
theorem tick_idle_of_inactive {v : VoiceState α} (h : (v.tick N C P).1.active = false)
    (hv : v.active = false → v.env.stage = .idle) : (v.tick N C P).1.env.stage = .idle := by
  rw [tick_active, Bool.and_eq_false_iff] at h
  rcases h with h | h
  · exact env_advance_idle P (hv h)
  · simpa using h

variable [DecidableEq α]

theorem voice_process_succ {v : VoiceState α} (h : v.isActive = true) (n : Nat) (buf : Mem α) :
    v.process N C P (n + 1) buf = VoiceState.sample N C P n (v.process N C P n buf) := by
  rw [VoiceState.process_sounding P _ h, VoiceState.process_sounding P _ h, forSamples_succ]

/-- What every sample keeps, a voice's block keeps, from the aged voice. -/
theorem voice_process_induct {p : VoiceState α → Prop} {v : VoiceState α} (h : v.isActive = true)
    (h0 : p { v with age := ageNext C v.age }) (hs : ∀ u, p u → p (u.tick N C P).1) (n : Nat) (buf : Mem α) :
    p (v.process N C P n buf).1 := by
  rw [VoiceState.process_sounding P n h]
  exact forSamples_induct (p := fun x : VoiceState α × Mem α => p x.1) n _ h0 fun _ x _ hx => hs x.1 hx

/-- Over a block the glide's target and step stand, and `active` is cleared with the envelope Idle. -/
theorem voice_process_sounding_frame {v : VoiceState α} (h : v.isActive = true) (n : Nat) (buf : Mem α) :
    (v.process N C P n buf).1.gl.target = v.gl.target ∧ (v.process N C P n buf).1.gl.step = v.gl.step ∧
    (v.active = true → (v.process N C P n buf).1.active = false → (v.process N C P n buf).1.env.stage = .idle) := by
  refine voice_process_induct (p := fun u => u.gl.target = v.gl.target ∧ u.gl.step = v.gl.step ∧
    (v.active = true → u.active = false → u.env.stage = .idle)) P h ⟨rfl, rfl, fun ha hf => ?_⟩ ?_ n buf
  · exact absurd (ha.symm.trans hf) (by decide)
  · intro u ⟨ht, hs, hi⟩
    obtain ⟨ht', hs'⟩ := glide_advance_frame (N := N) P u.gl
    exact ⟨ht'.trans ht, hs'.trans hs, fun ha hf => tick_idle_of_inactive P hf (hi ha)⟩

/-- After a sample, an Idle envelope leaves the voice inactive. -/
theorem voice_process_inactive {v : VoiceState α} (h : v.isActive = true) {n : Nat} (hn : 0 < n) (buf : Mem α)
    (hi : (v.process N C P n buf).1.env.stage = .idle) : (v.process N C P n buf).1.active = false := by
  obtain ⟨m, rfl⟩ := Nat.exists_eq_succ_of_ne_zero hn.ne'
  rw [Nat.succ_eq_add_one, voice_process_succ P h] at hi ⊢
  exact tick_inactive_of_idle P hi

end Voice

/-- A voice after PROCESS is that voice after a block over some buffer. -/
theorem afterProcess_voice {s : State} {e : EngineSel} {k : Nat} {v : VoiceState Word}
    (h : (s.engine e).voices[k]? = some v) (n : BitVec 32) : ∃ buf, ((s.afterProcess n).engine e).voices[k]? =
      some (v.process hw s.cfg (s.engine e).prm (blockLength s.cfg n) buf).1 := by
  rw [State.afterProcess_engine, (EngineState.process_frame _ _).1]
  exact runVoices_getElem? _ _ _ _ k v h

/-- R194's sample, with R106's retuning and R102's oscillator written out. -/
theorem tick_eq (C : Config) (P : VoiceParams Word) (v : VoiceState Word) :
    let g := v.gl.advance hw P
    let f := if F32.le 0#32 g.current then g.current else 0#32
    let phase := hw.wrap01 (F32.add v.osc.phase
      (F32.div (F32.mul f (F32.exp2 (F32.div P.detune (F32.ofInt 1200)))) (F32.ofInt C.fs)))
    let n := v.env.advance hw C P
    v.tick hw C P =
      ({ v with gl := g, osc := ⟨phase, f⟩, env := n, active := v.active && decide (n.stage ≠ .idle) },
       F32.mul (F32.mul (wave hw P.waveform phase) n.level) v.velocity) := by
  intro g f phase n
  rw [← show (v.tick hw C P).1.active = (v.active && decide (n.stage ≠ .idle)) from tick_active P v]
  simp only [f, phase, ← hw_zero]
  rfl

end Sys2Proof.Machine

namespace Sys2Proof.Proofs

open Sys2Proof.Machine

/-- Settles O35: a sample by its definition, a block as its samples, and over PROCESS what every sample keeps. -/
theorem voiceOverBlock : Obligations.VoiceOverBlock := by
  refine ⟨tick_eq, fun C P n v buf => ⟨fun hv => ?_, fun hv => ?_⟩, fun n s e k v hk => ?_⟩
  · exact VoiceState.process_silent P n ((isActive_eq_false_iff v).2 hv) buf
  · rw [← isActive_iff] at hv
    refine ⟨VoiceState.process_sounding P 0 hv buf, ?_⟩
    rw [voice_process_succ P hv, ← hw_zero]
    rfl
  · obtain ⟨buf, hbuf⟩ := afterProcess_voice hk n
    refine ⟨_, _, exec_process n s, hbuf, fun hv => ?_, fun hv => ?_⟩
    · rw [VoiceState.process_silent _ _ ((isActive_eq_false_iff v).2 hv)]
    · rw [← isActive_iff] at hv
      generalize (s.engine e).prm = P
      obtain ⟨hage, hvel, hact⟩ := VoiceState.process_frame (N := hw) (C := s.cfg) P (blockLength s.cfg n) v buf
      obtain ⟨htarget, hstep, hidle⟩ :=
        voice_process_sounding_frame (N := hw) (C := s.cfg) P hv (blockLength s.cfg n) buf
      rw [hv, if_pos rfl] at hage
      exact ⟨hage, hvel, htarget, hstep, hact, hidle, fun hn => voice_process_inactive P hv hn buf⟩

end Sys2Proof.Proofs

/-! ## Reset values (spec/70_reset_and_hazards.md R351) -/

namespace Sys2Proof.Machine

/-- R351's decimals as the nearest data. -/
theorem resetDecimals : hw.ofDec ⟨1, 2⟩ = 0x3C23D70A#32 ∧ hw.ofDec ⟨1, 1⟩ = 0x3DCCCCCD#32 ∧
    hw.ofDec ⟨7, 1⟩ = 0x3F333333#32 ∧ hw.ofDec ⟨3, 1⟩ = 0x3E99999A#32 ∧ hw.ofInt 1000 = 0x447A0000#32 ∧
    hw.ofInt 5 = 0x40A00000#32 := by decide

theorem voice_reset_eq : VoiceState.reset hw = Spec.silentVoice := by
  rw [VoiceState.reset, hw_zero, Spec.silentVoice]

theorem engine_reset_eq (C : Config) : EngineState.reset hw C = Spec.resetEngine C := by
  obtain ⟨h001, h01, h07, h03, h1000, h5⟩ := resetDecimals
  simp only [EngineState.reset, VoiceParams.reset, LfoState.reset, FilterState.reset, DelayState.reset,
    ReverbState.reset, CombState.reset, AllPassState.reset, TremoloState.reset, FlangerState.reset, voice_reset_eq,
    hw_zero, hw_one, hw_half, h001, h01, h07, h03, h1000, h5, Spec.resetEngine]

end Sys2Proof.Machine

namespace Sys2Proof.Proofs

open Sys2Proof.Machine

/-- Settles O10: each decimal of the table is evaluated once. -/
theorem resetValues : Obligations.ResetValues := by
  refine ⟨rfl, by decide, rfl, fun C => ?_⟩
  obtain ⟨-, -, -, h03, -⟩ := resetDecimals
  rw [State.resetWith, State.resetAt, engine_reset_eq, hw_one, h03]

end Sys2Proof.Proofs

/-! ## The envelope in binary32 (spec/41_envelope.md R121, R124, R127) -/

namespace Sys2Proof.Machine.F32

variable {a b c w : Word}

theorem fle_iff (ha : isFinite a = true) (hb : isFinite b = true) : le a b = true ↔ val a ≤ val b :=
  le_iff (isNaN_of_finite ha) (isNaN_of_finite hb)

@[simp] theorem val_ten : val 0x41200000#32 = 10 := by
  have h : scaled 0x41200000#32 = 10 * 2 ^ 149 := by decide
  rw [val, h]
  norm_num

theorem hw_min (a b : Word) : hw.min a b = if le a b then a else b := rfl

theorem hw_max (a b : Word) : hw.max a b = if le b a then a else b := rfl

/-- The larger of two finite data. -/
theorem max_finite (ha : isFinite a = true) (hb : isFinite b = true) :
    isFinite (hw.max a b) = true ∧ val (hw.max a b) = max (val a) (val b) := by
  rw [hw_max]
  split
  · next h => exact ⟨ha, (max_eq_left ((fle_iff hb ha).1 h)).symm⟩
  · next h => exact ⟨hb, (max_eq_right (not_le.1 (mt (fle_iff hb ha).2 h)).le).symm⟩

/-- Adding a datum that is not negative does not lower a datum. -/
theorem val_le_add (ha : isFinite a = true) (hb : isFinite b = true) (h0 : 0 ≤ val b) : val a ≤ val (add a b) :=
  (rounds_add ha hb).val_ge (isNaN_of_finite ha) (le_add_of_nonneg_right h0)

/-- Subtracting one does not raise it. -/
theorem sub_val_le (ha : isFinite a = true) (hb : isFinite b = true) (h0 : 0 ≤ val b) : val (sub a b) ≤ val a :=
  (rounds_sub ha hb).val_le (isNaN_of_finite ha) (sub_le_self _ h0)

end Sys2Proof.Machine.F32

namespace Sys2Proof.Machine

open F32

section Envelope

variable {C : Config} {P : VoiceParams Word} {v : EnvState Word}

theorem fs_within (hlo : 1000 ≤ C.fs) (hhi : C.fs ≤ 192000) : Within 1000 192000 (ofInt C.fs) := by
  have h := within_ofInt (n := C.fs) (by omega)
  have hlo' : (1000 : ℚ) ≤ C.fs := by exact_mod_cast hlo
  have hhi' : (C.fs : ℚ) ≤ 192000 := by exact_mod_cast hhi
  exact h.mono (by exact_mod_cast hlo') (by exact_mod_cast hhi')

/-- The step of a duration of up to ten seconds is in `[0, 1]`: its divisor is at least 1. -/
theorem envStep_within (hfs : Within 1000 192000 (ofInt C.fs)) {T : Word} (hT : Within 0 10 T) :
    Within 0 1 (envStep hw C T) := by
  have hmul : Within 0 1920000 (mul T (ofInt C.fs)) :=
    within_mul hT hfs le_rfl (by norm_num) isDatum_zero (by exact_mod_cast isDatum_nat (n := 1920000) (by omega))
      (by norm_num) (by norm_num)
  obtain ⟨hfin, hval⟩ := max_finite within_one.1 hmul.1
  rw [val_one] at hval
  have h1 : 1 ≤ val (hw.max 0x3F800000#32 (mul T (ofInt C.fs))) := hval ▸ le_max_left _ _
  have hdiv := rounds_div within_one.1 hfin (zero_lt_one.trans_le h1).ne'
  rw [val_one] at hdiv
  rw [envStep, hw_one]
  exact hdiv.within isDatum_zero isDatum_one (by positivity) (div_le_one_of_le₀ h1 (zero_le_one.trans h1))

/-- The level in `[0, 1]`, and 0 in Idle. -/
def LevelInUnit (v : EnvState Word) : Prop := Within 0 1 v.level ∧ (v.stage = .idle → val v.level = 0)

theorem levelInUnit_of_stage (h : Within 0 1 v.level) (hs : v.stage ≠ .idle) : LevelInUnit v :=
  ⟨h, fun hi => absurd hi hs⟩

theorem levelInUnit_idle (hs : v.stage = .idle) : LevelInUnit (v.advance hw C P) := by
  simp only [EnvState.advance, hs, hw_zero]
  exact ⟨⟨by decide, val_zero.ge, val_zero.trans_le zero_le_one⟩, fun _ => val_zero⟩

/-- A sum that reaches 1 is cut to 1, one that does not is below it. -/
theorem levelInUnit_attack (hstep : Within 0 1 (envStep hw C P.attack)) (hv : LevelInUnit v) (hs : v.stage = .attack) :
    LevelInUnit (v.advance hw C P) ∧ val v.level ≤ val (v.advance hw C P).level := by
  have hadd := within_add hv.1 hstep isDatum_zero isDatum_two (by norm_num) (by norm_num)
  have hge := val_le_add hv.1.1 hstep.1 hstep.2.1
  simp only [EnvState.advance, hs, hw_one, hw_add, hw_le]
  split
  · rw [val_one]
    exact ⟨levelInUnit_of_stage (within_one.mono zero_le_one le_rfl) nofun, hv.1.2.2⟩
  · next h =>
    rw [fle_iff within_one.1 hadd.1, val_one, not_le] at h
    exact ⟨levelInUnit_of_stage ⟨hadd.1, hadd.2.1, h.le⟩ (by simp), hge⟩

/-- A difference that falls to the sustain level is cut to it, which is below the level it falls from. -/
theorem levelInUnit_decay (hstep : Within 0 1 (envStep hw C P.decay)) (hsus : Within 0 1 P.sustain) (hv : LevelInUnit v)
    (hs : v.stage = .decay) :
    LevelInUnit (v.advance hw C P) ∧ val (v.advance hw C P).level ≤ val v.level := by
  have hsub := within_sub hv.1 hstep isDatum_one.neg isDatum_one (by norm_num) (by norm_num)
  have hle := sub_val_le hv.1.1 hstep.1 hstep.2.1
  simp only [EnvState.advance, hs, hw_sub, hw_le]
  split
  · exact ⟨levelInUnit_of_stage hv.1 nofun, le_rfl⟩
  next h =>
    rw [fle_iff hv.1.1 hsus.1, not_le] at h
    split
    · exact ⟨levelInUnit_of_stage hsus nofun, h.le⟩
    · next h' =>
      rw [fle_iff hsub.1 hsus.1, not_le] at h'
      exact ⟨levelInUnit_of_stage ⟨hsub.1, hsus.2.1.trans h'.le, hsub.2.2⟩ (by simp), hle⟩

/-- A difference that falls to 0 is cut to 0, and the stage is Idle. -/
theorem levelInUnit_release (hstep : Within 0 1 (envStep hw C P.release)) (hv : LevelInUnit v)
    (hs : v.stage = .release) :
    LevelInUnit (v.advance hw C P) ∧ val (v.advance hw C P).level ≤ val v.level := by
  have hsub := within_sub hv.1 hstep isDatum_one.neg isDatum_one (by norm_num) (by norm_num)
  have hle := sub_val_le hv.1.1 hstep.1 hstep.2.1
  simp only [EnvState.advance, hs, hw_zero, hw_sub, hw_le]
  split
  · rw [val_zero]
    exact ⟨⟨⟨by decide, val_zero.ge, val_zero.trans_le zero_le_one⟩, fun _ => val_zero⟩, hv.1.2.1⟩
  · next h =>
    rw [fle_iff hsub.1 (by decide), val_zero, not_le] at h
    exact ⟨levelInUnit_of_stage ⟨hsub.1, h.le, hsub.2.2⟩ (by simp), hle⟩

theorem inRange_unit_iff {w : Word} : inRange 0#32 0x3F800000#32 w = true ↔ Within 0 1 w := by
  rw [inRange_iff_within (by decide) (by decide), val_zero, val_one]

theorem inRange_ten_iff {w : Word} : inRange 0#32 0x41200000#32 w = true ↔ Within 0 10 w := by
  rw [inRange_iff_within (by decide) (by decide), val_zero, val_ten]

theorem levelInUnit_iff : LevelInUnit v ↔
    inRange 0#32 0x3F800000#32 v.level = true ∧ (v.stage = .idle → F32.eq v.level 0#32 = true) := by
  rw [LevelInUnit, inRange_unit_iff]
  refine and_congr_right fun h => imp_congr_right fun _ => ?_
  rw [eq_iff (isNaN_of_finite h.1) (by decide), val_zero]

end Envelope

end Sys2Proof.Machine

namespace Sys2Proof.Proofs

open Sys2Proof.Machine Sys2Proof.Machine.F32

/-- Settles O46, stage by stage. -/
theorem envelopeInUnit : Obligations.EnvelopeInUnit := by
  intro C P v hlo hhi hA hD hR hS hv hidle
  have hfs := fs_within hlo hhi
  have hattack := levelInUnit_attack (v := v) (envStep_within hfs (inRange_ten_iff.1 hA))
  have hdecay := levelInUnit_decay (v := v) (envStep_within hfs (inRange_ten_iff.1 hD)) (inRange_unit_iff.1 hS)
  have hrelease := levelInUnit_release (v := v) (envStep_within hfs (inRange_ten_iff.1 hR))
  have hlevel : LevelInUnit v := levelInUnit_iff.2 ⟨hv, hidle⟩
  have hnext : LevelInUnit (v.advance hw C P) := by
    cases hs : v.stage with
    | idle => exact levelInUnit_idle hs
    | attack => exact (hattack hlevel hs).1
    | decay => exact (hdecay hlevel hs).1
    | sustain => simpa only [EnvState.advance, hs] using hlevel
    | release => exact (hrelease hlevel hs).1
  obtain ⟨hin, hzero⟩ := levelInUnit_iff.1 hnext
  exact ⟨hin, hzero, fun hs => (fle_iff hlevel.1.1 hnext.1.1).2 (hattack hlevel hs).2,
    fun hs => (fle_iff hnext.1.1 hlevel.1.1).2 (hdecay hlevel hs).2,
    fun hs => (fle_iff hnext.1.1 hlevel.1.1).2 (hrelease hlevel hs).2⟩

end Sys2Proof.Proofs

/-! ## Data that are not negative -/

namespace Sys2Proof.Machine.F32

variable {a b c w : Word}

theorem fle_trans (h : le a b = true) (h' : le b c = true) : le a c = true := by
  obtain ⟨ha, hb⟩ := not_isNaN_of_le h
  have hc := (not_isNaN_of_le h').2
  rw [le_iff_key ha hb] at h
  rw [le_iff_key hb hc] at h'
  rw [le_iff_key ha hc]
  exact h.trans h'

theorem key_zero : key 0#32 = 0 := by decide

/-- A sign that is plus makes a number not negative; a negative zero is not negative either. -/
theorem nonneg_of_sign (hn : isNaN w = false) (hs : sign w = false) : le 0#32 w = true := by
  rw [le_iff_key (by decide) hn, key_zero, key, hs]
  simp

theorem sign_of_pos (h : lt 0#32 w = true) : sign w = false := by
  simp only [lt, key_zero, Bool.and_eq_true, decide_eq_true_eq] at h
  by_contra hs
  rw [key, if_pos (by simpa using hs)] at h
  omega

theorem isNaN_of_pos (h : lt 0#32 w = true) : isNaN w = false := (not_isNaN_of_le (fle_of_flt h)).2

theorem magBits_of_pos (h : lt 0#32 w = true) : magBits w ≠ 0 := by
  simp only [lt, key_zero, Bool.and_eq_true, decide_eq_true_eq] at h
  rw [ne_eq, ← key_eq_zero_iff]
  exact h.2.ne'

/-- A datum whose sign is plus is not below 0, a NaN included. -/
theorem not_neg_of_sign (h : isNaN w = false → sign w = false) : lt w 0#32 = false := by
  cases hn : isNaN w
  · exact (flt_false_iff hn (by decide)).2 (nonneg_of_sign hn (h hn))
  · simp [lt, hn]

/-- A sum and a quotient that are numbers have numbers for operands. -/
theorem operands_of_add (h : isNaN (add a b) = false) : isNaN a = false ∧ isNaN b = false := by
  rw [← Bool.or_eq_false_iff, Bool.eq_false_iff, ne_eq, Bool.or_eq_true]
  intro hn
  obtain ⟨hadd, -⟩ := isNaN_of_isNaN_operand hn
  exact Bool.false_ne_true (h.symm.trans hadd)

theorem operands_of_div (h : isNaN (div a b) = false) : isNaN a = false ∧ isNaN b = false := by
  rw [← Bool.or_eq_false_iff, Bool.eq_false_iff, ne_eq, Bool.or_eq_true]
  intro hn
  obtain ⟨-, -, -, hdiv⟩ := isNaN_of_isNaN_operand hn
  exact Bool.false_ne_true (h.symm.trans hdiv)

/-- The sum of two data not below 0 is not below 0, unless it is a NaN. -/
theorem zero_fle_add (ha : le 0#32 a = true) (hb : lt b 0#32 = false) (h : isNaN (add a b) = false) :
    le 0#32 (add a b) = true := by
  obtain ⟨hna, hnb⟩ := operands_of_add h
  rw [flt_false_iff hnb (by decide)] at hb
  by_cases hfin : isFinite a = true ∧ isFinite b = true
  · have ha' := (le_iff (by decide) hna).1 ha
    have hb' := (le_iff (by decide) hnb).1 hb
    rw [val_zero] at ha' hb'
    exact (rounds_add hfin.1 hfin.2).ge_of (by decide) (by rw [val_zero]; exact add_nonneg ha' hb')
  · rcases sum_inf_cases (nan := nanResult .add a b) hna hnb hfin with
      ⟨-, -, hs⟩ | ⟨-, -, hs⟩ | ⟨-, -, -, hs⟩
    · rwa [add, hs]
    · rwa [add, hs]
    · simp [add, hs, isNaN_nanResult] at h

/-- The product of two positive data is not below 0. -/
theorem zero_fle_mul (ha : lt 0#32 a = true) (hb : lt 0#32 b = true) : le 0#32 (mul a b) = true := by
  have hna := isNaN_of_pos ha
  have hnb := isNaN_of_pos hb
  have hn : ¬isNaN (mul a b) = true := by
    rw [isNaN_mul_iff hna hnb]
    rintro (⟨-, h⟩ | ⟨h, -⟩)
    · exact magBits_of_pos hb h
    · exact magBits_of_pos ha h
  refine nonneg_of_sign (Bool.eq_false_iff.2 hn) ?_
  rw [sign_mul hna hnb hn, sign_of_pos ha, sign_of_pos hb]
  rfl

theorem sign_abs (h : isNaN (abs w) = false) : sign (abs w) = false := by
  rw [abs] at h ⊢
  split at h
  · simp [isNaN_nanResult] at h
  · next hn =>
    rw [if_neg hn]
    exact sign_pack (magBits_lt w)

/-- A quotient of data whose signs are plus, where they are numbers, is not below 0. -/
theorem div_not_neg (ha : isNaN a = false → sign a = false) (hb : isNaN b = false → sign b = false) :
    lt (div a b) 0#32 = false := by
  refine not_neg_of_sign fun hn => ?_
  obtain ⟨hna, hnb⟩ := operands_of_div hn
  rw [sign_div hna hnb (by simp [hn]), ha hna, hb hnb]
  rfl

/-! ### `min` and `max` -/

/-- The smaller of a datum that is not below 0, if it is a number, and one that is not. -/
theorem zero_fle_min (ha : isNaN a = false → le 0#32 a = true) (hb : le 0#32 b = true) :
    le 0#32 (hw.min a b) = true := by
  rw [hw_min]
  split
  · next h => exact ha (not_isNaN_of_le h).1
  · exact hb

theorem zero_fle_max (a : Word) (hb : le 0#32 b = true) : le 0#32 (hw.max a b) = true := by
  rw [hw_max]
  split
  · next h => exact fle_trans hb h
  · exact hb

/-- The larger of 1 and a number has the sign plus. -/
theorem sign_max_one (hw' : isNaN w = false) : sign (hw.max hw.one w) = false := by
  rw [hw_max, hw_one]
  split
  · decide
  · next h =>
    have h1 : lt 0x3F800000#32 w = true := by
      by_contra hlt
      exact h (fle_of_not_flt (by decide) hw' hlt)
    refine sign_of_pos ?_
    rw [lt_iff (by decide) hw'] at h1 ⊢
    rw [val_one] at h1
    rw [val_zero]
    exact zero_lt_one.trans h1

end Sys2Proof.Machine.F32

/-! ## The ranges (spec/10_state.md R24 to R45) -/

namespace Sys2Proof.Machine

open F32

/-! ### The bounds of R8's table -/

/-- `hasDefaultBounds`, with a name for each bound. -/
structure DefaultBounds (C : Config) : Prop where
  cutoffMin    : C.cutoffMin = ⟨20, 0⟩
  cutoffMax    : C.cutoffMax = ⟨20000, 0⟩
  qBase        : C.qBase = ⟨707, 3⟩
  qMin         : C.qMin = ⟨5, 2⟩
  engineVolMax : C.engineVolMax = ⟨3, 1⟩
  envTMax      : C.envTMax = ⟨10, 0⟩
  glideMaxMs   : C.glideMaxMs = ⟨5000, 0⟩
  detuneMax    : C.detuneMax = ⟨1200, 0⟩
  rateMax      : C.rateMax = ⟨20, 0⟩
  fbMax        : C.fbMax = ⟨95, 2⟩
  delayMaxS    : C.delayMaxS = ⟨2, 0⟩

theorem defaultBounds_of {C : Config} (h : hasDefaultBounds C = true) : DefaultBounds C := by
  obtain ⟨h1, h2, h3, h4, h5, h6, h7, h8, h9, h10, h11⟩ := of_decide_eq_true h
  exact ⟨h1, h2, h3, h4, h5, h6, h7, h8, h9, h10, h11⟩

theorem inUnit_zero : inUnit 0#32 = true := by decide

theorem zero_fle_one : le hw.zero hw.one = true := by decide

section Bounds

variable {C : Config} (hb : DefaultBounds C)
include hb

theorem DefaultBounds.cutoff_le : le (hw.ofDec C.cutoffMin) (hw.ofDec C.cutoffMax) = true := by
  rw [hb.cutoffMin, hb.cutoffMax]; decide
theorem DefaultBounds.vol_le : le hw.zero (hw.ofDec C.engineVolMax) = true := by rw [hb.engineVolMax]; decide
theorem DefaultBounds.envT_le : le hw.zero (hw.ofDec C.envTMax) = true := by rw [hb.envTMax]; decide
theorem DefaultBounds.glide_le : le hw.zero (hw.ofDec C.glideMaxMs) = true := by rw [hb.glideMaxMs]; decide
theorem DefaultBounds.rate_le : le hw.zero (hw.ofDec C.rateMax) = true := by rw [hb.rateMax]; decide
theorem DefaultBounds.fb_le : le hw.zero (hw.ofDec C.fbMax) = true := by rw [hb.fbMax]; decide
theorem DefaultBounds.delay_le : le hw.zero (hw.ofDec C.delayMaxS) = true := by rw [hb.delayMaxS]; decide
theorem DefaultBounds.detune_le :
    le (hw.ofDec ⟨-C.detuneMax.num, C.detuneMax.scale⟩) (hw.ofDec C.detuneMax) = true := by
  rw [hb.detuneMax]; decide

end Bounds

/-! ### The invariant's parts -/

/-- The numeric registers of R45's table in their ranges. -/
structure RegistersInRange (C : Config) (R : Registers Word) : Prop where
  attack      : inRange hw.zero (hw.ofDec C.envTMax) R.prm.attack = true
  decay       : inRange hw.zero (hw.ofDec C.envTMax) R.prm.decay = true
  sustain     : inRange hw.zero hw.one R.prm.sustain = true
  release     : inRange hw.zero (hw.ofDec C.envTMax) R.prm.release = true
  detune      : inRange (hw.ofDec ⟨-C.detuneMax.num, C.detuneMax.scale⟩) (hw.ofDec C.detuneMax) R.prm.detune = true
  glideMs     : inRange hw.zero (hw.ofDec C.glideMaxMs) R.prm.glideMs = true
  lfoRate     : inRange hw.zero (hw.ofDec C.rateMax) R.lfoRate = true
  lfoDepth    : inRange hw.zero hw.one R.lfoDepth = true
  baseCutoff  : inRange (hw.ofDec C.cutoffMin) (hw.ofDec C.cutoffMax) R.baseCutoff = true
  q           : inRange (hw.ofDec C.qMin) (hw.ofDec C.qBase) R.q = true
  dlyTime     : inRange hw.zero (hw.ofDec C.delayMaxS) R.dlyTime = true
  dlyFeedback : inRange hw.zero (hw.ofDec C.fbMax) R.dlyFeedback = true
  dlyMix      : inRange hw.zero hw.one R.dlyMix = true
  revRoom     : inRange hw.zero hw.one R.revRoom = true
  revDamp     : inRange hw.zero hw.one R.revDamp = true
  trmRate     : inRange hw.zero (hw.ofDec C.rateMax) R.trmRate = true
  trmDepth    : inRange hw.zero hw.one R.trmDepth = true
  flgRate     : inRange hw.zero (hw.ofDec C.rateMax) R.flgRate = true
  flgDepth    : inRange hw.zero hw.one R.flgDepth = true
  flgFeedback : inRange hw.zero (hw.ofDec C.fbMax) R.flgFeedback = true
  flgMix      : inRange hw.zero hw.one R.flgMix = true

/-- A glide's frequencies and its step not negative; the step may be a NaN (assumption log 7). -/
structure GlideNonneg (g : GlideState Word) : Prop where
  current : le 0#32 g.current = true
  target  : le 0#32 g.target = true
  step    : lt g.step 0#32 = false

/-- `VoiceState.inRanges`, with a name for each part. -/
structure VoiceInRange (C : Config) (v : VoiceState Word) : Prop where
  velocity : inRange hw.zero hw.one v.velocity = true
  level    : LevelInUnit v.env
  freq     : le 0#32 v.osc.freq = true
  glide    : lt 0#32 (hw.ofDec C.a4Hz) = true → GlideNonneg v.gl

/-- `EngineState.inRanges`, with a name for each part. -/
structure EngineInRange (C : Config) (E : EngineState Word) : Prop where
  regs     : RegistersInRange C E.registers
  voices   : ∀ v ∈ E.voices, VoiceInRange C v
  lfoPhase : inUnit E.lfo.phase = true
  cutoff   : inRange (hw.ofDec C.cutoffMin) (hw.ofDec C.cutoffMax) E.flt.cutoff = true
  trmPhase : inUnit E.trm.phase = true
  flgPhase : inUnit E.flg.phase = true

theorem voice_inRanges_iff {C : Config} {v : VoiceState Word} :
    VoiceState.inRanges C v = true ↔ VoiceInRange C v := by
  rw [VoiceState.inRanges, decide_eq_true_eq, hw_zero, hw_one]
  constructor
  · rintro ⟨hvel, hlevel, hidle, hfreq, hglide⟩
    refine ⟨by rwa [hw_zero, hw_one], levelInUnit_iff.2 ⟨hlevel, hidle⟩, hfreq, fun ha => ?_⟩
    obtain ⟨hc, ht, hs⟩ := hglide ha
    exact ⟨hc, ht, hs⟩
  · rintro ⟨hvel, hlevel, hfreq, hglide⟩
    obtain ⟨hlevel, hidle⟩ := levelInUnit_iff.1 hlevel
    rw [hw_zero, hw_one] at hvel
    exact ⟨hvel, hlevel, hidle, hfreq, fun ha => ⟨(hglide ha).current, (hglide ha).target, (hglide ha).step⟩⟩

theorem engine_inRanges_iff {C : Config} {E : EngineState Word} :
    EngineState.inRanges C E = true ↔ EngineInRange C E := by
  rw [EngineState.inRanges, decide_eq_true_eq, List.all_eq_true]
  simp only [voice_inRanges_iff]
  constructor
  · rintro ⟨a, d, s, r, det, gl, vs, lr, ld, lp, bc, c, q, dt, df, dm, rr, rd, tr, td, tp, fr, fd, ff, fm, fp⟩
    exact ⟨⟨a, d, s, r, det, gl, lr, ld, bc, q, dt, df, dm, rr, rd, tr, td, fr, fd, ff, fm⟩, vs, lp, c, tp, fp⟩
  · rintro ⟨⟨a, d, s, r, det, gl, lr, ld, bc, q, dt, df, dm, rr, rd, tr, td, fr, fd, ff, fm⟩, vs, lp, c, tp, fp⟩
    exact ⟨a, d, s, r, det, gl, vs, lr, ld, lp, bc, c, q, dt, df, dm, rr, rd, tr, td, tp, fr, fd, ff, fm, fp⟩

/-- `State.inRanges`, by its parts. -/
theorem state_inRanges_iff {s : State} : State.inRanges s = true ↔
    (∀ e, EngineInRange s.cfg (s.engine e)) ∧ inRange hw.zero hw.one s.masterVol = true ∧
      ∀ e, inRange hw.zero (hw.ofDec s.cfg.engineVolMax) (s.vol e) = true := by
  simp only [State.inRanges, decide_eq_true_eq, engine_inRanges_iff]
  constructor
  · rintro ⟨hl, ht, hm, hvl, hvt⟩
    exact ⟨fun e => by cases e; exacts [hl, ht], hm, fun e => by cases e; exacts [hvl, hvt]⟩
  · rintro ⟨he, hm, hv⟩
    exact ⟨he .live, he .timeline, hm, hv .live, hv .timeline⟩

/-! ### Reset -/

section Reset

variable {C : Config} (hb : DefaultBounds C)

theorem voice_reset_inRange : VoiceInRange C (VoiceState.reset hw) := by
  rw [voice_reset_eq]
  exact ⟨by decide, levelInUnit_iff.2 ⟨by decide, fun _ => by decide⟩, by decide,
    fun _ => ⟨by decide, by decide, by decide⟩⟩

include hb

theorem registers_reset_inRange : RegistersInRange C (EngineState.reset hw C).registers := by
  rw [engine_reset_eq]
  constructor
  all_goals
    simp only [EngineState.registers, Spec.resetEngine, hb.envTMax, hb.detuneMax, hb.glideMaxMs, hb.rateMax,
      hb.cutoffMin, hb.cutoffMax, hb.qMin, hb.qBase, hb.delayMaxS, hb.fbMax]
    decide

theorem engine_reset_inRange : EngineInRange C (EngineState.reset hw C) where
  regs := registers_reset_inRange hb
  voices v hv := by
    rw [List.eq_of_mem_replicate hv]
    exact voice_reset_inRange
  lfoPhase := by rw [engine_reset_eq]; exact inUnit_zero
  cutoff := by
    rw [engine_reset_eq, hb.cutoffMin, hb.cutoffMax]
    simp only [Spec.resetEngine]
    decide
  trmPhase := by rw [engine_reset_eq]; exact inUnit_zero
  flgPhase := by rw [engine_reset_eq]; exact inUnit_zero

theorem reset_inRanges : State.inRanges (State.resetWith C) = true := by
  refine state_inRanges_iff.2 ⟨fun e => ?_, (by decide : inRange hw.zero hw.one hw.one = true), fun e => ?_⟩
  · cases e <;> exact engine_reset_inRange hb
  · have hvol : (State.resetWith C).vol e = hw.ofDec ⟨3, 1⟩ := by cases e <;> rfl
    rw [hvol, show (State.resetWith C).cfg.engineVolMax = ⟨3, 1⟩ from hb.engineVolMax]
    decide

end Reset

end Sys2Proof.Machine

namespace Sys2Proof.Proofs

open Sys2Proof.Machine

theorem reset_wf {C : Config} (hC : C.wf = true) (hfl : 1 ≤ C.flLen) : State.wf (State.resetWith C) = true :=
  state_wf_iff.2 ⟨fun e => by cases e <;> exact fits_reset hC hfl, rfl, rfl⟩

/-- Settles O13: the default configuration is a legal one with a flanger line. -/
theorem resetMeetsInvariants : Obligations.ResetMeetsInvariants :=
  ⟨reset_wf (by decide) (by decide), reset_inRanges (defaultBounds_of (by decide)), fun _ hC hfl =>
    ⟨reset_wf hC hfl, fun hb => reset_inRanges (defaultBounds_of hb)⟩⟩

end Sys2Proof.Proofs

/-! ## Every step keeps the ranges (spec/10_state.md R45; spec/42_glide.md R146; spec/40_oscillator.md R108) -/

namespace Sys2Proof.Machine

open F32

/-! ### Bounds as values -/

theorem fs_within_of_wf {C : Config} (h : C.wf = true) : Within 1000 192000 (ofInt C.fs) :=
  fs_within (Proofs.fs_bounds h).1 (Proofs.fs_bounds h).2

theorem within_of_unit {w : Word} (h : inRange hw.zero hw.one w = true) : Within 0 1 w := by
  rwa [hw_zero, hw_one, inRange_unit_iff] at h

section Bounds

variable {C : Config} (hb : DefaultBounds C) {w : Word}
include hb

theorem DefaultBounds.envT_inRange (h : inRange hw.zero (hw.ofDec C.envTMax) w = true) :
    inRange 0#32 0x41200000#32 w = true := by
  have hd : hw.ofDec ⟨10, 0⟩ = 0x41200000#32 := by decide
  rwa [hb.envTMax, hd, hw_zero] at h

theorem DefaultBounds.rate_within (h : inRange hw.zero (hw.ofDec C.rateMax) w = true) : Within 0 20 w := by
  have hd : hw.ofDec ⟨20, 0⟩ = ofInt 20 := by decide
  rw [hb.rateMax, hd, hw_zero, inRange_iff_within (by decide) (by decide), val_zero, (ofInt_exact (by decide)).2] at h
  exact_mod_cast h

theorem DefaultBounds.cutoff_within (h : inRange (hw.ofDec C.cutoffMin) (hw.ofDec C.cutoffMax) w = true) :
    Within 20 20000 w := by
  have hd : hw.ofDec ⟨20, 0⟩ = ofInt 20 ∧ hw.ofDec ⟨20000, 0⟩ = ofInt 20000 := by decide
  rw [hb.cutoffMin, hb.cutoffMax, hd.1, hd.2, inRange_iff_within (by decide) (by decide), (ofInt_exact (by decide)).2,
    (ofInt_exact (by decide)).2] at h
  exact_mod_cast h

theorem DefaultBounds.glide_finite (h : inRange hw.zero (hw.ofDec C.glideMaxMs) w = true) : isFinite w = true := by
  rw [hb.glideMaxMs, inRange_iff] at h
  exact finite_between (by decide) (by decide) h.1 h.2

end Bounds

/-! ### The glide -/

/-- The target of NOTE_ON: positive times positive. -/
theorem zero_fle_midiToFreq {C : Config} (ha : lt 0#32 (hw.ofDec C.a4Hz) = true) {n : Int} (h0 : 0 ≤ n)
    (h1 : n ≤ 127) : le 0#32 (midiToFreq hw C n) = true := by
  refine zero_fle_mul ha (exp2_pos ?_)
  have hn := within_ofInt (n := n - 69) (by omega)
  have h12 := within_ofInt (n := 12) (by decide)
  have hne : val (ofInt 12) ≠ 0 := by rw [(ofInt_exact (by decide)).2]; norm_num
  have hlo : (-69 : ℚ) ≤ ((n - 69 : ℤ) : ℚ) := by exact_mod_cast (by omega : (-69 : ℤ) ≤ n - 69)
  have hhi : ((n - 69 : ℤ) : ℚ) ≤ 69 := by exact_mod_cast (by omega : n - 69 ≤ (69 : ℤ))
  have h6 : IsDatum 6 := by exact_mod_cast isDatum_nat (n := 6) (by omega)
  have hdiv := rounds_div hn.1 h12.1 hne
  rw [(ofInt_exact (by omega)).2, (ofInt_exact (by decide)).2] at hdiv
  push_cast at hdiv hlo hhi
  exact (hdiv.within h6.neg h6 (by linarith) (by linarith)).1

/-- The divisor of a glide's step is 1 or above 1. -/
theorem sign_glideSamples {C : Config} {P : VoiceParams Word} (hfs : isFinite (ofInt C.fs) = true)
    (hg : isFinite P.glideMs = true) : sign (glideSamples hw C P) = false := by
  have hmul : isNaN (mul P.glideMs (ofInt C.fs)) = false := (rounds_mul hg hfs).num
  have hx : isNaN (div (mul P.glideMs (ofInt C.fs)) (ofInt 1000)) = false := by
    rw [← Bool.not_eq_true, isNaN_div_iff hmul (by decide)]
    rintro (⟨-, h⟩ | ⟨-, h⟩)
    · exact absurd h (by decide)
    · exact absurd h (by decide)
  exact sign_max_one hx

theorem GlideNonneg.setTarget {C : Config} {P : VoiceParams Word} {g : GlideState Word} {f : Word}
    (hs : sign (glideSamples hw C P) = false) (h : GlideNonneg g) (hf : le 0#32 f = true) :
    GlideNonneg (g.setTarget hw C P f) := by
  unfold GlideState.setTarget
  split
  · exact ⟨hf, hf, (by decide : lt hw.zero 0#32 = false)⟩
  · exact ⟨h.current, hf, div_not_neg sign_abs fun _ => hs⟩

/-- Going up, the next value is a sum not below 0 or the target; going down, it is not below the target. -/
theorem GlideNonneg.advance {P : VoiceParams Word} {g : GlideState Word} (h : GlideNonneg g) :
    GlideNonneg (g.advance hw P) := by
  obtain ⟨htarget, hstep⟩ := glide_advance_frame (N := hw) P g
  refine ⟨?_, htarget ▸ h.target, hstep ▸ h.step⟩
  unfold GlideState.advance
  split
  · exact h.target
  split
  · change le 0#32 (hw.min (if F32.eq (add g.current g.step) g.current then g.target else add g.current g.step)
      g.target) = true
    split
    · exact zero_fle_min (fun _ => h.target) h.target
    · exact zero_fle_min (zero_fle_add h.current h.step) h.target
  split
  · exact zero_fle_max _ h.target
  · exact h.current

/-! ### A voice -/

section Voice

variable {C : Config} {R : Registers Word} {v : VoiceState Word}

theorem VoiceInRange.noteOn (h : VoiceInRange C v) {P : VoiceParams Word} (hs : sign (glideSamples hw C P) = false)
    {freq vel : Word} (hf : lt 0#32 (hw.ofDec C.a4Hz) = true → le 0#32 freq = true)
    (hvel : inRange hw.zero hw.one vel = true) : VoiceInRange C (v.noteOn hw C P freq vel) where
  velocity := hvel
  level := levelInUnit_of_stage h.level.1 nofun
  freq := by
    change le 0#32 (if v.isActive then v.osc else v.osc.resetPhase hw).freq = true
    split <;> exact h.freq
  glide ha := (h.glide ha).setTarget hs (hf ha)

theorem VoiceInRange.noteOff (h : VoiceInRange C v) : VoiceInRange C v.noteOff :=
  { h with level := levelInUnit_of_stage h.level.1 nofun }

/-- The glide, the retuned oscillator and the envelope each keep their part. -/
theorem VoiceInRange.tick (h : VoiceInRange C v) (hC : C.wf = true) (hb : DefaultBounds C) (hR : RegistersInRange C R) :
    VoiceInRange C (v.tick hw C R.prm).1 where
  velocity := h.velocity
  level := by
    obtain ⟨hlo, hhi⟩ := Proofs.fs_bounds hC
    obtain ⟨hlevel, hidle⟩ := levelInUnit_iff.1 h.level
    have hsus := hR.sustain
    rw [hw_zero, hw_one] at hsus
    obtain ⟨hlevel', hidle', -⟩ := Proofs.envelopeInUnit C R.prm v.env hlo hhi (hb.envT_inRange hR.attack)
      (hb.envT_inRange hR.decay) (hb.envT_inRange hR.release) hsus hlevel hidle
    exact levelInUnit_iff.2 ⟨hlevel', hidle'⟩
  freq := zero_fle_max _ (by decide)
  glide ha := (h.glide ha).advance

theorem VoiceInRange.process (h : VoiceInRange C v) (hC : C.wf = true) (hb : DefaultBounds C)
    (hR : RegistersInRange C R) (n : Nat) (buf : Mem Word) : VoiceInRange C (v.process hw C R.prm n buf).1 := by
  cases ha : v.isActive
  · rwa [VoiceState.process_silent _ _ ha]
  · exact voice_process_induct R.prm ha { h with level := h.level } (fun u hu => hu.tick hC hb hR) n buf

end Voice

/-! ### The chain -/

section Chain

variable {C : Config} (hC : C.wf = true) (hb : DefaultBounds C)
include hC hb

/-- A modulator's phase one sample on. -/
theorem phase_inUnit {p r : Word} (hp : inUnit p = true) (hr : inRange hw.zero (hw.ofDec C.rateMax) r = true) :
    inUnit (hw.wrap01 (hw.add p (hw.div r (hw.ofInt C.fs)))) = true := by
  have hrate := hb.rate_within hr
  have hfs := fs_within_of_wf hC
  have h0 : (0 : ℚ) < val (ofInt C.fs) := by linarith [hfs.2.1]
  have hinc : Within 0 1 (div r (ofInt C.fs)) := by
    refine (rounds_div hrate.1 hfs.1 h0.ne').within isDatum_zero isDatum_one (div_nonneg hrate.2.1 h0.le) ?_
    rw [div_le_one h0]
    linarith [hrate.2.2, hfs.2.1]
  have hsum := within_add ((inUnit_iff p).1 hp).1 hinc isDatum_zero isDatum_two (by norm_num) (by norm_num)
  exact wrap01_inUnit hsum.1 hsum.2.1

/-- The modulated cutoff is finite before it is clamped: the factor `1 + m` is in `[0, 2]`. -/
theorem cutoff_lfoStage {E : EngineState Word} (h : EngineInRange C E) :
    inRange (hw.ofDec C.cutoffMin) (hw.ofDec C.cutoffMax) (E.lfoStage hw C).flt.cutoff = true := by
  have hbase := hb.cutoff_within h.regs.baseCutoff
  have hwave := wave_within E.lfo.waveform (phase_inUnit hC hb h.lfoPhase h.regs.lfoRate)
  have hdepth := within_of_unit h.regs.lfoDepth
  change Within 0 1 E.lfo.depth at hdepth
  change Within 20 20000 E.baseCutoff at hbase
  have hm : Within (-1) 1 (E.lfo.process hw C).2 := by
    refine (rounds_mul hwave.1 hdepth.1).within isDatum_one.neg isDatum_one ?_ ?_ <;>
      nlinarith [hwave.2.1, hwave.2.2, hdepth.2.1, hdepth.2.2]
  have hfactor : Within 0 2 (add hw.one (E.lfo.process hw C).2) :=
    within_add (hw_one ▸ within_one) hm isDatum_zero isDatum_two (by norm_num) (by norm_num)
  exact inRange_clamp (rounds_mul hbase.1 hfactor.1).num hb.cutoff_le

theorem EngineInRange.chain {E : EngineState Word} (h : EngineInRange C E) (x : Word) :
    EngineInRange C (E.chain hw C x).1 := by
  apply EngineState.chain_induct E x h
  case hlfo =>
    exact fun _ h => { h with
      regs := h.regs, lfoPhase := phase_inUnit hC hb h.lfoPhase h.regs.lfoRate, cutoff := cutoff_lfoStage hC hb h }
  case hflt => exact fun _ _ _ h => { h with regs := h.regs }
  case hflg => exact fun _ _ _ h => { h with regs := h.regs, flgPhase := phase_inUnit hC hb h.flgPhase h.regs.flgRate }
  case htrm => exact fun _ _ _ h => { h with regs := h.regs, trmPhase := phase_inUnit hC hb h.trmPhase h.regs.trmRate }
  case hdly => exact fun _ _ _ h => { h with regs := h.regs }
  case hrev => exact fun _ _ _ h => { h with regs := h.regs }

theorem EngineInRange.process {E : EngineState Word} (h : EngineInRange C E) (n : Nat) :
    EngineInRange C (E.process hw C n) := by
  refine EngineState.process_induct n E ?_ fun i F _ hF => { hF.chain hC hb _ with regs := (hF.chain hC hb _).regs }
  exact { h with
    regs := h.regs
    voices := runVoices_forall E.prm n (fun v buf hv => hv.process (R := E.registers) hC hb h.regs n buf) E.voices _
      h.voices }

end Chain

/-! ### Commands -/

section Commands

variable {C : Config} (hC : C.wf = true) (hb : DefaultBounds C)

theorem noteOperand_bounds (a : BitVec 16) : 0 ≤ noteOperand a ∧ noteOperand a ≤ 127 := by
  unfold noteOperand clampI
  split
  · decide
  · split <;> omega

variable {E : EngineState Word}

theorem EngineInRange.setLfoRoute (h : EngineInRange C E) (b : Bool) : EngineInRange C (E.setLfoRoute b) := by
  cases b
  · exact { h with regs := { h.regs with attack := h.regs.attack }, cutoff := h.regs.baseCutoff }
  · exact { h with regs := { h.regs with attack := h.regs.attack } }

theorem EngineInRange.release (h : EngineInRange C E) (c : VoiceState Word → Bool) :
    EngineInRange C { E with voices := E.voices.map fun v => if c v then v.noteOff else v } :=
  { h with regs := h.regs, voices := map_if_forall (fun _ hv => hv.noteOff) h.voices }

include hb

/-- `Q_BASE - r * (Q_BASE - Q_MIN)` in its range: the rounded difference is just below the exact one. -/
theorem qOfResonance_inRange {r : Word} (hr : Within 0 1 r) :
    inRange (hw.ofDec C.qMin) (hw.ofDec C.qBase) (qOfResonance hw C r) = true := by
  have hQ : hw.ofDec ⟨707, 3⟩ = 0x3F34FDF4#32 := by decide
  have hm : hw.ofDec ⟨5, 2⟩ = 0x3D4CCCCD#32 := by decide
  have hd : hw.sub 0x3F34FDF4#32 0x3D4CCCCD#32 = 0x3F283127#32 := by decide
  have hvals : scaled 0x3D4CCCCD#32 ≤ scaled 0x3F34FDF4#32 - scaled 0x3F283127#32 := by decide
  rw [qOfResonance, hb.qBase, hb.qMin, hQ, hm, hd, inRange_iff_within (by decide) (by decide)]
  have hspan : Within 0 (val 0x3F283127#32) 0x3F283127#32 :=
    ⟨by decide, (scaled_nonneg_iff _).1 (by decide), le_rfl⟩
  have hmul : Within 0 (val 0x3F283127#32) (mul r 0x3F283127#32) :=
    within_mul hr hspan le_rfl le_rfl isDatum_zero (isDatum_val (by decide)) (by norm_num) (by rw [one_mul])
  refine within_sub (a := 0x3F34FDF4#32) ⟨by decide, le_rfl, le_rfl⟩ hmul (isDatum_val (by decide))
    (isDatum_val (by decide)) ?_ (by rw [sub_zero])
  simp only [val, ← sub_div]
  rw [div_le_div_iff_of_pos_right (by positivity)]
  exact_mod_cast hvals

include hC

theorem EngineInRange.noteOn (h : EngineInRange C E) (a : BitVec 16) {x : Word} (hx : isNaN x = false) :
    EngineInRange C (E.noteOn hw C (noteOperand a) (unitClamp hw x)) := by
  have hs : sign (glideSamples hw C E.prm) = false :=
    sign_glideSamples (fs_within_of_wf hC).1 (hb.glide_finite h.regs.glideMs)
  have hf : lt 0#32 (hw.ofDec C.a4Hz) = true → le 0#32 (midiToFreq hw C (noteOperand a)) = true := fun ha =>
    zero_fle_midiToFreq ha (noteOperand_bounds a).1 (noteOperand_bounds a).2
  exact { h with
    regs := h.regs
    voices := updAt_forall (fun _ hv => hv.noteOn hs hf (inRange_clamp hx zero_fle_one)) _ _ h.voices }

/-- A numeric setter clamps a datum that is no NaN into its register's range; the others write no numeric register. -/
theorem EngineInRange.engineEffect (h : EngineInRange C E) {i : Instr} (hn : NumOperandOk i) :
    EngineInRange C (engineEffect C i E) := by
  have hr := h.regs
  cases i
  case noteOn e a f => exact h.noteOn hC hb a (hn f rfl)
  case noteOff => exact h.release _
  case stopAllNotes e =>
    cases e
    · exact h
    · exact h.release _
  case setAttack e f => exact { h with regs := { hr with attack := inRange_clamp (hn f rfl) hb.envT_le } }
  case setDecay e f => exact { h with regs := { hr with decay := inRange_clamp (hn f rfl) hb.envT_le } }
  case setSustain e f => exact { h with regs := { hr with sustain := inRange_clamp (hn f rfl) zero_fle_one } }
  case setRelease e f => exact { h with regs := { hr with release := inRange_clamp (hn f rfl) hb.envT_le } }
  case setDetune e f => exact { h with regs := { hr with detune := inRange_clamp (hn f rfl) hb.detune_le } }
  case setGlideTime e f => exact { h with regs := { hr with glideMs := inRange_clamp (hn f rfl) hb.glide_le } }
  case setFilterCutoff e f =>
    exact { h with
      regs := { hr with baseCutoff := inRange_clamp (hn f rfl) hb.cutoff_le }
      cutoff := inRange_clamp (hn f rfl) hb.cutoff_le }
  case setFilterResonance e f =>
    exact { h with
      regs := { hr with q := qOfResonance_inRange hb (within_of_unit (inRange_clamp (hn f rfl) zero_fle_one)) } }
  case setLfoRate e f => exact { h with regs := { hr with lfoRate := inRange_clamp (hn f rfl) hb.rate_le } }
  case setLfoDepth e f => exact { h with regs := { hr with lfoDepth := inRange_clamp (hn f rfl) zero_fle_one } }
  case setLfoRoute e a => exact h.setLfoRoute _
  case setDelayTime e f => exact { h with regs := { hr with dlyTime := inRange_clamp (hn f rfl) hb.delay_le } }
  case setDelayFeedback e f => exact { h with regs := { hr with dlyFeedback := inRange_clamp (hn f rfl) hb.fb_le } }
  case setDelayMix e f => exact { h with regs := { hr with dlyMix := inRange_clamp (hn f rfl) zero_fle_one } }
  case setReverbRoom e f => exact { h with regs := { hr with revRoom := inRange_clamp (hn f rfl) zero_fle_one } }
  case setReverbDamp e f => exact { h with regs := { hr with revDamp := inRange_clamp (hn f rfl) zero_fle_one } }
  case setTremoloRate e f => exact { h with regs := { hr with trmRate := inRange_clamp (hn f rfl) hb.rate_le } }
  case setTremoloDepth e f => exact { h with regs := { hr with trmDepth := inRange_clamp (hn f rfl) zero_fle_one } }
  case setFlangerRate e f => exact { h with regs := { hr with flgRate := inRange_clamp (hn f rfl) hb.rate_le } }
  case setFlangerDepth e f => exact { h with regs := { hr with flgDepth := inRange_clamp (hn f rfl) zero_fle_one } }
  case setFlangerFeedback e f => exact { h with regs := { hr with flgFeedback := inRange_clamp (hn f rfl) hb.fb_le } }
  case setFlangerMix e f => exact { h with regs := { hr with flgMix := inRange_clamp (hn f rfl) zero_fle_one } }
  all_goals exact { h with regs := { hr with attack := hr.attack } }

end Commands

/-! ### The state -/

section State

variable {s t : State} (hb : DefaultBounds s.cfg)

theorem inRanges_drain (h : State.inRanges s = true) : State.inRanges s.drain = true := by
  rw [state_inRanges_iff] at h ⊢
  simpa using h

include hb

theorem inRanges_afterReset : State.inRanges (s.afterReset hw) = true := reset_inRanges hb

theorem inRanges_of_executes {i : Instr} (hC : s.cfg.wf = true) (h : State.inRanges s = true) (ht : Executes i s t) :
    State.inRanges t = true := by
  have h' := h
  rw [state_inRanges_iff] at h'
  obtain ⟨he, hm, hv⟩ := h'
  cases ht with
  | nothing | respond => exact h
  | reset => exact inRanges_afterReset hb
  | process n =>
    refine state_inRanges_iff.2 ⟨fun e => ?_, hm, fun e => ?_⟩
    · rw [State.afterProcess_cfg, State.afterProcess_engine]
      exact (he e).process hC hb _
    · rw [State.afterProcess_cfg, State.afterProcess_vol]
      exact hv e
  | engine e hn =>
    rw [state_inRanges_iff, State.updEngine_cfg]
    exact ⟨State.forall_engine_updEngine he fun hE => hE.engineEffect hC hb hn, by simpa using hm,
      fun e' => by simpa using hv e'⟩
  | engineVol e hf =>
    refine state_inRanges_iff.2 ⟨fun e' => by simpa using he e', by simpa using hm, fun e' => ?_⟩
    rw [State.setVol_cfg]
    by_cases hne : e' = e
    · rw [hne, State.setVol_vol_same]
      exact inRange_clamp hf hb.vol_le
    · rw [State.setVol_vol_other _ _ _ _ hne]
      exact hv e'
  | masterVol hf => exact state_inRanges_iff.2 ⟨he, inRange_clamp hf zero_fle_one, hv⟩

end State

end Sys2Proof.Machine

namespace Sys2Proof.Proofs

open Sys2Proof.Machine

/-- Settles O15: reset, output step and every command keep every register, voice and phase in its range. -/
theorem stepKeepsRanges : Obligations.StepKeepsRanges := fun s _ hbounds hs h =>
  have hb := defaultBounds_of hbounds
  step_keeps (p := fun s => State.inRanges s = true) h hs (fun _ => inRanges_afterReset hb) (fun _ => inRanges_drain hs)
    fun _ rest _ hC _ ht => inRanges_of_executes (s := { s with cmdIn := rest }) hb hC hs ht

end Sys2Proof.Proofs

/-! ## Steps, commands and the output port (spec/20_memory.md R66, R71; spec/70_reset_and_hazards.md R361) -/

namespace Sys2Proof.Machine

/-! ### One step -/

/-- A step that accepts a word executes it. -/
theorem step_of_accepts {s : State} {w : CmdWord} {rest : List CmdWord} (h : Spec.Accepts s w rest) :
    step s = exec (decode w).executedAs { s with cmdIn := rest } := by
  obtain ⟨hwf, hr, hb, hc⟩ := h
  simp [step, stepWith, hwf, hr, hb, hc]

theorem step_idle {s : State} (hwf : s.cfg.wf = true) (hr : s.rst = false) (hb : s.busy = false) (hc : s.cmdIn = []) :
    step s = .next s := by
  simp [step, stepWith, hwf, hr, hb, hc]

theorem step_busy {s : State} (hwf : s.cfg.wf = true) (hr : s.rst = false) (hb : s.busy = true) :
    step s = .next s.drain := by
  simp [step, stepWith, hwf, hr, hb]

/-- R361: with `out_ready` low nothing moves. -/
theorem step_stalled {s : State} (hwf : s.cfg.wf = true) (hr : s.rst = false) (hb : s.busy = true)
    (hready : s.outReady.headD s.outReadyEnd = false) : step s = .next { s with outReady := s.outReady.tail } := by
  rw [step_busy hwf hr hb, State.drain_stalled hready]

/-- R71: with it high the host takes the oldest sample. -/
theorem step_taken {s : State} {x : OutSample} {xs : List OutSample} (hwf : s.cfg.wf = true) (hr : s.rst = false)
    (hb : s.busy = true) (hready : s.outReady.headD s.outReadyEnd = true) (hport : s.outPort = x :: xs) :
    step s = .next { s with
      busy := !x.last, outPort := xs, outStream := s.outStream ++ [x], outReady := s.outReady.tail } := by
  rw [step_busy hwf hr hb, State.drain_ready hready,
    State.take_cons (s := { s with outReady := s.outReady.tail }) hport]

/-! ### Runs -/

theorem run_zero (s : State) : Spec.run 0 s = .next s := rfl

theorem run_succ {s t : State} (h : step s = .next t) (k : Nat) : Spec.run (k + 1) s = Spec.run k t := by
  simp only [Spec.run, Host.Core.run, core, h]

theorem run_add {b : Nat} {t : State} : ∀ {a : Nat} {s : State}, Spec.run a s = .next t →
    Spec.run (a + b) s = Spec.run b t
  | 0, s, h => by
    cases h
    rw [Nat.zero_add]
  | a + 1, s, h => by
    cases hs : step s with
    | next u =>
      rw [run_succ hs] at h
      rw [Nat.add_right_comm, run_succ hs, run_add h]
    | fault r => cases r
    | refused r => simp [Spec.run, Host.Core.run, core, hs] at h

/-- While `out_ready` is low, only the schedule moves. -/
theorem run_stalled : ∀ {k m : Nat} {s : State}, s.cfg.wf = true → s.rst = false → s.busy = true →
    s.outReady = List.replicate m false → (s.outReadyEnd = false ∨ k ≤ m) →
    Spec.run k s = .next { s with outReady := s.outReady.drop k }
  | 0, _, _, _, _, _, _, _ => rfl
  | k + 1, m, s, hwf, hr, hb, hsched, hk => by
    have hready : s.outReady.headD s.outReadyEnd = false := by
      rw [hsched]
      cases m with
      | zero => exact hk.resolve_right (Nat.not_succ_le_zero k)
      | succ m => rfl
    have hrest := run_stalled (k := k) (m := m - 1) (s := { s with outReady := s.outReady.tail }) hwf hr hb
      (by rw [hsched, List.tail_replicate]) (hk.imp_right Nat.le_sub_one_of_lt)
    rw [run_succ (step_stalled hwf hr hb hready), hrest, List.drop_tail]

/-- To a host that is ready a sample passes at each step, and the last of them lowers `busy`. -/
theorem run_ready : ∀ {k : Nat} {s : State}, s.cfg.wf = true → s.rst = false → PortFits s.busy s.outPort →
    s.outReady = [] → s.outReadyEnd = true → k ≤ s.outPort.length →
    Spec.run k s = .next { s with
      busy := decide (k < s.outPort.length)
      outPort := s.outPort.drop k
      outStream := s.outStream ++ s.outPort.take k }
  | 0, s, _, _, hp, _, _, _ => by
    have hb : decide (0 < s.outPort.length) = s.busy := by
      rw [hp.1]
      cases s.outPort <;> rfl
    simp [run_zero, hb]
  | k + 1, s, hwf, hr, hp, hsched, hend, hk => by
    obtain ⟨x, xs, hport⟩ := List.exists_cons_of_length_pos (Nat.zero_lt_of_lt hk)
    rw [hport] at hp hk
    have hready : s.outReady.headD s.outReadyEnd = true := by rw [hsched]; exact hend
    have hrest := run_ready (k := k)
      (s := { s with busy := !x.last, outPort := xs, outStream := s.outStream ++ [x], outReady := s.outReady.tail })
      hwf hr hp.tail (congrArg List.tail hsched) hend (Nat.le_of_succ_le_succ hk)
    rw [run_succ (step_taken hwf hr hp.1 hready hport), hrest]
    simp [hport, hsched]

end Sys2Proof.Machine

/-! ## A command's word decodes to the command (spec/30_encoding.md R80, R81, R84, R88) -/

namespace Sys2Proof

section Fields

variable (op : BitVec 8) (e : EngineSel) (a : BitVec 16) (f : BitVec 32)

@[simp] theorem fieldE_packWord : fieldE (packWord op e a f) = e := by
  simp only [fieldE, packWord, BitVec.getLsbD_append]
  cases e <;> rfl

@[simp] theorem fieldA_packWord : fieldA (packWord op e a f) = a :=
  (BitVec.extractLsb'_append_eq_of_le le_rfl).trans BitVec.extractLsb'_append_eq_right

@[simp] theorem fieldF_packWord : fieldF (packWord op e a f) = f := BitVec.extractLsb'_append_eq_right

end Fields

theorem decode_encode {i : Instr} (h : i.wf = true) : decode (encode i) = .command i := by
  cases i
  case stopAllNotes e =>
    obtain rfl : e = .timeline := of_decide_eq_true h
    decide
  all_goals
    unfold encode decode
    rw [Laws.fieldOP_packWord, fieldE_packWord, fieldA_packWord, fieldF_packWord]
    rfl

/-! ### Serialised words (spec/20_memory.md R63) -/

/-- A word is its eight bytes joined, the least significant last. -/
theorem append_bytes (w : CmdWord) :
    w.extractLsb' 56 8 ++ w.extractLsb' 48 8 ++ w.extractLsb' 40 8 ++ w.extractLsb' 32 8 ++ w.extractLsb' 24 8 ++
      w.extractLsb' 16 8 ++ w.extractLsb' 8 8 ++ w.extractLsb' 0 8 = w := by
  have hjoin : ∀ i n, w.extractLsb' (i + 8) n ++ w.extractLsb' i 8 = w.extractLsb' i (n + 8) := fun _ _ =>
    BitVec.extractLsb'_append_extractLsb'_eq_extractLsb' rfl
  rw [hjoin 48 8, hjoin 40 16, hjoin 32 24, hjoin 24 32, hjoin 16 40, hjoin 8 48, hjoin 0 56]
  exact BitVec.extractLsb'_eq_self

theorem decodeBytes_of_short {bs : List (BitVec 8)} (h : bs.length < 8) : decodeBytes bs = .short bs := by
  unfold decodeBytes
  split
  · simp only [List.length_cons] at h
    omega
  · rfl

end Sys2Proof

namespace Sys2Proof.Proofs

open Sys2Proof.Machine

/-- Settles O6: an accepted word is executed, and a command's word decodes to it. -/
theorem stepRunsCommand : Obligations.StepRunsCommand := by
  have hstep : ∀ s w rest i, Spec.Accepts s w rest → decode w = .command i →
      step s = exec i { s with cmdIn := rest } := by
    intro s w rest i hs hd
    rw [step_of_accepts hs, hd, Decoded.executedAs]
  exact ⟨hstep, fun s rest i hi hs => hstep s _ rest i hs (decode_encode hi), fun _ => step_idle⟩

/-- Settles O7: an output step by the two values of `out_ready`. -/
theorem outputStep : Obligations.OutputStep := fun _ hwf hr hb =>
  ⟨step_stalled hwf hr hb, fun _ _ => step_taken hwf hr hb⟩

/-- Settles O8: the schedule's stall, then the port to a ready host; the endless stall alone. -/
theorem blockIsDelivered : Obligations.BlockIsDelivered := by
  intro s m hwf hs hr hb hsched
  obtain ⟨-, hp⟩ := state_wf_iff.1 hs
  have hstall := fun k hk => run_stalled (k := k) hwf hr hb hsched hk
  refine ⟨fun hend => ?_, fun hend k => hstall k (.inl hend)⟩
  have hidle : s.outReady.drop m = [] := by rw [hsched, List.drop_replicate, Nat.sub_self, List.replicate_zero]
  have hport : ∀ k ≤ s.outPort.length, _ := fun k hk => (run_add (hstall m (.inr le_rfl))).trans
    (run_ready (s := { s with outReady := s.outReady.drop m }) hwf hr hp hidle hend hk)
  refine ⟨by simpa [hidle] using hport s.outPort.length le_rfl, fun k hk => ?_⟩
  rcases Nat.le_total k m with hkm | hmk
  · exact ⟨_, hstall k (.inr hkm), hb, rfl⟩
  · obtain ⟨j, rfl⟩ := Nat.exists_eq_add_of_le hmk
    have hj : j < s.outPort.length := Nat.lt_of_add_lt_add_left hk
    exact ⟨_, hport j hj.le, decide_eq_true hj, rfl⟩

/-- Settles O60: the bytes joined are the word. -/
theorem serialisedWords : Obligations.SerialisedWords :=
  ⟨fun w rest => congrArg (fun v => ByteDecoded.word (decode v) rest) (append_bytes w), fun _ => decodeBytes_of_short⟩

end Sys2Proof.Proofs

/-! ## The streaming order and the buffered order (spec/20_memory.md R73) -/

namespace Sys2Proof.Machine

/-! ### The chain over the words of a memory -/

/-- The engine with these voices and this scratch buffer. -/
def EngineState.withBuffers (V : List (VoiceState Word)) (m : Mem Word) (E : EngineState Word) : EngineState Word :=
  { E with voices := V, scr := m }

/-- A stage under its flag runs over the voices and the scratch buffer whatever they are, if the stage itself does. -/
theorem stage_withBuffers {V : List (VoiceState Word)} {m : Mem Word} {p q : EngineState Word × Word}
    (flag : EngineState Word → Bool) (stage : EngineState Word → Word → EngineState Word × Word)
    (hp : p = Prod.map (EngineState.withBuffers V m) id q)
    (hflag : ∀ E, flag (E.withBuffers V m) = flag E := by exact fun _ => rfl)
    (hstage : ∀ E x, stage (E.withBuffers V m) x = Prod.map (EngineState.withBuffers V m) id (stage E x) := by
      exact fun _ _ => rfl) :
    (if flag p.1 then stage p.1 p.2 else p) =
      Prod.map (EngineState.withBuffers V m) id (if flag q.1 then stage q.1 q.2 else q) := by
  rw [hp, apply_ite (Prod.map (EngineState.withBuffers V m) id), ← hstage, ← hflag q.1]
  rfl

/-- Every stage of the chain runs over the voices and the scratch buffer whatever they are, and so does the chain. -/
theorem chain_withBuffers (C : Config) (V : List (VoiceState Word)) (m : Mem Word) (E : EngineState Word) (x : Word) :
    (E.withBuffers V m).chain hw C x = Prod.map (EngineState.withBuffers V m) id (E.chain hw C x) := by
  have hlfo : (if (E.withBuffers V m).lfoRoute then (E.withBuffers V m).lfoStage hw C else E.withBuffers V m, x) =
      Prod.map (EngineState.withBuffers V m) id (if E.lfoRoute then E.lfoStage hw C else E, x) := by
    rw [Prod.map_apply, apply_ite (EngineState.withBuffers V m)]
    rfl
  have hflt := stage_withBuffers (·.fltEnable) (EngineState.filterStage hw C) hlfo
  have hflg := stage_withBuffers (·.flgEnable) (EngineState.flangerStage hw C) hflt
  have htrm := stage_withBuffers (·.trmEnable) (EngineState.tremoloStage hw C) hflg
  have hdly := stage_withBuffers (·.dlyEnable) (EngineState.delayStage hw C) htrm
  exact stage_withBuffers (·.revEnable) (EngineState.reverbStage hw C) hdly

theorem chainAt_withBuffers (C : Config) (i : Nat) (V : List (VoiceState Word)) (m : Mem Word) (E : EngineState Word) :
    (E.withBuffers V m).chainAt hw C i =
      (E.chain hw C (Mem.read hw.zero m i)).1.withBuffers V
        (Mem.write hw.zero m i (E.chain hw C (Mem.read hw.zero m i)).2) := by
  rw [EngineState.chainAt, chain_withBuffers]
  rfl

/-- The engine after `n` samples through the chain, sample `i` of them `x i`. -/
def EngineState.chainOver (C : Config) (x : Nat → Word) (n : Nat) (E : EngineState Word) : EngineState Word :=
  forSamples (fun i F => (F.chain hw C (x i)).1) n E

/-- What the chain returns at sample `i`. -/
def EngineState.chainWord (C : Config) (x : Nat → Word) (E : EngineState Word) (i : Nat) : Word :=
  ((E.chainOver C x i).chain hw C (x i)).2

theorem chainOver_succ (C : Config) (x : Nat → Word) (n : Nat) (E : EngineState Word) :
    E.chainOver C x (n + 1) = ((E.chainOver C x n).chain hw C (x n)).1 := rfl

theorem chainOver_prm (C : Config) (x : Nat → Word) (n : Nat) (E : EngineState Word) :
    (E.chainOver C x n).prm = E.prm := by
  refine forSamples_induct (p := fun F : EngineState Word => F.prm = E.prm) n E rfl fun i F _ hF => ?_
  obtain ⟨-, -, hreg⟩ := EngineState.chain_frame (N := hw) (C := C) F (x i)
  exact (congrArg Registers.prm hreg).trans hF

/-- The chain in place over the words of a memory is the chain over those words. -/
theorem forSamples_chainAt (C : Config) {x : Nat → Word} (E : EngineState Word) (V : List (VoiceState Word))
    {m : Mem Word} {len n : Nat} (hm : Mem.wf hw.zero len m = true) (hn : n ≤ len)
    (hx : ∀ i < n, Mem.read hw.zero m i = x i) :
    ∃ m', forSamples (EngineState.chainAt hw C) n (E.withBuffers V m) = (E.chainOver C x n).withBuffers V m' ∧
      Mem.wf hw.zero len m' = true ∧
      ∀ i, Mem.read hw.zero m' i = if i < n then E.chainWord C x i else Mem.read hw.zero m i := by
  induction n with
  | zero => exact ⟨m, rfl, hm, fun i => rfl⟩
  | succ n ih =>
    obtain ⟨m', hE, hm', hread⟩ := ih (Nat.le_of_succ_le hn) fun i hi => hx i (Nat.lt_succ_of_lt hi)
    have hxn : Mem.read hw.zero m' n = x n := by simpa [hread] using hx n n.lt_succ_self
    refine ⟨Mem.write hw.zero m' n (E.chainWord C x n), ?_, Mem.wf_write hm' hn _, fun i => ?_⟩
    · rw [forSamples_succ, hE, chainAt_withBuffers, hxn]
      rfl
    · rcases eq_or_ne i n with rfl | hi
      · simp [Mem.read_write_same hm']
      · have hlt : i < n + 1 ↔ i < n := by omega
        rw [Mem.read_write_other hi, hread]
        simp only [hlt]

/-! ### The voices -/

/-- A voice after `n` samples is the same over every buffer: no voice reads it. -/
theorem voice_process_fst {α : Type} [DecidableEq α] {N : Numerics α} {C : Config} (P : VoiceParams α) (n : Nat)
    (v : VoiceState α) (buf buf' : Mem α) : (v.process N C P n buf).1 = (v.process N C P n buf').1 := by
  cases h : v.isActive with
  | false => rw [VoiceState.process_silent P n h, VoiceState.process_silent P n h]
  | true =>
    induction n with
    | zero => rw [VoiceState.process_sounding P 0 h, VoiceState.process_sounding P 0 h]; rfl
    | succ n ih =>
      rw [voice_process_succ P h, voice_process_succ P h]
      exact congrArg (fun u : VoiceState α => (u.tick N C P).1) ih

/-- A voice before sample `i` of its block: whether it sounds at the block's start, and its state then. -/
def VoiceState.beforeSample (C : Config) (P : VoiceParams Word) (i : Nat) (v : VoiceState Word) :
    Bool × VoiceState Word :=
  (v.isActive, (v.process hw C P i []).1)

section Voices

variable {C : Config} (P : VoiceParams Word)

/-- A sounding voice adds the term of its sample `i` to the word `i`. -/
theorem voice_process_read {v : VoiceState Word} (h : v.isActive = true) {buf : Mem Word} {len : Nat}
    (hb : Mem.wf hw.zero len buf = true) {i n : Nat} (hi : i < n) (hn : n ≤ len) :
    Mem.read hw.zero (v.process hw C P n buf).2 i =
      F32.add (Mem.read hw.zero buf i) ((v.process hw C P i []).1.tick hw C P).2 := by
  induction n with
  | zero => exact absurd hi (Nat.not_lt_zero i)
  | succ n ih =>
    rw [voice_process_succ P h]
    rcases Nat.lt_succ_iff_lt_or_eq.1 hi with hlt | rfl
    · rw [VoiceState.sample_read_other P hlt.ne, ih hlt (Nat.le_of_succ_le hn)]
    · rw [VoiceState.sample, Mem.read_write_same (VoiceState.process_wf P (Nat.le_of_succ_le hn) v hb),
        VoiceState.process_read_above P le_rfl, voice_process_fst P i v buf []]
      rfl

theorem beforeSample_zero (v : VoiceState Word) : v.beforeSample C P 0 = Spec.startVoice C v := by
  cases h : v.isActive with
  | false =>
    rw [VoiceState.beforeSample, VoiceState.process_silent P 0 h, h, Spec.startVoice,
      if_neg ((isActive_eq_false_iff v).1 h)]
  | true =>
    rw [VoiceState.beforeSample, VoiceState.process_sounding P 0 h, h, Spec.startVoice, if_pos ((isActive_iff v).1 h)]
    rfl

theorem beforeSample_succ (v : VoiceState Word) (i : Nat) : v.beforeSample C P (i + 1) =
    (v.isActive, if v.isActive then ((v.process hw C P i []).1.tick hw C P).1 else (v.process hw C P i []).1) := by
  cases h : v.isActive with
  | false => rw [VoiceState.beforeSample, VoiceState.process_silent P _ h, VoiceState.process_silent P _ h, h]; rfl
  | true => rw [VoiceState.beforeSample, voice_process_succ P h, h]; rfl

theorem streamVoices_voices (i : Nat) : ∀ (vs : List (VoiceState Word)) (sum : Word),
    (Spec.streamVoices C P (vs.map (VoiceState.beforeSample C P i)) sum).1 = vs.map (VoiceState.beforeSample C P (i + 1))
  | [], _ => rfl
  | v :: t, sum => by
    rw [List.map_cons, List.map_cons, beforeSample_succ, ← streamVoices_voices i t]
    rfl

/-- The terms the voices' blocks leave in word `i` are those of a streamed sample. -/
theorem runVoices_read {len n i : Nat} (hi : i < n) (hn : n ≤ len) : ∀ (vs : List (VoiceState Word)) (buf : Mem Word),
    Mem.wf hw.zero len buf = true → Mem.read hw.zero (runVoices hw C P n vs buf).2 i =
      (Spec.streamVoices C P (vs.map (VoiceState.beforeSample C P i)) (Mem.read hw.zero buf i)).2
  | [], _, _ => rfl
  | v :: t, buf, hb => by
    have hv : Mem.read hw.zero (v.process hw C P n buf).2 i =
        if v.isActive then F32.add (Mem.read hw.zero buf i) ((v.process hw C P i []).1.tick hw C P).2
        else Mem.read hw.zero buf i := by
      cases h : v.isActive with
      | false => rw [VoiceState.process_silent P n h]; rfl
      | true => exact voice_process_read P h hb hi hn
    rw [runVoices, runVoices_read hi hn t _ (VoiceState.process_wf P hn v hb), hv]
    rfl

theorem runVoices_voices (n : Nat) : ∀ (vs : List (VoiceState Word)) (buf : Mem Word),
    (runVoices hw C P n vs buf).1 = (vs.map (VoiceState.beforeSample C P n)).map Prod.snd
  | [], _ => rfl
  | v :: t, buf => by
    rw [runVoices, runVoices_voices n t, voice_process_fst P n v buf []]
    rfl

end Voices

/-! ### A block -/

/-- The sum of the voices' terms at sample `i` of a block. -/
def EngineState.voiceSum (C : Config) (E : EngineState Word) (i : Nat) : Word :=
  (Spec.streamVoices C E.prm (E.voices.map (VoiceState.beforeSample C E.prm i)) 0#32).2

/-- The streamed samples from sample `k` on. -/
theorem stream_from (C : Config) (E : EngineState Word) : ∀ n k : Nat,
    Spec.stream C n (E.voices.map (VoiceState.beforeSample C E.prm k)) (E.chainOver C (E.voiceSum C) k) =
      (E.voices.map (VoiceState.beforeSample C E.prm (k + n)), E.chainOver C (E.voiceSum C) (k + n),
        (List.range' k n).map (E.chainWord C (E.voiceSum C)))
  | 0, _ => rfl
  | n + 1, k => by
    have hrest := stream_from C E n (k + 1)
    rw [Nat.add_right_comm, chainOver_succ, EngineState.voiceSum] at hrest
    rw [Spec.stream, chainOver_prm, streamVoices_voices, hrest]
    rfl

/-- A block in the streaming order. -/
theorem stream_eq (C : Config) (E : EngineState Word) (n : Nat) :
    Spec.stream C n (E.voices.map (Spec.startVoice C)) E =
      (E.voices.map (VoiceState.beforeSample C E.prm n), E.chainOver C (E.voiceSum C) n,
        (List.range n).map (E.chainWord C (E.voiceSum C))) := by
  have h := stream_from C E n 0
  rw [Nat.zero_add, ← List.range_eq_range'] at h
  rw [← h, funext (beforeSample_zero (C := C) E.prm)]
  rfl

/-- A block in the buffered order. -/
theorem engine_process_eq {C : Config} {E : EngineState Word} {n : Nat} (hn : n ≤ C.blockMax)
    (hscr : Mem.wf hw.zero C.blockMax E.scr = true) :
    ∃ m, E.process hw C n = (E.chainOver C (E.voiceSum C) n).withBuffers
        ((E.voices.map (VoiceState.beforeSample C E.prm n)).map Prod.snd) m ∧
      ∀ i < n, Mem.read hw.zero m i = E.chainWord C (E.voiceSum C) i := by
  have hzero := Mem.wf_zeroBelow hscr n hn
  have hsum : ∀ i < n, Mem.read hw.zero (runVoices hw C E.prm n E.voices (Mem.zeroBelow hw.zero n E.scr)).2 i =
      E.voiceSum C i := by
    intro i hi
    rw [runVoices_read E.prm hi hn E.voices _ hzero, Mem.read_zeroBelow hscr n hn, if_pos hi, hw_zero]
    rfl
  obtain ⟨m, hE, -, hread⟩ := forSamples_chainAt C E ((E.voices.map (VoiceState.beforeSample C E.prm n)).map Prod.snd)
    (runVoices_wf (N := hw) (C := C) E.prm hn E.voices _ hzero) hn hsum
  refine ⟨m, ?_, fun i hi => (hread i).trans (if_pos hi)⟩
  rw [← hE, ← runVoices_voices E.prm n E.voices (Mem.zeroBelow hw.zero n E.scr)]
  rfl

/-- The buffered order gives the streamed engine and words. -/
theorem engine_process_eq_stream {C : Config} {E : EngineState Word} {n : Nat} (hn : n ≤ C.blockMax)
    (hscr : Mem.wf hw.zero C.blockMax E.scr = true) :
    E.process hw C n = { (Spec.stream C n (E.voices.map (Spec.startVoice C)) E).2.1 with
      voices := (Spec.stream C n (E.voices.map (Spec.startVoice C)) E).1.map Prod.snd
      scr := (E.process hw C n).scr } ∧
    (Spec.stream C n (E.voices.map (Spec.startVoice C)) E).2.2 =
      (List.range n).map (Mem.read hw.zero (E.process hw C n).scr) := by
  obtain ⟨m, hE, hread⟩ := engine_process_eq hn hscr
  rw [stream_eq, hE]
  exact ⟨rfl, List.map_congr_left fun i hi => (hread i (List.mem_range.1 hi)).symm⟩

/-- The streamed words are the words of the scratch buffer. -/
theorem stream_word_iff {C : Config} {E : EngineState Word} {n : Nat} (hn : n ≤ C.blockMax)
    (hscr : Mem.wf hw.zero C.blockMax E.scr = true) {i : Nat} {w : Word} :
    (Spec.stream C n (E.voices.map (Spec.startVoice C)) E).2.2[i]? = some w ↔
      i < n ∧ Mem.read hw.zero (E.process hw C n).scr i = w := by
  rw [(engine_process_eq_stream hn hscr).2]
  simp [List.getElem?_eq_some_iff]

/-! ### PROCESS -/

theorem blockSamples_getElem? (s : State) {n i : Nat} (hi : i < n) : (s.blockSamples hw n)[i]? =
    some ⟨hw.toBits32 (s.mixerSample hw i), decide (i + 1 = n)⟩ := by
  rw [State.blockSamples, List.getElem?_map, List.getElem?_range hi]
  rfl

/-- Sample `i` of a block mixes the words `i` of the two engines' scratch buffers. -/
theorem mixerSample_runEngines (s : State) (len i : Nat) : (s.runEngines len).mixerSample hw i =
    mix hw (Mem.read hw.zero ((s.engine .timeline).process hw s.cfg len).scr i)
      (Mem.read hw.zero ((s.engine .live).process hw s.cfg len).scr i) s.volTimeline s.volLive s.masterVol := rfl

end Sys2Proof.Machine

namespace Sys2Proof.Proofs

open Sys2Proof.Machine

/-- Settles O40: by samples, the voices' blocks sum what the stream sums, and the chain in place gives what it returns. -/
theorem streamingEquivalence : Obligations.StreamingEquivalence := by
  refine ⟨fun C E n hn hscr => ?_, fun n s hs => ⟨_, exec_process n s, ?_⟩⟩
  · rw [← hw_zero] at hscr ⊢
    exact ⟨(engine_process_eq_stream hn hscr).1, fun i hi => (stream_word_iff hn hscr).2 ⟨hi, rfl⟩⟩
  · rw [State.afterProcess_outPort, ← blockLength_eq]
    have hlen := blockLength_le s.cfg n
    obtain ⟨hfits, -⟩ := state_wf_iff.1 hs
    refine ⟨by simp [State.blockSamples], fun i x y hx hy => ?_⟩
    obtain ⟨hi, ht⟩ := (stream_word_iff hlen (hfits .timeline).scr).1 hx
    obtain ⟨-, hl⟩ := (stream_word_iff hlen (hfits .live).scr).1 hy
    rw [List.getElem?_append_right (Nat.le_add_right _ _), Nat.add_sub_cancel_left, blockSamples_getElem? _ hi,
      mixerSample_runEngines, ht, hl]
    rfl

end Sys2Proof.Proofs

/-! ## The opcode map and the reserved words (spec/30_encoding.md R80, R81, R84, R86, R87, R90) -/

namespace Sys2Proof

open Spec (Row Format opcodeMap)

/-! ### The fields of a masked word -/

theorem bitE_fieldE (w : CmdWord) : bitE (fieldE w) = w.extractLsb' 55 1 := by
  ext i hi
  obtain rfl : i = 0 := by omega
  rw [BitVec.getElem_extractLsb', fieldE]
  cases w.getLsbD 55 <;> simp [bitE]

/-- A word is its fields joined. -/
theorem append_fields (w : CmdWord) : fieldOP w ++ bitE (fieldE w) ++ fieldRSV w ++ fieldA w ++ fieldF w = w := by
  have hjoin : ∀ i n m, w.extractLsb' (i + m) n ++ w.extractLsb' i m = w.extractLsb' i (n + m) := fun _ _ _ =>
    BitVec.extractLsb'_append_extractLsb'_eq_extractLsb' rfl
  rw [bitE_fieldE, fieldOP, fieldRSV, fieldA, fieldF, hjoin 55 8 1, hjoin 48 9 7, hjoin 32 16 16, hjoin 0 32 32]
  exact BitVec.extractLsb'_eq_self

theorem eq_of_fields {v w : CmdWord} (hop : fieldOP v = fieldOP w) (he : fieldE v = fieldE w)
    (hrsv : fieldRSV v = fieldRSV w) (ha : fieldA v = fieldA w) (hf : fieldF v = fieldF w) : v = w := by
  rw [← append_fields v, ← append_fields w, hop, he, hrsv, ha, hf]

theorem fieldRSV_packWord (op : BitVec 8) (e : EngineSel) (a : BitVec 16) (f : BitVec 32) :
    fieldRSV (packWord op e a f) = 0#7 :=
  (BitVec.extractLsb'_append_eq_of_le (Nat.le_add_left 32 16)).trans
    ((BitVec.extractLsb'_append_eq_of_le le_rfl).trans BitVec.extractLsb'_append_eq_right)

theorem fieldOP_and (v w : CmdWord) : fieldOP (v &&& w) = fieldOP v &&& fieldOP w := BitVec.extractLsb'_and

theorem fieldRSV_and (v w : CmdWord) : fieldRSV (v &&& w) = fieldRSV v &&& fieldRSV w := BitVec.extractLsb'_and

theorem fieldA_and (v w : CmdWord) : fieldA (v &&& w) = fieldA v &&& fieldA w := BitVec.extractLsb'_and

theorem fieldF_and (v w : CmdWord) : fieldF (v &&& w) = fieldF v &&& fieldF w := BitVec.extractLsb'_and

theorem fieldE_and (v w : CmdWord) : fieldE (v &&& w) = if fieldE w = .timeline then fieldE v else .live := by
  simp only [fieldE, BitVec.getLsbD_and]
  by_cases hw : w.getLsbD 55 = true <;>
    simp only [hw, Bool.and_true, Bool.and_false, Bool.false_eq_true, reduceCtorEq, if_true, if_false]

/-- A mask that clears `RSV` keeps of every other field what its own field keeps. -/
theorem and_packWord (w : CmdWord) (op : BitVec 8) (e : EngineSel) (a : BitVec 16) (f : BitVec 32) :
    w &&& packWord op e a f =
      packWord (fieldOP w &&& op) (if e = .timeline then fieldE w else .live) (fieldA w &&& a) (fieldF w &&& f) := by
  apply eq_of_fields
  case hop => rw [fieldOP_and, Laws.fieldOP_packWord, Laws.fieldOP_packWord]
  case he => rw [fieldE_and, fieldE_packWord, fieldE_packWord]
  case hrsv =>
    rw [fieldRSV_and, fieldRSV_packWord, fieldRSV_packWord]
    exact BitVec.and_zero
  case ha => rw [fieldA_and, fieldA_packWord, fieldA_packWord]
  case hf => rw [fieldF_and, fieldF_packWord, fieldF_packWord]

theorem packWord_op_eq_ofNat (op : BitVec 8) : packWord op .live 0#16 0#32 = BitVec.ofNat 64 (op.toNat * 2 ^ 56) := by
  apply BitVec.eq_of_toNat_eq
  change ((((op.toNat <<< 1 ||| 0) <<< 7 ||| 0) <<< 16 ||| 0) <<< 32 ||| 0) = _
  simp only [Nat.or_zero, Nat.shiftLeft_eq, BitVec.toNat_ofNat]
  omega

/-! ### A row's word -/

/-- The word with opcode `op` and, of `w`, the fields the format reads; its other fields zero (R81). -/
def readFields (op : BitVec 8) (w : CmdWord) : Format → CmdWord
  | .Z => packWord op .live 0#16 0#32
  | .N => packWord op .live 0#16 (fieldF w)
  | .G => packWord op .live 0#16 (fieldF w)
  | .E0 => packWord op (fieldE w) 0#16 0#32
  | .EA => packWord op (fieldE w) (fieldA w) 0#32
  | .EF => packWord op (fieldE w) 0#16 (fieldF w)
  | .EAF => packWord op (fieldE w) (fieldA w) (fieldF w)

theorem fieldOP_readFields (op : BitVec 8) (w : CmdWord) (fmt : Format) : fieldOP (readFields op w fmt) = op := by
  cases fmt <;> exact Laws.fieldOP_packWord ..

theorem readBits_eq_readFields (fmt : Format) :
    fmt.readBits = readFields (BitVec.allOnes 8) (BitVec.allOnes 64) fmt := by
  cases fmt <;> decide

theorem and_readBits (w : CmdWord) (fmt : Format) : w &&& fmt.readBits = readFields (fieldOP w) w fmt := by
  have he : fieldE (BitVec.allOnes 64) = .timeline := by decide
  have ha : fieldA (BitVec.allOnes 64) = BitVec.allOnes 16 := by decide
  have hf : fieldF (BitVec.allOnes 64) = BitVec.allOnes 32 := by decide
  rw [readBits_eq_readFields]
  cases fmt <;>
    simp only [readFields, and_packWord, he, ha, hf, BitVec.and_allOnes, BitVec.and_zero, reduceCtorEq, if_true, if_false]

/-! ### What the decoder reads -/

/-- A command comes from a word with its opcode, and STOP_ALL_NOTES from one with `E` set. -/
theorem wf_and_fieldOP_of_decode {w : CmdWord} {i : Instr} (h : decode w = .command i) :
    i.wf = true ∧ fieldOP (encode i) = fieldOP w := by
  unfold decode at h
  split at h
  case h_9 hop =>
    split at h <;> cases h
    exact ⟨rfl, (Laws.fieldOP_packWord ..).trans (BitVec.eq_of_toNat_eq hop.symm)⟩
  case h_40 => cases h
  all_goals
    rename_i hop
    cases h
    exact ⟨rfl, (Laws.fieldOP_packWord ..).trans (BitVec.eq_of_toNat_eq hop.symm)⟩

/-- A row agrees with the decoder on which words are its command's, and with the encoder on what its format reads. -/
structure RowAgrees (r : Row) : Prop where
  decode_iff : ∀ w : CmdWord, w &&& r.mask = r.pattern ↔ decode w = .command (r.instr w)
  encode_eq : ∀ w : CmdWord, w &&& r.mask = r.pattern → encode (r.instr w) = w &&& r.format.readBits

theorem selects_row_iff {op : Nat} (hop : op < 2 ^ 8) (fmt : Format) (mk : CmdWord → Instr) (w : CmdWord) :
    w &&& (Spec.row op fmt mk).mask = (Spec.row op fmt mk).pattern ↔ (fieldOP w).toNat = op := by
  have hmask : w &&& (Spec.row op fmt mk).mask = BitVec.ofNat 64 ((fieldOP w).toNat * 2 ^ 56) :=
    (and_readBits w .Z).trans (packWord_op_eq_ofNat _)
  rw [hmask, Spec.row, ← BitVec.toNat_inj, BitVec.toNat_ofNat, BitVec.toNat_ofNat]
  omega

theorem rowAgrees_row {op : Nat} (hop : op < 2 ^ 8) {fmt : Format} {mk : CmdWord → Instr}
    (hdec : ∀ w, (fieldOP w).toNat = op → decode w = .command (mk w))
    (henc : ∀ w, encode (mk w) = readFields (BitVec.ofNat 8 op) w fmt) : RowAgrees (Spec.row op fmt mk) where
  decode_iff w := by
    rw [selects_row_iff hop]
    refine ⟨hdec w, fun h => ?_⟩
    rw [← (wf_and_fieldOP_of_decode h).2, Spec.row, henc, fieldOP_readFields, BitVec.toNat_ofNat, Nat.mod_eq_of_lt hop]
  encode_eq w h := by
    rw [selects_row_iff hop] at h
    have hfield : BitVec.ofNat 8 op = fieldOP w := by rw [← h, BitVec.ofNat_toNat, BitVec.setWidth_eq]
    rw [and_readBits, ← hfield]
    exact henc w

/-- The one row with a bit of `E` in its pattern: STOP_ALL_NOTES, for the timeline engine only. -/
theorem rowAgrees_stopAllNotes :
    RowAgrees ⟨0x1280000000000000#64, 0xFF80000000000000#64, .E0, fun _ => .stopAllNotes .timeline⟩ := by
  have hsel : ∀ w : CmdWord, w &&& 0xFF80000000000000#64 = 0x1280000000000000#64 ↔
      fieldOP w = 0x12#8 ∧ fieldE w = .timeline := by
    intro w
    have hmask : w &&& 0xFF80000000000000#64 = packWord (fieldOP w) (fieldE w) 0#16 0#32 := and_readBits w .E0
    have hpat : 0x1280000000000000#64 = packWord 0x12#8 .timeline 0#16 0#32 := by decide
    rw [hmask, hpat]
    exact ⟨fun h => ⟨by simpa [Laws.fieldOP_packWord] using congrArg fieldOP h, by simpa using congrArg fieldE h⟩,
      fun ⟨hop, he⟩ => by rw [hop, he]⟩
  constructor <;> simp only [hsel]
  case decode_iff =>
    refine fun w => ⟨fun ⟨hop, he⟩ => by rw [decode, hop, he]; rfl, fun h => ?_⟩
    have hop : fieldOP w = 0x12#8 := (wf_and_fieldOP_of_decode h).2.symm
    refine ⟨hop, by_contra fun he => ?_⟩
    rw [decode, hop] at h
    cases (if_neg he).symm.trans h
  case encode_eq =>
    rintro w ⟨hop, he⟩
    rw [and_readBits, readFields, hop, he]
    rfl

/-- Every row of R84's table; all but STOP_ALL_NOTES are selected by the opcode alone. -/
theorem rowAgrees_of_mem : ∀ r ∈ opcodeMap, RowAgrees r := by
  simp only [opcodeMap, Spec.rowsSystem, Spec.rowsNotes, Spec.rowsVoice, Spec.rowsFilter, Spec.rowsEffects,
    List.forall_mem_append, List.forall_mem_cons, List.not_mem_nil, false_imp_iff, implies_true,
    rowAgrees_stopAllNotes, and_true]
  and_intros
  all_goals exact rowAgrees_row (by decide) (fun w h => by rw [decode, h]; rfl) fun _ => rfl

/-! ### Disjoint rows, and the words of no row -/

/-- A word that selects a row has the opcode of the row's pattern. -/
theorem fieldOP_of_selects {r : Row} (hr : r ∈ opcodeMap) {w : CmdWord} (h : w &&& r.mask = r.pattern) :
    fieldOP w = fieldOP r.pattern := by
  have hmask : ∀ r ∈ opcodeMap, fieldOP r.mask = BitVec.allOnes 8 := by decide
  rw [← h, fieldOP_and, hmask r hr, BitVec.and_allOnes]

theorem opcodeMap_pairwise_fieldOP : opcodeMap.Pairwise fun r r' => fieldOP r.pattern ≠ fieldOP r'.pattern := by
  decide

/-- R86: a word whose opcode no row has is reserved, and so is STOP_ALL_NOTES with `E` clear. -/
theorem reserved_of_decode {w : CmdWord} (h : ∀ i, decode w ≠ .command i) : Spec.Reserved w := by
  have hop : Spec.OP w = (fieldOP w).toNat := rfl
  have he : Spec.E w = fieldE w := rfl
  rw [Spec.Reserved, hop, he]
  unfold decode at h
  split at h
  case h_9 hstop =>
    have hE : fieldE w = .live := by
      cases hE : fieldE w with
      | live => rfl
      | timeline => exact absurd (if_pos hE) (h _)
    simp [hstop, hE]
  case h_40 =>
    simp only [imp_false] at *
    omega
  all_goals exact absurd rfl (h _)

/-- No reserved word has the opcode of NOP, the command it is executed as. -/
theorem decode_ne_command_of_reserved {w : CmdWord} (h : Spec.Reserved w) (i : Instr) : decode w ≠ .command i := by
  intro hd
  obtain rfl : i = .nop := by simpa [hd, Decoded.executedAs] using Proofs.executedAs_of_reserved h
  have hop : Spec.OP w = 0 := congrArg BitVec.toNat (wf_and_fieldOP_of_decode hd).2.symm
  rw [Spec.Reserved, hop] at h
  omega

end Sys2Proof

namespace Sys2Proof.Proofs

open Sys2Proof.Machine

/-- Settles O1: a word that selects a row is the command of the row's fields, and that command's word holds them alone. -/
theorem decodeEncode : Obligations.DecodeEncode := by
  refine fun i hi => ⟨decode_encode hi, fun r hr hsel => ?_⟩
  obtain ⟨hdec, henc⟩ := rowAgrees_of_mem r hr
  have hinstr : r.instr (encode i) = i :=
    (Decoded.command.inj ((decode_encode hi).symm.trans ((hdec _).1 hsel))).symm
  have hword : encode i = encode i &&& r.format.readBits := by simpa only [hinstr] using henc _ hsel
  rw [hword, BitVec.and_assoc, BitVec.and_not_self]
  exact BitVec.and_zero

/-- Settles O3: each row agrees with the decoder, and no two rows have one opcode. -/
theorem opcodeMap : Obligations.OpcodeMap := by
  refine ⟨rfl, fun r hr => (rowAgrees_of_mem r hr).decode_iff, ?_⟩
  refine opcodeMap_pairwise_fieldOP.imp_of_mem fun hr hr' hne w ⟨hsel, hsel'⟩ => hne ?_
  rw [← fieldOP_of_selects hr hsel, ← fieldOP_of_selects hr' hsel']

/-- Settles O4: the word with the unread bits cleared is the encoding of the command it decodes to. -/
theorem unreadBitsIgnored : Obligations.UnreadBitsIgnored := by
  intro r hr w hsel
  obtain ⟨hdec, henc⟩ := rowAgrees_of_mem r hr
  have hd : decode w = .command (r.instr w) := (hdec w).1 hsel
  have hclear : decode (w &&& r.format.readBits) = .command (r.instr w) := by
    rw [← henc w hsel, decode_encode (wf_and_fieldOP_of_decode hd).1]
  rw [hd, hclear]
  exact ⟨rfl, fun _ => rfl⟩

/-- Settles O5: the decoder's refusals are R86's list, and an accepted one is executed as NOP. -/
theorem reservedWords : Obligations.ReservedWords := by
  refine ⟨fun w => ⟨reserved_of_decode, decode_ne_command_of_reserved⟩, fun s w rest hs hw => ?_⟩
  rw [step_of_accepts hs, executedAs_of_reserved hw]
  rfl

/-- Settles O2: each command encodes to its word, which therefore decodes to it. -/
theorem workedEncodings : Obligations.WorkedEncodings := by
  intro p hp
  have henc : p.2.wf = true ∧ encode p.2 = p.1 := by
    revert p
    decide
  exact ⟨henc.2 ▸ decode_encode henc.1, henc.2⟩

end Sys2Proof.Proofs

/-! ## Setters of one engine's registers (spec/30_encoding.md R81 to R83) -/

namespace Sys2Proof.Machine

section Setters

variable {op : Nat}

/-- A command with an `E` field and a `Num` operand is a setter of what it does to its engine. Its opcode, its operands
and its effect are read off the decoder and `engineEffect`, so that a setter with its effect written as there needs no
proof of them. -/
theorem numSetter {mk : EngineSel → BitVec 32 → Instr} {eff : Config → Word → EngineState Word → EngineState Word}
    (hdec : ∀ w, (fieldOP w).toNat = op → decode w = .command (mk (fieldE w) (fieldF w)) := by
      intro w h; rw [decode, h]; rfl)
    (hengine : ∀ e f, Spec.engineOf (mk e f) = some e := by intros; rfl)
    (hnum : ∀ e f, Spec.numOperand (mk e f) = some f := by intros; rfl)
    (hvol : ∀ e f f', mk e f ≠ .setEngineVolume e f' := by nofun)
    (heff : ∀ C e f, engineEffect C (mk e f) = eff C f := by intros; rfl) :
    Spec.NumSetter op mk eff := by
  refine ⟨hdec, fun e f s => ?_⟩
  by_cases hf : Spec.IsNaN f
  · rw [if_pos hf]
    exact Proofs.exec_of_nan (hnum e f) ((F32.isNaN_iff f).2 hf) s
  · have hok : NumOperandOk (mk e f) := fun f' h => by
      cases (hnum e f).symm.trans h
      exact (F32.isNaN_eq_false_iff f).2 hf
    rw [if_neg hf, exec_updEngine (hengine e f) (hvol e f) hok, heff]

/-- The same of a command with an integer operand, which nothing discards. -/
theorem intSetter {mk : EngineSel → BitVec 16 → Instr} {eff : BitVec 16 → EngineState Word → EngineState Word}
    (hdec : ∀ w, (fieldOP w).toNat = op → decode w = .command (mk (fieldE w) (fieldA w)) := by
      intro w h; rw [decode, h]; rfl)
    (hengine : ∀ e a, Spec.engineOf (mk e a) = some e := by intros; rfl)
    (hnum : ∀ e a, Spec.numOperand (mk e a) = none := by intros; rfl)
    (hvol : ∀ e a f, mk e a ≠ .setEngineVolume e f := by nofun)
    (heff : ∀ C e a, engineEffect C (mk e a) = eff a := by intros; rfl) :
    Spec.IntSetter op mk eff := by
  refine ⟨hdec, fun e a s => ?_⟩
  have hok : NumOperandOk (mk e a) := fun f h => by cases (hnum e a).symm.trans h
  rw [exec_updEngine (hengine e a) (hvol e a) hok, heff]

end Setters

theorem clampTo_eq (hi : Dec) (x : Word) : Spec.clampTo hi x = hw.clamp x hw.zero (hw.ofDec hi) := by
  rw [hw_zero, Spec.clampTo]

theorem clampUnit_eq (x : Word) : Spec.clampUnit x = hw.clamp x hw.zero hw.one := by
  rw [hw_zero, hw_one, Spec.clampUnit]

/-- The clamped code is the end of `0..3` the operand lies beyond, or the operand. -/
theorem waveformOperand_eq (a : BitVec 16) : waveformOperand a = Spec.waveform a := by
  unfold waveformOperand Spec.waveform clampI
  rcases lt_or_ge a.toInt 0 with hlo | hlo
  · rw [if_pos hlo, if_pos hlo.le]
    rfl
  rcases lt_or_ge 3 a.toInt with hhi | hhi
  · rw [if_neg hlo.not_gt, if_pos hhi, if_neg (by omega), if_neg (by omega), if_neg (by omega)]
    rfl
  · rw [if_neg hlo.not_gt, if_neg hhi.not_gt]
    generalize a.toInt = n at hlo hhi
    interval_cases n <;> rfl

end Sys2Proof.Machine

namespace Sys2Proof.Proofs

open Sys2Proof.Machine

/-- Settles O19: each is a setter of one engine's register, through the clamp of its rule. -/
theorem voiceParameterCommands : Obligations.VoiceParameterCommands := by
  unfold Obligations.VoiceParameterCommands
  simp only [clampTo_eq, clampUnit_eq, ← waveformOperand_eq]
  exact ⟨intSetter, numSetter, numSetter, numSetter, numSetter, numSetter, numSetter, by decide, by decide, by decide⟩

end Sys2Proof.Proofs

/-! ## The oscillator in binary32 (spec/40_oscillator.md R101 to R103) -/

namespace Sys2Proof.Machine

/-- `1` is neutral, signed zeros included: the product's magnitude is the factor's own, and is rounded to itself. -/
theorem F32.mul_one_finite {w : Word} (h : F32.isFinite w = true) : F32.mul w 0x3F800000#32 = w := by
  have hmag : F32.mag 0x3F800000#32 = 2 ^ 149 := by decide
  have hsign : F32.sign 0x3F800000#32 = false := by decide
  have hround : F32.roundMag (F32.mag w * 2 ^ 149) (2 ^ 149) = F32.magBits w := by
    rw [F32.roundMag_eq, F32.mag_eq, F32.roundBits_magOf _ (by positivity)]
    exact Nat.min_eq_left (of_decide_eq_true h).le
  rw [F32.mul_finite h (by decide), hmag, hround, hsign, Bool.bne_false]
  exact F32.pack_eq rfl rfl

section Wave

variable (p : Word)

theorem wave_sine : wave hw .sine p = F32.sin2pi p := rfl

theorem wave_saw : wave hw .saw p = F32.sub (F32.mul 0x40000000#32 p) 0x3F800000#32 := by
  have h2 : hw.ofInt 2 = 0x40000000#32 := by decide
  rw [wave, h2, hw_one, hw_sub, hw_mul]

theorem wave_square : wave hw .square p = if F32.lt p 0x3F000000#32 then 0x3F800000#32 else 0xBF800000#32 := by
  have hneg : hw.ofInt (-1) = 0xBF800000#32 := by decide
  rw [wave, hneg, hw_one, hw_half, hw_lt]

theorem wave_triangle : wave hw .triangle p = if F32.lt p 0x3F000000#32
    then F32.sub (F32.mul 0x40800000#32 p) 0x3F800000#32 else F32.sub 0x40400000#32 (F32.mul 0x40800000#32 p) := by
  have h3 : hw.ofInt 3 = 0x40400000#32 := by decide
  have h4 : hw.ofInt 4 = 0x40800000#32 := by decide
  rw [wave, h3, h4, hw_one, hw_half, hw_lt, hw_sub, hw_mul]

end Wave

theorem feff_of_exp2 {P : VoiceParams Word} {ratio : Word} (o : OscState Word)
    (h : F32.exp2 (F32.div P.detune (F32.ofInt 1200)) = ratio) : o.feff hw P = F32.mul o.freq ratio :=
  congrArg (F32.mul o.freq) h

end Sys2Proof.Machine

namespace Sys2Proof.Proofs

open Sys2Proof.Machine Sys2Proof.Machine.F32

/-- Settles O42: the waveforms' constants are their data, and `exp2` is exact at the detunes 0, 1200 and -1200 cents. -/
theorem oscillatorStep : Obligations.OscillatorStep := by
  refine ⟨fun C P o => Prod.ext rfl ?_, fun P o ho => ⟨fun h => ?_, fun h => ?_, fun h => ?_⟩, fun c p => ?_,
    by decide, by decide, by decide, by decide, by decide, by decide, by decide, by decide⟩
  · rw [OscState.process]
    cases P.waveform
    exacts [rfl, wave_saw _, wave_square _, wave_triangle _]
  · rw [← isFinite_iff] at ho
    rw [feff_of_exp2 (ratio := 0x3F800000#32) o (by rw [h]; decide), mul_one_finite ho]
  · exact feff_of_exp2 o (by rw [h]; decide)
  · exact feff_of_exp2 o (by rw [h]; decide)
  · cases c
    exacts [rfl, wave_saw p, wave_square p, wave_triangle p]

end Sys2Proof.Proofs

/-! ## The envelope's events and its advance, stage by stage (spec/41_envelope.md R122 to R124) -/

namespace Sys2Proof.Machine

section AnyNumerics

variable {α : Type} {N : Numerics α} {C : Config} {P : VoiceParams α} {v : EnvState α}

@[simp] theorem EnvState.gateOn_level (v : EnvState α) : v.gateOn.level = v.level := rfl

@[simp] theorem EnvState.gateOff_level (v : EnvState α) : v.gateOff.level = v.level := rfl

@[simp] theorem EnvState.process_fst (v : EnvState α) : (v.process N C P).1 = v.advance N C P := rfl

@[simp] theorem EnvState.process_snd (v : EnvState α) : (v.process N C P).2 = (v.advance N C P).level := rfl

theorem EnvState.advance_idle (hs : v.stage = .idle) : v.advance N C P = ⟨.idle, N.zero⟩ := by
  simp only [EnvState.advance, hs]

theorem EnvState.advance_attack (hs : v.stage = .attack) :
    v.advance N C P =
      if N.le N.one (N.add v.level (envStep N C P.attack)) then ⟨.decay, N.one⟩
      else ⟨.attack, N.add v.level (envStep N C P.attack)⟩ := by
  simp only [EnvState.advance, hs]

theorem EnvState.advance_decay (hs : v.stage = .decay) :
    v.advance N C P =
      if N.le v.level P.sustain then ⟨.sustain, v.level⟩
      else if N.le (N.sub v.level (envStep N C P.decay)) P.sustain then ⟨.sustain, P.sustain⟩
      else ⟨.decay, N.sub v.level (envStep N C P.decay)⟩ := by
  simp only [EnvState.advance, hs]

theorem EnvState.advance_sustain (hs : v.stage = .sustain) : v.advance N C P = v := by
  simp only [EnvState.advance, hs]

theorem EnvState.advance_release (hs : v.stage = .release) :
    v.advance N C P =
      if N.le (N.sub v.level (envStep N C P.release)) N.zero then ⟨.idle, N.zero⟩
      else ⟨.release, N.sub v.level (envStep N C P.release)⟩ := by
  simp only [EnvState.advance, hs]

/-- Idle is entered, or stayed in, with the level 0 only. -/
theorem EnvState.level_advance_of_idle (h : (v.advance N C P).stage = .idle) : (v.advance N C P).level = N.zero := by
  cases hs : v.stage with
  | idle => rw [advance_idle hs]
  | attack =>
    rw [advance_attack hs] at h
    split at h <;> cases h
  | decay =>
    rw [advance_decay hs] at h
    split at h
    · cases h
    · split at h <;> cases h
  | sustain =>
    rw [advance_sustain hs, hs] at h
    cases h
  | release =>
    rw [advance_release hs] at h ⊢
    split at h
    · next hle => rw [if_pos hle]
    · cases h

end AnyNumerics

/-- R121's step in binary32. -/
theorem envStep_hw (C : Config) (T : Word) :
    envStep hw C T = F32.div 0x3F800000#32 (hw.max 0x3F800000#32 (F32.mul T (F32.ofInt C.fs))) := by
  rw [envStep, hw_one, hw_div, hw_mul, hw_ofInt]

end Sys2Proof.Machine

namespace Sys2Proof.Proofs

open Sys2Proof.Machine

/-- Settles O44: each clause is its stage's equation, on one side of its test. -/
theorem envelopeTransitions : Obligations.EnvelopeTransitions := by
  intro C P v
  simp only [EnvState.process_fst, EnvState.process_snd, ← envStep_hw]
  refine ⟨rfl, rfl, trivial, fun hs => ?idle, fun hs h => ?attackEnds, fun hs h => ?attack,
    fun hs h => ?decayBelow, fun hs h h' => ?decayEnds, fun hs h h' => ?decay,
    fun hs => EnvState.advance_sustain hs, fun hs h => ?releaseEnds, fun hs h => ?release⟩
  case idle => rw [EnvState.advance_idle hs, hw_zero]
  case attackEnds => rw [EnvState.advance_attack hs, hw_one, hw_le, hw_add, if_pos h]
  case attack => rw [EnvState.advance_attack hs, hw_one, hw_le, hw_add, h, if_neg Bool.false_ne_true]
  case decayBelow => rw [EnvState.advance_decay hs, hw_le, if_pos h]
  case decayEnds =>
    rw [EnvState.advance_decay hs, hw_le, hw_sub, h, if_neg Bool.false_ne_true, if_pos h']
  case decay =>
    rw [EnvState.advance_decay hs, hw_le, hw_sub, h, h', if_neg Bool.false_ne_true, if_neg Bool.false_ne_true]
  case releaseEnds => rw [EnvState.advance_release hs, hw_zero, hw_le, hw_sub, if_pos h]
  case release => rw [EnvState.advance_release hs, hw_zero, hw_le, hw_sub, h, if_neg Bool.false_ne_true]

end Sys2Proof.Proofs

/-! ## The envelope over the reals (spec/41_envelope.md R127) -/

namespace Sys2Proof.Machine

@[simp] theorem reference_zero : reference.zero = 0 := Int.cast_zero

@[simp] theorem reference_one : reference.one = 1 := Int.cast_one

@[simp] theorem reference_add (a b : ℝ) : reference.add a b = a + b := rfl

@[simp] theorem reference_sub (a b : ℝ) : reference.sub a b = a - b := rfl

@[simp] theorem reference_le (a b : ℝ) : reference.le a b = true ↔ a ≤ b := decide_eq_true_iff

@[simp] theorem reference_max (a b : ℝ) : reference.max a b = max a b := by
  rw [Numerics.max, max_def']
  simp only [reference_le]

section EnvelopeReference

variable {C : Config} {P : VoiceParams ℝ} {v : EnvState ℝ}

theorem envStep_reference (C : Config) (T : ℝ) : envStep reference C T = 1 / max 1 (T * C.fs) := by
  rw [envStep, reference_max, reference_one]
  rfl

theorem envStep_reference_nonneg (C : Config) (T : ℝ) : 0 ≤ envStep reference C T := by
  rw [envStep_reference]
  exact one_div_nonneg.2 (zero_le_one.trans (le_max_left _ _))

theorem EnvState.level_advance_attack (hs : v.stage = .attack) :
    (v.advance reference C P).level = min 1 (v.level + envStep reference C P.attack) := by
  rw [EnvState.advance_attack hs, min_def, apply_ite EnvState.level]
  simp only [reference_le, reference_one, reference_add]

theorem EnvState.level_advance_decay (hs : v.stage = .decay) :
    (v.advance reference C P).level =
      if v.level ≤ P.sustain then v.level else max P.sustain (v.level - envStep reference C P.decay) := by
  rw [EnvState.advance_decay hs, max_def', apply_ite EnvState.level, apply_ite EnvState.level]
  simp only [reference_le, reference_sub]

theorem EnvState.level_advance_release (hs : v.stage = .release) :
    (v.advance reference C P).level = max 0 (v.level - envStep reference C P.release) := by
  rw [EnvState.advance_release hs, max_def', apply_ite EnvState.level]
  simp only [reference_le, reference_zero, reference_sub]

/-- Attack raises the level by at most its step, to at most 1. -/
theorem EnvState.attack_bounds (hs : v.stage = .attack) (h1 : v.level ≤ 1) :
    v.level ≤ (v.advance reference C P).level ∧ (v.advance reference C P).level ≤ 1 ∧
      (v.advance reference C P).level - v.level ≤ envStep reference C P.attack := by
  rw [EnvState.level_advance_attack hs]
  exact ⟨le_min h1 (le_add_of_nonneg_right (envStep_reference_nonneg _ _)), min_le_left _ _,
    sub_le_iff_le_add'.2 (min_le_right _ _)⟩

/-- Decay lowers the level by at most its step, not below the sustain level unless it starts there. -/
theorem EnvState.decay_bounds (hs : v.stage = .decay) :
    min v.level P.sustain ≤ (v.advance reference C P).level ∧ (v.advance reference C P).level ≤ v.level ∧
      v.level - (v.advance reference C P).level ≤ envStep reference C P.decay := by
  have hstep := envStep_reference_nonneg C P.decay
  rw [EnvState.level_advance_decay hs]
  split
  · exact ⟨min_le_left _ _, le_rfl, by rwa [sub_self]⟩
  · next h =>
    exact ⟨(min_le_right _ _).trans (le_max_left _ _), max_le (not_le.1 h).le (sub_le_self _ hstep),
      sub_le_comm.1 (le_max_right _ _)⟩

/-- Release lowers the level by at most its step, not below 0. -/
theorem EnvState.release_bounds (hs : v.stage = .release) (h0 : 0 ≤ v.level) :
    0 ≤ (v.advance reference C P).level ∧ (v.advance reference C P).level ≤ v.level ∧
      v.level - (v.advance reference C P).level ≤ envStep reference C P.release := by
  rw [EnvState.level_advance_release hs]
  exact ⟨le_max_left _ _, max_le h0 (sub_le_self _ (envStep_reference_nonneg _ _)),
    sub_le_comm.1 (le_max_right _ _)⟩

/-- Every stage keeps the level in `[0, 1]`. -/
theorem EnvState.level_advance_mem_unit (hS0 : 0 ≤ P.sustain) (h0 : 0 ≤ v.level) (h1 : v.level ≤ 1) :
    0 ≤ (v.advance reference C P).level ∧ (v.advance reference C P).level ≤ 1 := by
  cases hs : v.stage with
  | idle =>
    rw [EnvState.advance_idle hs, reference_zero]
    exact ⟨le_rfl, zero_le_one⟩
  | attack =>
    obtain ⟨hge, hle, -⟩ := EnvState.attack_bounds (C := C) (P := P) hs h1
    exact ⟨h0.trans hge, hle⟩
  | decay =>
    obtain ⟨hge, hle, -⟩ := EnvState.decay_bounds (C := C) (P := P) hs
    exact ⟨(le_min h0 hS0).trans hge, hle.trans h1⟩
  | sustain =>
    rw [EnvState.advance_sustain hs]
    exact ⟨h0, h1⟩
  | release =>
    obtain ⟨hge, hle, -⟩ := EnvState.release_bounds (C := C) (P := P) hs h0
    exact ⟨hge, hle.trans h1⟩

end EnvelopeReference

end Sys2Proof.Machine

namespace Sys2Proof.Proofs

open Sys2Proof.Machine

/-- Settles O45, from each stage's bounds. -/
theorem envelopeContinuous : Obligations.EnvelopeContinuous := by
  intro C P v hS0 _ h0 h1 hidle
  simp only [← envStep_reference]
  obtain ⟨hge, hle⟩ := EnvState.level_advance_mem_unit (C := C) hS0 h0 h1
  refine ⟨hge, hle, fun h => ?idle, fun hs => ?fromIdle, fun hs => ?attack, fun hs => (EnvState.decay_bounds hs).2,
    fun hs => ?sustain, fun hs => (EnvState.release_bounds hs h0).2, v.gateOn_level, v.gateOff_level⟩
  case idle => rw [EnvState.level_advance_of_idle h, reference_zero]
  case fromIdle => rw [EnvState.advance_idle hs, reference_zero, hidle hs]
  case attack =>
    obtain ⟨hmono, -, hstep⟩ := EnvState.attack_bounds (C := C) (P := P) hs h1
    exact ⟨hmono, hstep⟩
  case sustain => rw [EnvState.advance_sustain hs]

end Sys2Proof.Proofs

/-! ## One call of the glide, branch by branch (spec/42_glide.md R143) -/

namespace Sys2Proof.Machine

section GlideBranches

variable {α : Type} {N : Numerics α} {P : VoiceParams α} {g : GlideState α}

/-- R143's first test: the glide time or the step is 0. -/
def GlideState.Snaps (N : Numerics α) (P : VoiceParams α) (g : GlideState α) : Prop :=
  N.eq P.glideMs N.zero = true ∨ N.eq g.step N.zero = true

/-- R143's guard: a move that rounding absorbs goes to the target. -/
def GlideState.moveTo (N : Numerics α) (g : GlideState α) (n : α) : α := if N.eq n g.current then g.target else n

theorem GlideState.advance_snap (h : g.Snaps N P) : g.advance N P = { g with current := g.target } :=
  if_pos (Bool.or_eq_true_iff.2 h)

theorem GlideState.advance_up (h : ¬g.Snaps N P) (hlt : N.lt g.current g.target = true) :
    g.advance N P = { g with current := N.min (g.moveTo N (N.add g.current g.step)) g.target } := by
  rw [advance, if_neg (mt Bool.or_eq_true_iff.1 h), if_pos hlt]
  rfl

theorem GlideState.advance_down (h : ¬g.Snaps N P) (hup : ¬N.lt g.current g.target = true)
    (hlt : N.lt g.target g.current = true) :
    g.advance N P = { g with current := N.max (g.moveTo N (N.sub g.current g.step)) g.target } := by
  rw [advance, if_neg (mt Bool.or_eq_true_iff.1 h), if_neg hup, if_pos hlt]
  rfl

theorem GlideState.advance_stay (h : ¬g.Snaps N P) (hup : ¬N.lt g.current g.target = true)
    (hdown : ¬N.lt g.target g.current = true) : g.advance N P = g := by
  rw [advance, if_neg (mt Bool.or_eq_true_iff.1 h), if_neg hup, if_neg hdown]

end GlideBranches

end Sys2Proof.Machine

/-! ## The glide in binary32 (spec/42_glide.md R143, R145, R146) -/

namespace Sys2Proof.Machine.F32

variable {a b c d f n : Word}

theorem feq_false_of_flt (h : lt a b = true) : eq a b = false ∧ eq b a = false := by
  simp only [lt, Bool.and_eq_true, decide_eq_true_eq] at h
  simp only [eq, Bool.and_eq_false_iff, decide_eq_false_iff_not]
  exact ⟨Or.inr h.2.ne, Or.inr h.2.ne'⟩

/-- A call at `c` with the target `f` that leaves `d`: `d` lies between the two, and is `f` or has left `c`. -/
structure Approaches (c f d : Word) : Prop where
  rising  : le c f = true → le c d = true ∧ le d f = true
  falling : le f c = true → le f d = true ∧ le d c = true
  moves   : eq d f = true ∨ eq d c = false

theorem approaches_target (hf : isNaN f = false) : Approaches c f f where
  rising h := ⟨h, fle_refl hf⟩
  falling h := ⟨fle_refl hf, h⟩
  moves := Or.inl (feq_refl hf)

/-- Neither below nor above its target, a number is equal to it. -/
theorem approaches_self (hc : isNaN c = false) (hf : isNaN f = false) (hup : ¬lt c f = true) (hdown : ¬lt f c = true) :
    Approaches c f c where
  rising h := ⟨fle_refl hc, h⟩
  falling h := ⟨h, fle_refl hc⟩
  moves := Or.inl ((eq_iff hc hf).2 (le_antisymm ((le_iff hc hf).1 (fle_of_not_flt hf hc hdown))
    ((le_iff hf hc).1 (fle_of_not_flt hc hf hup))))

/-- A move up, cut at the target. -/
theorem approaches_min (hlt : lt c f = true) (hn : le c n = true) (hmove : eq n c = false) :
    Approaches c f (hw.min n f) := by
  rw [hw_min]
  split
  · next h => exact ⟨fun _ => ⟨hn, h⟩, fun h' => absurd hlt (not_flt_of_fle h'), Or.inr hmove⟩
  · exact approaches_target (not_isNaN_of_le (fle_of_flt hlt)).2

/-- A move down, cut at the target. -/
theorem approaches_max (hlt : lt f c = true) (hn : le n c = true) (hmove : eq n c = false) :
    Approaches c f (hw.max n f) := by
  rw [hw_max]
  split
  · next h => exact ⟨fun h' => absurd hlt (not_flt_of_fle h'), fun _ => ⟨h, hn⟩, Or.inr hmove⟩
  · exact approaches_target (not_isNaN_of_le (fle_of_flt hlt)).1

/-- Between two data that are not negative lies no negative one. -/
theorem Approaches.nonneg (h : Approaches c f d) (hc : le 0#32 c = true) (hf : le 0#32 f = true) :
    le 0#32 d = true := by
  by_cases hle : le c f = true
  · exact fle_trans hc (h.rising hle).1
  · have hfc : le f c = true := by
      rw [← flt_false_iff (not_isNaN_of_le hc).2 (not_isNaN_of_le hf).2, ← Bool.not_eq_true]
      exact mt fle_of_flt hle
    exact fle_trans hf (h.falling hfc).1

end Sys2Proof.Machine.F32

namespace Sys2Proof.Machine

open F32

section GlideWords

variable {P : VoiceParams Word} {g : GlideState Word}

/-- The guarded sum is not below the current frequency, and differs from it. -/
theorem GlideState.moveTo_add (hc : isFinite g.current = true) (hs : isFinite g.step = true) (h0 : 0 ≤ val g.step)
    (hlt : F32.lt g.current g.target = true) :
    F32.le g.current (g.moveTo hw (F32.add g.current g.step)) = true ∧
      F32.eq (g.moveTo hw (F32.add g.current g.step)) g.current = false := by
  rw [moveTo]
  split
  · exact ⟨fle_of_flt hlt, (feq_false_of_flt hlt).2⟩
  · next h => exact ⟨(rounds_add hc hs).ge_of (isNaN_of_finite hc) (le_add_of_nonneg_right h0), Bool.eq_false_iff.2 h⟩

/-- The guarded difference is not above it, and differs from it. -/
theorem GlideState.moveTo_sub (hc : isFinite g.current = true) (hs : isFinite g.step = true) (h0 : 0 ≤ val g.step)
    (hlt : F32.lt g.target g.current = true) :
    F32.le (g.moveTo hw (F32.sub g.current g.step)) g.current = true ∧
      F32.eq (g.moveTo hw (F32.sub g.current g.step)) g.current = false := by
  rw [moveTo]
  split
  · exact ⟨fle_of_flt hlt, (feq_false_of_flt hlt).1⟩
  · next h => exact ⟨(rounds_sub hc hs).le_of (isNaN_of_finite hc) (sub_le_self _ h0), Bool.eq_false_iff.2 h⟩

theorem GlideState.advance_approaches (hc : isFinite g.current = true) (ht : isFinite g.target = true)
    (hs : isFinite g.step = true) (h0 : 0 ≤ val g.step) :
    Approaches g.current g.target (g.advance hw P).current := by
  by_cases hsnap : g.Snaps hw P
  · rw [advance_snap hsnap]
    exact approaches_target (isNaN_of_finite ht)
  by_cases hup : F32.lt g.current g.target = true
  · rw [advance_up hsnap hup]
    obtain ⟨hle, hmove⟩ := moveTo_add hc hs h0 hup
    exact approaches_min hup hle hmove
  by_cases hdown : F32.lt g.target g.current = true
  · rw [advance_down hsnap hup hdown]
    obtain ⟨hle, hmove⟩ := moveTo_sub hc hs h0 hdown
    exact approaches_max hdown hle hmove
  · rw [advance_stay hsnap hup hdown]
    exact approaches_self (isNaN_of_finite hc) (isNaN_of_finite ht) hup hdown

theorem GlideState.snaps_hw : g.Snaps hw P ↔ F32.eq P.glideMs 0#32 = true ∨ F32.eq g.step 0#32 = true := by
  rw [Snaps, hw_zero, hw_eq]

end GlideWords

end Sys2Proof.Machine

namespace Sys2Proof.Proofs

open Sys2Proof.Machine

/-- Settles O48: the branches of R143, and the approach to the target that each of them makes. -/
theorem glideNeverOvershoots : Obligations.GlideNeverOvershoots := by
  refine ⟨fun P g => ?call, fun P g hc ht hs hc0 ht0 hs0 => ?approach⟩
  case call =>
    dsimp only
    by_cases hsnap : g.Snaps hw P
    · rw [GlideState.advance_snap hsnap, if_pos (GlideState.snaps_hw.1 hsnap)]
    rw [if_neg (mt GlideState.snaps_hw.2 hsnap)]
    by_cases hup : F32.lt g.current g.target = true
    · rw [GlideState.advance_up hsnap hup, if_pos hup]
      rfl
    rw [if_neg hup]
    by_cases hdown : F32.lt g.target g.current = true
    · rw [GlideState.advance_down hsnap hup hdown, if_pos hdown]
      rfl
    · rw [GlideState.advance_stay hsnap hup hdown, if_neg hdown]
  case approach =>
    rw [← F32.isFinite_iff] at hc ht hs
    rw [F32.fle_iff (by decide) hs, F32.val_zero] at hs0
    have h := GlideState.advance_approaches (P := P) hc ht hs hs0
    exact ⟨h.rising, h.falling, h.moves, h.nonneg hc0 ht0, glide_advance_frame P g⟩

end Sys2Proof.Proofs

/-! ## The glide over the reals (spec/42_glide.md R141, R142, R145) -/

namespace Sys2Proof.Machine

@[simp] theorem reference_lt (a b : ℝ) : reference.lt a b = true ↔ a < b := decide_eq_true_iff

@[simp] theorem reference_eq (a b : ℝ) : reference.eq a b = true ↔ a = b := decide_eq_true_iff

@[simp] theorem reference_min (a b : ℝ) : reference.min a b = min a b := by
  rw [Numerics.min, min_def]
  simp only [reference_le]

theorem glideSamples_reference (C : Config) (P : VoiceParams ℝ) :
    glideSamples reference C P = max 1 (P.glideMs * C.fs / 1000) := by
  rw [glideSamples, reference_max, reference_one]
  simp [reference]

section GlideReference

variable {C : Config} {P : VoiceParams ℝ} {g : GlideState ℝ}

theorem GlideState.snaps_reference : g.Snaps reference P ↔ P.glideMs = 0 ∨ g.step = 0 := by
  simp [Snaps]

/-- No rounding absorbs a step: one call up is the sum, cut at the target. -/
theorem GlideState.advance_up_reference (hms : P.glideMs ≠ 0) (hs : g.step ≠ 0) (h : g.current < g.target) :
    g.advance reference P = { g with current := min (g.current + g.step) g.target } := by
  rw [advance_up (by simp [snaps_reference, hms, hs]) (by simpa using h), moveTo, if_neg (by simpa using hs)]
  simp

theorem GlideState.advance_down_reference (hms : P.glideMs ≠ 0) (hs : g.step ≠ 0) (h : g.target < g.current) :
    g.advance reference P = { g with current := max (g.current - g.step) g.target } := by
  rw [advance_down (by simp [snaps_reference, hms, hs]) (by simpa using h.le) (by simpa using h), moveTo,
    if_neg (by simpa using hs)]
  simp

theorem GlideState.advance_at_target (f s : ℝ) : GlideState.advance reference P ⟨f, f, s⟩ = ⟨f, f, s⟩ := by
  by_cases hsnap : GlideState.Snaps reference P ⟨f, f, s⟩
  · exact advance_snap hsnap
  · exact advance_stay hsnap (by simp) (by simp)

/-- One call takes the part `s` of the whole way `d` off the part `r` of it that is left. -/
theorem GlideState.advance_offset {f d r s : ℝ} (hms : P.glideMs ≠ 0) (hr : 0 ≤ r) (hs : 0 < s) :
    GlideState.advance reference P ⟨f + d * r, f, |d| * s⟩ = ⟨f + d * max 0 (r - s), f, |d| * s⟩ := by
  rcases hr.eq_or_lt with rfl | hr
  · rw [zero_sub, max_eq_left (neg_nonpos.2 hs.le), mul_zero, add_zero]
    exact advance_at_target f _
  have hstep (hd : d ≠ 0) : |d| * s ≠ 0 := mul_ne_zero (abs_ne_zero.2 hd) hs.ne'
  rcases lt_trichotomy d 0 with hd | rfl | hd
  · have hcut : d * max 0 (r - s) = min 0 (d * (r - s)) := by
      simpa using (antitone_mul_left hd.le).map_max (a := 0) (b := r - s)
    have hmove : f + d * r + -d * s = f + d * (r - s) := by ring
    rw [advance_up_reference hms (hstep hd.ne) (add_lt_of_neg_right f (mul_neg_of_neg_of_pos hd hr)), hcut,
      abs_of_neg hd, hmove, ← min_add_add_left, add_zero, min_comm]
  · rw [zero_mul, zero_mul, add_zero]
    exact advance_at_target f _
  · have hcut : d * max 0 (r - s) = max 0 (d * (r - s)) := by rw [mul_max_of_nonneg _ _ hd.le, mul_zero]
    have hmove : f + d * r - d * s = f + d * (r - s) := by ring
    rw [advance_down_reference hms (hstep hd.ne') (lt_add_of_pos_right f (mul_pos hd hr)), hcut, abs_of_pos hd, hmove,
      ← max_add_add_left, add_zero, max_comm]

/-- The part of a glide of `n` samples that is left after `k` calls. -/
noncomputable def glideLeft (n : ℝ) (k : ℕ) : ℝ := max 0 (1 - k * n⁻¹)

theorem glideLeft_nonneg (n : ℝ) (k : ℕ) : 0 ≤ glideLeft n k := le_max_left _ _

theorem glideLeft_zero (n : ℝ) : glideLeft n 0 = 1 := by simp [glideLeft]

theorem glideLeft_succ {n : ℝ} (hn : 0 < n) (k : ℕ) : glideLeft n (k + 1) = max 0 (glideLeft n k - n⁻¹) := by
  have hcast : (1 : ℝ) - (k + 1 : ℕ) * n⁻¹ = 1 - k * n⁻¹ - n⁻¹ := by
    push_cast
    ring
  have hcut : max 0 (0 - n⁻¹) = 0 := max_eq_left (by simpa using hn.le)
  rw [glideLeft, glideLeft, hcast, ← max_sub_sub_right, ← max_assoc, hcut]

theorem glideLeft_succ_le {n : ℝ} (hn : 0 < n) (k : ℕ) : glideLeft n (k + 1) ≤ glideLeft n k := by
  rw [glideLeft_succ hn]
  exact max_le (glideLeft_nonneg n k) (sub_le_self _ (inv_nonneg.2 hn.le))

/-- Nothing is left after `ceil(n)` calls. -/
theorem glideLeft_eq_zero {n : ℝ} (hn : 0 < n) {k : ℕ} (h : ⌈n⌉₊ ≤ k) : glideLeft n k = 0 :=
  max_eq_left (sub_nonpos.2 ((one_le_div hn).2 (Nat.ceil_le.1 h)))

theorem glideSamples_reference_pos (C : Config) (P : VoiceParams ℝ) : 0 < glideSamples reference C P := by
  rw [glideSamples_reference]
  exact zero_lt_one.trans_le (le_max_left _ _)

theorem GlideState.setTarget_reference (hms : P.glideMs ≠ 0) (f : ℝ) :
    g.setTarget reference C P f = ⟨g.current, f, |g.current - f| * (glideSamples reference C P)⁻¹⟩ := by
  rw [setTarget, if_neg (by simpa using hms), abs_sub_comm]
  rfl

/-- The linear ramp of R141: after `k` calls the way left is its share of the whole way. -/
theorem GlideState.iterate_advance_setTarget (hms : P.glideMs ≠ 0) (f : ℝ) (k : ℕ) :
    (fun h => GlideState.advance reference P h)^[k] (g.setTarget reference C P f) =
      ⟨f + (g.current - f) * glideLeft (glideSamples reference C P) k, f,
        |g.current - f| * (glideSamples reference C P)⁻¹⟩ := by
  have hn := glideSamples_reference_pos C P
  induction k with
  | zero => simp [setTarget_reference hms, glideLeft_zero]
  | succ k ih =>
    rw [Function.iterate_succ_apply', ih, advance_offset hms (glideLeft_nonneg _ k) (inv_pos.2 hn), glideLeft_succ hn]

end GlideReference

end Sys2Proof.Machine

namespace Sys2Proof.Proofs

open Sys2Proof.Machine

/-- Settles O47: the ramp in closed form, whose part left never grows, never is negative, and is 0 from `ceil(gN)` on. -/
theorem glideArrives : Obligations.GlideArrives := by
  intro C P g f hms _ _ gN seq
  have hgN : gN = glideSamples reference C P := (glideSamples_reference C P).symm
  have hn : 0 < gN := hgN ▸ glideSamples_reference_pos C P
  have hseq (k : ℕ) : seq k = f + (g.current - f) * glideLeft gN k := by
    rw [hgN]
    exact congrArg GlideState.current (GlideState.iterate_advance_setTarget hms.ne' f k)
  simp only [hseq]
  refine ⟨?start, fun h k => ⟨?up, ?below⟩, fun h k => ⟨?down, ?above⟩, fun k hk => ?arrives⟩
  case start => rw [glideLeft_zero, mul_one, add_sub_cancel]
  case up => exact add_le_add_right (mul_le_mul_of_nonpos_left (glideLeft_succ_le hn k) (sub_nonpos.2 h)) f
  case below => exact add_le_of_nonpos_right (mul_nonpos_of_nonpos_of_nonneg (sub_nonpos.2 h) (glideLeft_nonneg gN k))
  case down => exact add_le_add_right (mul_le_mul_of_nonneg_left (glideLeft_succ_le hn k) (sub_nonneg.2 h)) f
  case above => exact le_add_of_nonneg_right (mul_nonneg (sub_nonneg.2 h) (glideLeft_nonneg gN k))
  case arrives => rw [glideLeft_eq_zero hn hk, mul_zero, add_zero]

end Sys2Proof.Proofs

/-! ## The LFO's registers and the route (spec/43_lfo.md R160 to R163) -/

namespace Sys2Proof.Machine

/-- R163 by its operand: zero switches the route off and restores the unmodulated cutoff; any other
leaves the filter. -/
theorem setLfoRoute_boolOperand (a : BitVec 16) (E : EngineState Word) : EngineState.setLfoRoute (boolOperand a) E =
    if a = 0#16 then { E with lfoRoute := false, flt := { E.flt with cutoff := E.baseCutoff } }
    else { E with lfoRoute := true } := by
  by_cases ha : a = 0#16
  · rw [if_pos ha, ha]
    rfl
  · have hb : boolOperand a = true := bne_iff_ne.2 ha
    rw [if_neg ha, hb]
    rfl

end Sys2Proof.Machine

namespace Sys2Proof.Proofs

open Sys2Proof.Machine

/-- Settles O22: four setters of one engine's registers; the route's rewrites the cutoff when its operand is zero. -/
theorem lfoCommands : Obligations.LfoCommands := by
  unfold Obligations.LfoCommands
  simp only [clampTo_eq, clampUnit_eq, ← waveformOperand_eq]
  exact ⟨numSetter, numSetter, intSetter,
    intSetter (heff := fun _ _ a => funext (setLfoRoute_boolOperand a)), by decide⟩

end Sys2Proof.Proofs

/-! ## Frozen stages over a block (spec/43_lfo.md R158; spec/46_engine.md R224) -/

namespace Sys2Proof.Machine

/-- What the chain leaves unchanged while a register reads false, a block leaves unchanged: no sample writes a register,
and the voices of the block write none of the chain's state. -/
theorem process_eq_of_chain_eq {β : Type} {C : Config} (flag : Registers Word → Bool) {part : EngineState Word → β}
    (hpart : ∀ (E : EngineState Word) V m, part { E with voices := V, scr := m } = part E := by intros; rfl)
    (hchain : ∀ (E : EngineState Word) x, flag E.registers = false → part (E.chain hw C x).1 = part E)
    {E : EngineState Word} {n : Nat} (h : flag E.registers = false) : part (E.process hw C n) = part E := by
  suffices hp : (E.process hw C n).registers = E.registers ∧ part (E.process hw C n) = part E from hp.2
  refine EngineState.process_induct (p := fun F => F.registers = E.registers ∧ part F = part E) n E
    ⟨rfl, hpart E _ _⟩ ?_
  intro i F _ ⟨hreg, heq⟩
  obtain ⟨-, -, hframe⟩ := EngineState.chain_frame (N := hw) (C := C) F (Mem.read hw.zero F.scr i)
  exact ⟨hframe.trans hreg, (hpart _ _ _).trans ((hchain F _ (hreg ▸ h)).trans heq)⟩

/-- The filter but for its cutoff, which a routed LFO rewrites. -/
def FilterState.withoutCutoff (t : FilterState Word) : FilterState Word := { t with cutoff := 0#32 }

theorem FilterState.withoutCutoff_eq_iff {t u : FilterState Word} :
    t.withoutCutoff = u.withoutCutoff ↔ t = { u with cutoff := t.cutoff } :=
  ⟨congrArg fun r : FilterState Word => { r with cutoff := t.cutoff }, congrArg withoutCutoff⟩

end Sys2Proof.Machine

namespace Sys2Proof.Proofs

open Sys2Proof.Machine

/-- Settles O36: each stage's state is a part of the engine the chain leaves unchanged while the stage's flag
is false. -/
theorem frozenStages : Obligations.FrozenStages := by
  intro n s e
  refine ⟨_, exec_process n s, ?_⟩
  rw [State.afterProcess_engine]
  have hchain := EngineState.chain_frozen (N := hw) (C := s.cfg)
  simp only [forall_and, ← FilterState.withoutCutoff_eq_iff] at hchain ⊢
  obtain ⟨⟨hlfo, -⟩, hflt, hflg, htrm, hdly, hrev⟩ := hchain
  exact ⟨process_eq_of_chain_eq (·.lfoRoute) (hchain := hlfo),
    process_eq_of_chain_eq (·.fltEnable) (part := (·.flt.withoutCutoff)) (hchain := hflt),
    process_eq_of_chain_eq (·.flgEnable) (hchain := hflg),
    process_eq_of_chain_eq (·.trmEnable) (hchain := htrm),
    process_eq_of_chain_eq (·.dlyEnable) (hchain := hdly),
    process_eq_of_chain_eq (·.revEnable) (hchain := hrev)⟩

end Sys2Proof.Proofs

/-! ## The filter's registers (spec/44_filter.md R178 to R183) -/

namespace Sys2Proof.Machine

open F32

/-- R182: the clamped code is the end of `0..2` the operand lies at or beyond, or the 1 between them. -/
theorem modeOperand_eq (a : BitVec 16) : modeOperand a = Spec.mode a := by
  unfold Spec.mode
  split_ifs with h0 h1
  · have h : clampI a.toInt 0 2 = 0 := by
      unfold clampI
      omega
    rw [modeOperand, h]
    rfl
  · rw [modeOperand, h1]
    rfl
  · have h : clampI a.toInt 0 2 = 2 := by
      unfold clampI
      omega
    rw [modeOperand, h]
    rfl

theorem boolOperand_eq (a : BitVec 16) : boolOperand a = decide (a ≠ 0#16) := by
  rw [boolOperand, bne, decide_not, beq_eq_decide]

theorem F32.key_eq_of_le_of_not_lt {a b : Word} (h : le a b = true) (hlt : ¬lt a b = true) : key a = key b := by
  obtain ⟨ha, hb⟩ := not_isNaN_of_le h
  rw [le_iff_key ha hb] at h
  rw [lt_iff_key ha hb] at hlt
  omega

/-- A zero is not below 0, so it stays itself, of either sign; every other such datum becomes the bound. -/
theorem isZero_clampUnit_of_le_zero {x : Word} (h : le x 0#32 = true) : Spec.IsZero (Spec.clampUnit x) := by
  by_cases hlt : lt x 0#32 = true
  · exact .inl (clamp_of_lt hlt)
  · have hkey : key x = 0 := key_eq_of_le_of_not_lt h hlt
    have hx : Spec.IsZero x := (isZero_iff x).2 ((key_eq_zero_iff x).1 hkey)
    rcases hx with rfl | rfl
    · exact .inl (by decide)
    · exact .inr (by decide)

theorem clampUnit_of_one_le {x : Word} (h : le 0x3F800000#32 x = true) : Spec.clampUnit x = 0x3F800000#32 := by
  by_cases hlt : lt 0x3F800000#32 x = true
  · exact clamp_of_gt (by decide) hlt
  · have hx : 0x3F800000#32 = x := key_inj (key_eq_of_le_of_not_lt h hlt) (by decide)
    rw [← hx]
    decide

/-- R176 with the default bounds: the binary32 0.707 less `r` times its distance from the binary32 0.05. -/
theorem qOfResonance_default {C : Config} (hbase : C.qBase = Config.default.qBase)
    (hmin : C.qMin = Config.default.qMin) (r : Word) :
    qOfResonance hw C r = F32.sub 0x3F34FDF4#32 (F32.mul r 0x3F283127#32) := by
  have hb : hw.ofDec Config.default.qBase = 0x3F34FDF4#32 := by decide
  have hspan : hw.sub 0x3F34FDF4#32 (hw.ofDec Config.default.qMin) = 0x3F283127#32 := by decide
  rw [qOfResonance, hbase, hmin, hb, hspan, hw_sub, hw_mul]

/-- R180: the `q` stored is that of the clamped operand. -/
theorem exec_setFilterResonance (e : EngineSel) {s : State} {f q : Word} (hf : isNaN f = false)
    (hq : qOfResonance hw s.cfg (Spec.clampUnit f) = q) :
    exec (.setFilterResonance e f) s = .next (s.updEngine e fun E => { E with flt := { E.flt with q := q } }) := by
  have hsetter : Spec.NumSetter 0x31 .setFilterResonance (EngineState.setResonance hw) := numSetter
  obtain ⟨-, hexec⟩ := hsetter
  rw [hexec, if_neg ((isNaN_eq_false_iff f).1 hf), ← hq, clampUnit_eq]
  rfl

end Sys2Proof.Machine

namespace Sys2Proof.Proofs

open Sys2Proof.Machine Sys2Proof.Machine.F32

/-- Settles O20: four setters of one engine's registers. -/
theorem filterCommands : Obligations.FilterCommands := by
  unfold Obligations.FilterCommands
  simp only [clampUnit_eq, ← modeOperand_eq, ← boolOperand_eq]
  exact ⟨numSetter, numSetter, intSetter, intSetter, by decide, by decide⟩

/-- Settles O21: the operand is clamped to a zero, to 1 or stays 0.5, and `q` is computed at each. -/
theorem resonanceCorners : Obligations.ResonanceCorners := by
  intro e f s hbase hmin
  have hq := qOfResonance_default hbase hmin
  refine ⟨fun h => ?low, fun h => ?high, fun h => ?half⟩
  case low =>
    obtain ⟨hf, -⟩ := not_isNaN_of_le h
    refine exec_setFilterResonance e hf ((hq _).trans ?_)
    rcases isZero_clampUnit_of_le_zero h with hr | hr
    · rw [hr]
      decide
    · rw [hr]
      decide
  case high =>
    obtain ⟨-, hf⟩ := not_isNaN_of_le h
    refine exec_setFilterResonance e hf ((hq _).trans ?_)
    rw [clampUnit_of_one_le h]
    decide
  case half =>
    subst h
    exact exec_setFilterResonance e (by decide) ((hq _).trans (by decide))

end Sys2Proof.Proofs

/-! ## The filter's recursion (spec/44_filter.md R171 to R173, R184) -/

namespace Sys2Proof.Machine

theorem FilterState.normFreq_hw (C : Config) (t : FilterState Word) : t.normFreq hw C =
    hw.clamp (F32.div (F32.mul 0x40000000#32 t.cutoff) (F32.ofInt C.fs)) 0#32 0x3F000000#32 := by
  have h2 : hw.ofInt 2 = 0x40000000#32 := by decide
  rw [normFreq, h2, hw_zero, hw_half, hw_div, hw_mul, hw_ofInt]

@[simp] theorem reference_mul (a b : ℝ) : reference.mul a b = a * b := rfl

@[simp] theorem reference_div (a b : ℝ) : reference.div a b = a / b := rfl

theorem reference_half : reference.half = 1 / 2 := by
  norm_num [Numerics.half, reference]

theorem reference_clamp {v lo hi : ℝ} (hlo : lo ≤ v) (hhi : v ≤ hi) : reference.clamp v lo hi = v := by
  have h1 : ¬reference.lt v lo = true := (reference_lt v lo).not.2 hlo.not_gt
  have h2 : ¬reference.lt hi v = true := (reference_lt hi v).not.2 hhi.not_gt
  rw [Numerics.clamp, if_neg h1, if_neg h2, if_pos ((reference_eq v v).2 rfl)]

/-- R171 without its clamp: up to a quarter of the sample rate the normalised frequency is the quotient itself. -/
theorem FilterState.normFreq_reference {C : Config} {t : FilterState ℝ} (h0 : 0 ≤ 2 * t.cutoff / C.fs)
    (h1 : 2 * t.cutoff / C.fs ≤ 1 / 2) : t.normFreq reference C = 2 * t.cutoff / C.fs := by
  rw [normFreq, reference_div, reference_mul, reference_zero, reference_half]
  exact reference_clamp h0 h1

end Sys2Proof.Machine

namespace Sys2Proof.Proofs

open Sys2Proof.Machine

/-- Settles O49: the step is the recursion at the normalised frequency, and each mode returns its variable. -/
theorem filterRecursion : Obligations.FilterRecursion := by
  intro C t x m f low high band
  have hf : t.normFreq hw C = f := FilterState.normFreq_hw C t
  have hstep : t.step hw C x = ⟨low, band, high, F32.add high low, t.cutoff, t.q⟩ := by
    rw [FilterState.step, hf]
    rfl
  rw [FilterState.process, hstep]
  cases m <;> rfl

/-- Settles O50: the binary32 run is computed; over the reals the normalised frequency is 1/4 in every state of the run,
and the four steps are sums of products of it. -/
theorem filterImpulse : Obligations.FilterImpulse := by
  refine ⟨by decide, ?_⟩
  have hf (low band high notch : ℝ) : FilterState.normFreq reference { Config.default with fs := 32768 }
      ⟨low, band, high, notch, 4096, 1 / 2⟩ = 1 / 4 := by
    rw [FilterState.normFreq_reference] <;> norm_num
  simp only [Spec.filterRun, FilterState.step, hf, reference_add, reference_sub, reference_mul]
  norm_num

end Sys2Proof.Proofs

/-! ## NOTE_ON: the allocated voice (spec/45_voice.md R192; spec/46_engine.md R211, R213, R214) -/

namespace Sys2Proof.Machine

/-! ### The operands -/

/-- R83: the clamped note number, written with `max` and `min`. -/
theorem noteOperand_eq (a : BitVec 16) : noteOperand a = Spec.note a := by
  unfold noteOperand Spec.note clampI
  omega

/-- R214: unless its velocity is a NaN, NOTE_ON is the engine's `noteOn` at the clamped operands. -/
theorem exec_noteOn (e : EngineSel) (a : BitVec 16) {f : BitVec 32} (hf : F32.isNaN f = false) (s : State) :
    exec (.noteOn e a f) s =
      .next (s.updEngine e (EngineState.noteOn hw s.cfg (Spec.note a) (Spec.clampUnit f))) := by
  have hok : NumOperandOk (.noteOn e a f) := fun _ h => Option.some.inj h ▸ hf
  rw [exec_updEngine rfl (by nofun) hok, engineEffect, noteOperand_eq, unitClamp, clampUnit_eq]

/-! ### The voice -/

theorem midiToFreq_hw (C : Config) (n : Int) : midiToFreq hw C n = Spec.noteFreq C n := rfl

theorem glideSamples_hw (C : Config) (P : VoiceParams Word) : glideSamples hw C P =
    hw.max 0x3F800000#32 (F32.div (F32.mul P.glideMs (F32.ofInt C.fs)) (F32.ofInt 1000)) := by
  rw [glideSamples, hw_one, hw_div, hw_mul, hw_ofInt]

/-- R142: the target is at once the current frequency when the glide time is zero. -/
theorem GlideState.setTarget_hw (C : Config) (P : VoiceParams Word) (g : GlideState Word) (f : Word) :
    g.setTarget hw C P f =
      if F32.eq P.glideMs 0#32 then ⟨f, f, 0#32⟩
      else ⟨g.current, f, F32.div (F32.abs (F32.sub f g.current))
        (hw.max 0x3F800000#32 (F32.div (F32.mul P.glideMs (F32.ofInt C.fs)) (F32.ofInt 1000)))⟩ := by
  rw [setTarget, glideSamples_hw, hw_zero, hw_eq, hw_div, hw_abs, hw_sub]

/-- R192: the phase is reset only if the voice was not sounding before. -/
theorem VoiceState.noteOn_eq (C : Config) (P : VoiceParams Word) (v : VoiceState Word) (freq vel : Word) :
    v.noteOn hw C P freq vel = Spec.voiceAfterNoteOn C P v freq vel := by
  rw [noteOn, Spec.voiceAfterNoteOn, GlideState.setTarget_hw, OscState.resetPhase, EnvState.gateOn, hw_zero]
  simp only [isActive_iff]

/-! ### The pool -/

theorem updAt_eq_set {α : Type} (f : α → α) {a : α} :
    ∀ {i : Nat} {l : List α}, l[i]? = some a → updAt f i l = l.set i (f a)
  | 0, _ :: _, rfl => rfl
  | _ + 1, b :: _, h => congrArg (b :: ·) (updAt_eq_set f h)

/-- R213: of the pool, the voice `allocate` names is rewritten. -/
theorem EngineState.noteOn_eq {C : Config} {E : EngineState Word} {u : VoiceState Word}
    (hu : E.voices[allocate E.voices]? = some u) (n : Int) (vel : Word) :
    E.noteOn hw C n vel = { E with
      voices := E.voices.set (allocate E.voices) (Spec.voiceAfterNoteOn C E.prm u (Spec.noteFreq C n) vel) } := by
  rw [noteOn, updAt_eq_set _ hu, VoiceState.noteOn_eq, midiToFreq_hw]

/-- What is written into an engine depends on the writer's value there alone. -/
theorem State.updEngine_congr {s : State} {e : EngineSel} {g g' : EngineState Word → EngineState Word}
    (h : g (s.engine e) = g' (s.engine e)) : s.updEngine e g = s.updEngine e g' := by
  cases e
  · exact congrArg (fun E => { s with live := E }) h
  · exact congrArg (fun E => { s with timeline := E }) h

end Sys2Proof.Machine

namespace Sys2Proof.Proofs

open Sys2Proof.Machine

/-- Settles O28: `allocate` names one voice of the pool, and `noteOn` rewrites that one. -/
theorem noteOnEffect : Obligations.NoteOnEffect := by
  refine ⟨fun w h => ?decode, fun e a f s hf => ?nan, fun e a f s u hf hu => ?num⟩
  case decode =>
    have hop : (fieldOP w).toNat = 0x10 := h
    rw [decode, hop]
    rfl
  case nan => exact exec_of_nan rfl ((F32.isNaN_iff f).2 hf) s
  case num =>
    rw [exec_noteOn e a ((F32.isNaN_eq_false_iff f).2 hf)]
    exact congrArg Host.Outcome.next (State.updEngine_congr (EngineState.noteOn_eq hu _ _))

end Sys2Proof.Proofs

/-! ## The chain, stage by stage (spec/46_engine.md R222 to R224) -/

namespace Sys2Proof.Machine

/-- A stage under its flag reads and writes the state of its own unit alone: what the unit returns is put in its place,
or what stood there. -/
theorem stage_flag {α : Type} [DecidableEq α] (N : Numerics α) (C : Config) (E : EngineState α) (b : Bool) (x : α) :
    (if b then E.filterStage N C x else (E, x)) =
      ({ E with flt := (if b then E.flt.process N C E.fltMode x else (E.flt, x)).1 },
        (if b then E.flt.process N C E.fltMode x else (E.flt, x)).2) ∧
    (if b then E.flangerStage N C x else (E, x)) =
      ({ E with flg := (if b then E.flg.process N C x else (E.flg, x)).1 },
        (if b then E.flg.process N C x else (E.flg, x)).2) ∧
    (if b then E.tremoloStage N C x else (E, x)) =
      ({ E with trm := (if b then E.trm.process N C x else (E.trm, x)).1 },
        (if b then E.trm.process N C x else (E.trm, x)).2) ∧
    (if b then E.delayStage N C x else (E, x)) =
      ({ E with dly := (if b then E.dly.process N C x else (E.dly, x)).1 },
        (if b then E.dly.process N C x else (E.dly, x)).2) ∧
    (if b then E.reverbStage N C x else (E, x)) =
      ({ E with rev := (if b then E.rev.process N C x else (E.rev, x)).1 },
        (if b then E.rev.process N C x else (E.rev, x)).2) := by
  cases b <;> exact ⟨rfl, rfl, rfl, rfl, rfl⟩

/-- The chain over the whole engine is the chain over its units. -/
theorem chain_eq (C : Config) (E : EngineState Word) (x : Word) : E.chain hw C x = Spec.chain C E x := by
  simp only [EngineState.chain, stage_flag]
  cases h : E.lfoRoute <;> simp only [Spec.chain, h] <;> rfl

theorem chain_allOff (C : Config) {E : EngineState Word} (h : Spec.AllOff E) (x : Word) : E.chain hw C x = (E, x) := by
  obtain ⟨hflt, hlfo, hdly, hrev, htrm, hflg⟩ := h
  simp [EngineState.chain, hflt, hlfo, hdly, hrev, htrm, hflg]

/-- R223, R156: the modulation stage at the LFO's new phase. -/
theorem lfoStage_eq (C : Config) (E : EngineState Word) :
    let phase := Spec.phaseOn C E.lfo.phase E.lfo.rate
    E.lfoStage hw C = { E with
      lfo := { E.lfo with phase := phase }
      flt := { E.flt with
        cutoff := Spec.clampDec C.cutoffMin C.cutoffMax
          (F32.mul E.baseCutoff (F32.add 0x3F800000#32 (F32.mul (wave hw E.lfo.waveform phase) E.lfo.depth))) } } := by
  rw [← hw_one]
  rfl

end Sys2Proof.Machine

namespace Sys2Proof.Proofs

open Sys2Proof.Machine

/-- Settles O37: each stage under its flag reads and writes its own unit. -/
theorem chainAndModulation : Obligations.ChainAndModulation :=
  ⟨chain_eq, fun C _ x h => chain_allOff C h x, lfoStage_eq⟩

end Sys2Proof.Proofs

/-! ## Notes: releases and frequencies (spec/46_engine.md R211, R216 to R220) -/

namespace Sys2Proof.Machine

/-- R216 in binary32. -/
theorem EngineState.noteOff_eq (C : Config) (n : Int) (E : EngineState Word) : E.noteOff hw C n = { E with
    voices := E.voices.map fun v =>
      if F32.lt (F32.abs (F32.sub v.gl.current (Spec.noteFreq C n))) (hw.ofDec C.noteoffTol) = true
      then Spec.released v else v } := by
  simp only [noteOff, midiToFreq_hw, noteMatches, GlideState.getFrequency, hw_lt, hw_abs, hw_sub]
  rfl

/-- R219, with R34's test of a sounding voice. -/
theorem EngineState.stopAll_eq (E : EngineState Word) : E.stopAll = { E with
    voices := E.voices.map fun v => if Spec.Sounding v then Spec.released v else v } := by
  simp only [stopAll, isActive_iff]
  rfl

theorem midiToFreq_reference (n : Int) :
    midiToFreq reference Config.default n = 440 * (2 : ℝ) ^ (((n : ℝ) - 69) / 12) := by
  simp [midiToFreq, reference, Config.default]

end Sys2Proof.Machine

namespace Sys2Proof.Proofs

open Sys2Proof.Machine

/-- Settles O29: the command is its engine's `noteOff` at the clamped note. -/
theorem noteOffEffect : Obligations.NoteOffEffect := by
  refine ⟨fun w h => ?decode, fun e a s => ?exec⟩
  case decode =>
    have hop : (fieldOP w).toNat = 0x11 := h
    rw [decode, hop]
    rfl
  case exec =>
    have hok : NumOperandOk (.noteOff e a) := nofun
    rw [exec_updEngine rfl (by nofun) hok, engineEffect, noteOperand_eq]
    exact congrArg Host.Outcome.next (State.updEngine_congr (EngineState.noteOff_eq _ _ _))

/-- Settles O30: with the timeline's bit the command is that engine's `stopAll`; without it the word is reserved. -/
theorem stopAllNotesEffect : Obligations.StopAllNotesEffect := by
  refine ⟨fun s => ?timeline, fun s => rfl, fun w hop he => ?decode, fun w hop he => ?reserved⟩
  case timeline =>
    rw [← EngineState.stopAll_eq]
    rfl
  case decode =>
    have hop : (fieldOP w).toNat = 0x12 := hop
    rw [decode, hop]
    exact if_pos he
  case reserved => exact executedAs_of_reserved (by simp [Spec.Reserved, hop, he])

/-- Settles O32: at these notes `exp2` is taken at 0, 1 and -1, where R12 fixes it. -/
theorem noteFrequencies : Obligations.NoteFrequencies := by
  refine ⟨by decide, by decide, by decide, midiToFreq_reference, ?_, ?_, ?_⟩ <;> rw [midiToFreq_reference] <;> norm_num

end Sys2Proof.Proofs

/-! ## Voice allocation (spec/46_engine.md R212) -/

namespace Sys2Proof.Machine

/-- What a scan of the pool `vs` for the oldest voice satisfying `p` has found: nothing, when there is none; else the
index and the age of one, the lowest index on a tie. -/
def Oldest (p : VoiceState Word → Bool) (vs : List (VoiceState Word)) : Option (Nat × Nat) → Prop
  | none => ∀ y ∈ vs, p y = false
  | some (j, a) => (∃ x, vs[j]? = some x ∧ p x = true ∧ x.age = a) ∧
      ∀ u y, vs[u]? = some y → p y = true → y.age < a ∨ (y.age = a ∧ j ≤ u)

/-- One more voice of the scan. -/
def oldestNext (p : VoiceState Word → Bool) (i : Nat) (best : Option (Nat × Nat)) (v : VoiceState Word) :
    Option (Nat × Nat) :=
  if p v then
    match best with
    | none => some (i, v.age)
    | some (j, a) => if a < v.age then some (i, v.age) else some (j, a)
  else best

theorem oldestFrom_cons (p : VoiceState Word → Bool) (i : Nat) (best : Option (Nat × Nat)) (v : VoiceState Word)
    (t : List (VoiceState Word)) : oldestFrom p i best (v :: t) = oldestFrom p (i + 1) (oldestNext p i best v) t := rfl

section Scan

variable {p : VoiceState Word → Bool} {vs : List (VoiceState Word)} {v : VoiceState Word}

/-- An index of a pool with one voice more is an old one or the last. -/
theorem getElem?_concat_cases {u : Nat} {y : VoiceState Word} (h : (vs ++ [v])[u]? = some y) :
    vs[u]? = some y ∨ u = vs.length ∧ y = v := by
  rcases lt_trichotomy u vs.length with hu | hu | hu
  · exact .inl (by rwa [List.getElem?_append_left hu] at h)
  · subst hu
    exact .inr ⟨rfl, by simpa using h.symm⟩
  · rw [List.getElem?_eq_none (by simp; omega)] at h
    cases h

/-- A voice that is no candidate changes nothing. -/
theorem Oldest.skip {best : Option (Nat × Nat)} (h : Oldest p vs best) (hv : p v = false) :
    Oldest p (vs ++ [v]) best := by
  cases best with
  | none =>
    intro y hy
    rcases List.mem_append.1 hy with hy | hy
    · exact h y hy
    · rwa [List.mem_singleton.1 hy]
  | some b =>
    obtain ⟨⟨x, hx, hpx, hage⟩, hmax⟩ := h
    have hj := (List.getElem?_eq_some_iff.1 hx).1
    refine ⟨⟨x, by rw [List.getElem?_append_left hj, hx], hpx, hage⟩, fun u y hy hpy => ?_⟩
    rcases getElem?_concat_cases hy with hy | ⟨-, rfl⟩
    · exact hmax u y hy hpy
    · simp [hv] at hpy

/-- A candidate that is no older than the best leaves it. -/
theorem Oldest.keep {j a : Nat} (h : Oldest p vs (some (j, a))) (hv : v.age ≤ a) :
    Oldest p (vs ++ [v]) (some (j, a)) := by
  obtain ⟨⟨x, hx, hpx, hage⟩, hmax⟩ := h
  have hj := (List.getElem?_eq_some_iff.1 hx).1
  refine ⟨⟨x, by rw [List.getElem?_append_left hj, hx], hpx, hage⟩, fun u y hy hpy => ?_⟩
  rcases getElem?_concat_cases hy with hy | ⟨rfl, rfl⟩
  · exact hmax u y hy hpy
  · omega

/-- A candidate older than every one before it is the best. -/
theorem Oldest.replace (hv : p v = true) (hmax : ∀ y ∈ vs, p y = true → y.age < v.age) :
    Oldest p (vs ++ [v]) (some (vs.length, v.age)) := by
  refine ⟨⟨v, by simp, hv, rfl⟩, fun u y hy hpy => ?_⟩
  rcases getElem?_concat_cases hy with hy | ⟨rfl, rfl⟩
  · exact .inl (hmax y (List.mem_of_getElem? hy) hpy)
  · exact .inr ⟨rfl, le_rfl⟩

theorem Oldest.next {best : Option (Nat × Nat)} (h : Oldest p vs best) (v : VoiceState Word) :
    Oldest p (vs ++ [v]) (oldestNext p vs.length best v) := by
  unfold oldestNext
  split
  case isFalse hv => exact h.skip (by simpa using hv)
  case isTrue hv =>
    cases best with
    | none => exact Oldest.replace hv fun y hy hpy => absurd hpy (by simp [h y hy])
    | some b =>
      obtain ⟨j, a⟩ := b
      dsimp only
      split
      case isTrue hlt =>
        refine Oldest.replace hv fun y hy hpy => ?_
        obtain ⟨u, hu⟩ := List.mem_iff_getElem?.1 hy
        have := h.2 u y hu hpy
        omega
      case isFalse hlt => exact h.keep (not_lt.1 hlt)

theorem oldest_oldestFrom : ∀ (t vs : List (VoiceState Word)) {best : Option (Nat × Nat)}, Oldest p vs best →
    Oldest p (vs ++ t) (oldestFrom p vs.length best t)
  | [], vs, _, h => by rwa [List.append_nil]
  | v :: t, vs, _, h => by
    have hrest := oldest_oldestFrom t (vs ++ [v]) (h.next v)
    rwa [List.append_assoc, List.length_append] at hrest

/-- The scan of the whole pool. -/
theorem oldest_scan (p : VoiceState Word → Bool) (vs : List (VoiceState Word)) : Oldest p vs (oldestFrom p 0 none vs) :=
  oldest_oldestFrom vs [] nofun

end Scan

theorem isReleasing_iff {α : Type} (v : VoiceState α) : v.isReleasing = true ↔ Spec.Releasing v := by
  simp [VoiceState.isReleasing, EnvState.isActive, Spec.Releasing]

/-- The scan for a silent voice is the library's search. -/
theorem firstSilentFrom_eq : ∀ (i : Nat) (vs : List (VoiceState Word)),
    firstSilentFrom i vs = (vs.findIdx? (fun v => !v.isActive)).map (· + i)
  | _, [] => rfl
  | i, v :: t => by
    rw [firstSilentFrom, List.findIdx?_cons, firstSilentFrom_eq (i + 1) t]
    cases v.isActive
    · simp
    · simp [Function.comp_def, Nat.add_right_comm, ← Nat.add_assoc]

/-- R212, its three cases. -/
theorem allocate_cases (vs : List (VoiceState Word)) :
    (∃ x, vs[allocate vs]? = some x ∧ ¬Spec.Sounding x ∧
      ∀ u y, u < allocate vs → vs[u]? = some y → Spec.Sounding y) ∨
    (∀ y ∈ vs, Spec.Sounding y) ∧
      ((∃ a, Oldest VoiceState.isReleasing vs (some (allocate vs, a))) ∨
        (∀ y ∈ vs, ¬Spec.Releasing y) ∧ (vs ≠ [] → ∃ a, Oldest (fun _ => true) vs (some (allocate vs, a)))) := by
  have hsilent := firstSilentFrom_eq 0 vs
  have hrel := oldest_scan VoiceState.isReleasing vs
  have hall := oldest_scan (fun _ => true) vs
  unfold allocate
  cases hf : vs.findIdx? (fun v => !v.isActive) with
  | some k =>
    left
    rw [hsilent, hf]
    obtain ⟨hk, hx, hlt⟩ := List.findIdx?_eq_some_iff_getElem.1 hf
    refine ⟨vs[k], List.getElem?_eq_getElem hk, ?_, fun u y hu hy => ?_⟩
    · rw [← isActive_eq_false_iff]
      simpa using hx
    · obtain ⟨_, rfl⟩ := List.getElem?_eq_some_iff.1 hy
      rw [← isActive_iff]
      simpa using hlt u hu
  | none =>
    right
    rw [hsilent, hf]
    refine ⟨fun y hy => (isActive_iff y).1 (by simpa using List.findIdx?_eq_none_iff.1 hf y hy), ?_⟩
    cases hr : oldestFrom VoiceState.isReleasing 0 none vs with
    | some b =>
      left
      exact ⟨b.2, hr ▸ hrel⟩
    | none =>
      right
      rw [hr] at hrel
      refine ⟨fun y hy => (isReleasing_iff y).not.1 (Bool.eq_false_iff.1 (hrel y hy)), fun hne => ?_⟩
      cases ho : oldestFrom (fun _ => true) 0 none vs with
      | some b => exact ⟨b.2, ho ▸ hall⟩
      | none =>
        rw [ho] at hall
        exact absurd (List.eq_nil_iff_forall_not_mem.2 fun y hy => Bool.false_ne_true (hall y hy).symm) hne

/-- R142 of the voice NOTE_ON rewrites: the target always, the current frequency at once only with zero glide time. -/
theorem glide_voiceAfterNoteOn (C : Config) (P : VoiceParams Word) (u : VoiceState Word) (freq vel : Word) :
    (Spec.voiceAfterNoteOn C P u freq vel).gl.target = freq ∧
    (F32.eq P.glideMs 0#32 = true → (Spec.voiceAfterNoteOn C P u freq vel).gl.current = freq) ∧
    (F32.eq P.glideMs 0#32 = false → (Spec.voiceAfterNoteOn C P u freq vel).gl.current = u.gl.current) := by
  cases h : F32.eq P.glideMs 0#32 <;> simp [Spec.voiceAfterNoteOn, h]

end Sys2Proof.Machine

namespace Sys2Proof.Proofs

open Sys2Proof.Machine

/-- Settles O27, by the three cases of `allocate`. -/
theorem allocationPolicy : Obligations.AllocationPolicy := by
  intro vs hne
  rcases allocate_cases vs with ⟨x, hx, hsilent, hfirst⟩ | ⟨hsound, ⟨a, ⟨x, hx, hrel, rfl⟩, hmax⟩ | ⟨hnone, hold⟩⟩
  · have habsurd : ¬∀ y ∈ vs, Spec.Sounding y := fun h => hsilent (h x (List.mem_of_getElem? hx))
    exact ⟨x, hx, fun _ => ⟨hsilent, hfirst⟩, fun h => absurd h habsurd, fun h => absurd h habsurd⟩
  · rw [isReleasing_iff] at hrel
    simp only [isReleasing_iff] at hmax
    exact ⟨x, hx, fun ⟨y, hy, h⟩ => absurd (hsound y hy) h, fun _ _ => ⟨hrel, hmax⟩,
      fun _ h => absurd hrel (h x (List.mem_of_getElem? hx))⟩
  · obtain ⟨a, ⟨x, hx, -, rfl⟩, hmax⟩ := hold hne
    exact ⟨x, hx, fun ⟨y, hy, h⟩ => absurd (hsound y hy) h, fun _ ⟨y, hy, h⟩ => absurd h (hnone y hy),
      fun _ _ u y hy => hmax u y hy rfl⟩

/-- Settles O31: the voice allocated is the one stolen, and NOTE_ON rewrites it. -/
theorem stealingOutcome : Obligations.StealingOutcome := by
  intro e a f s hf hne hsound
  obtain ⟨x, hx, -, hrel, hold⟩ := allocationPolicy _ hne
  obtain ⟨-, -, hexec⟩ := noteOnEffect
  obtain ⟨hk, -⟩ := List.getElem?_eq_some_iff.1 hx
  obtain ⟨htarget, hjump, hglide⟩ := glide_voiceAfterNoteOn s.cfg (s.engine e).prm x
    (Spec.noteFreq s.cfg (Spec.note a)) (Spec.clampUnit f)
  refine ⟨_, _, x, _, hexec e a f s x hf hx, hx, by simp [hk], fun hnone v hv => ?oldest, fun hex =>
    ⟨(hrel hsound hex).1, fun v hv hr => ?oldestReleasing⟩, htarget, hjump, hglide, rfl, rfl, rfl, rfl,
    if_pos (hsound x (List.mem_of_getElem? hx)), rfl, fun j hj => ?others⟩
  case oldest =>
    obtain ⟨u, hu⟩ := List.mem_iff_getElem?.1 hv
    have := hold hsound hnone u v hu
    omega
  case oldestReleasing =>
    obtain ⟨u, hu⟩ := List.mem_iff_getElem?.1 hv
    have := (hrel hsound hex).2 u v hu hr
    omega
  case others => simp [List.getElem?_set_ne hj.symm]

end Sys2Proof.Proofs

/-! ## Zeros of either sign under the arithmetic (spec/46_engine.md R225) -/

namespace Sys2Proof.Machine.F32

variable {a b w : Word}

theorem isZero_zero : Spec.IsZero 0#32 := .inl rfl

/-- The two zeros are the finite data of value 0. -/
theorem isZero_iff_within : Spec.IsZero w ↔ Within 0 0 w := by
  rw [Spec.IsZero, eq_posZero_iff, eq_negZero_iff, ← or_and_right]
  constructor
  · rintro ⟨-, h⟩
    refine ⟨isFinite_of_zero h, ?_⟩
    rw [val_sign_mag, mag_eq, h]
    simp
  · rintro ⟨-, h1, h2⟩
    refine ⟨by cases sign w <;> simp, ?_⟩
    have h0 : key w = key 0#32 := le_antisymm ((key_le_iff_val _ _).2 (by rwa [val_zero]))
      ((key_le_iff_val _ _).2 (by rwa [val_zero]))
    rwa [key_zero, key_eq_zero_iff] at h0

theorem isFinite_of_isZero (h : Spec.IsZero w) : isFinite w = true := (isZero_iff_within.1 h).1

theorem val_of_isZero (h : Spec.IsZero w) : val w = 0 := by
  obtain ⟨-, hlo, hhi⟩ := isZero_iff_within.1 h
  exact le_antisymm hhi hlo

theorem isZero_add (ha : Spec.IsZero a) (hb : Spec.IsZero b) : Spec.IsZero (add a b) := by
  rw [isZero_iff_within] at *
  exact within_add ha hb isDatum_zero isDatum_zero (by norm_num) (by norm_num)

theorem isZero_sub (ha : Spec.IsZero a) (hb : Spec.IsZero b) : Spec.IsZero (sub a b) := by
  rw [isZero_iff_within] at *
  exact within_sub ha hb isDatum_zero isDatum_zero (by norm_num) (by norm_num)

/-- A zero times a finite datum; an infinity would give a NaN. -/
theorem isZero_mul_left (ha : Spec.IsZero a) (hb : isFinite b = true) : Spec.IsZero (mul a b) := by
  have h := rounds_mul (isFinite_of_isZero ha) hb
  rw [val_of_isZero ha, zero_mul] at h
  exact isZero_iff_within.2 (h.within isDatum_zero isDatum_zero le_rfl le_rfl)

theorem isZero_mul_right (ha : isFinite a = true) (hb : Spec.IsZero b) : Spec.IsZero (mul a b) := by
  have h := rounds_mul ha (isFinite_of_isZero hb)
  rw [val_of_isZero hb, mul_zero] at h
  exact isZero_iff_within.2 (h.within isDatum_zero isDatum_zero le_rfl le_rfl)

theorem isZero_toBits32 (h : Spec.IsZero w) : Spec.IsZero (toBits32 w) := by
  rwa [toBits32_of_num (isNaN_of_finite (isFinite_of_isZero h))]

/-- What a share in `[0, 1]` leaves to the dry signal. -/
theorem within_one_sub (h : Within 0 1 w) : Within 0 1 (sub 0x3F800000#32 w) :=
  within_sub within_one h isDatum_zero isDatum_one (by norm_num) (by norm_num)

theorem within_unit_mul (ha : Within 0 1 a) (hb : Within 0 1 b) : Within 0 1 (mul a b) :=
  within_mul ha hb le_rfl le_rfl isDatum_zero isDatum_one (by norm_num) (by norm_num)

/-- A finite datum's fractional part. -/
theorem within_sub_floor (h : isFinite w = true) : Within 0 1 (sub w (floor w)) := by
  obtain ⟨hf, hv⟩ := floor_finite h
  refine (rounds_sub h hf).within isDatum_zero isDatum_one ?_ ?_ <;> rw [hv]
  · exact sub_nonneg.2 (Int.floor_le _)
  · linarith [Int.lt_floor_add_one (val w)]

end Sys2Proof.Machine.F32

/-! ## Blocks without a sounding voice (spec/46_engine.md R225; spec/20_memory.md R72) -/

namespace Sys2Proof.Machine

open F32

/-- A block of an engine without a sounding voice runs the chain over zeros: what the chain keeps on words satisfying
`z`, 0 among them, the block keeps, and `z` holds of the words it leaves. -/
theorem silent_process_induct {C : Config} {p : EngineState Word → Prop} {z : Word → Prop}
    {E : EngineState Word} {n : Nat} (hn : n ≤ C.blockMax) (hscr : Mem.wf hw.zero C.blockMax E.scr = true)
    (hsilent : ∀ v ∈ E.voices, ¬Spec.Sounding v)
    (hp : p E) (hz : z 0#32) (hpscr : ∀ F m, p F → p { F with scr := m })
    (hchain : ∀ F x, p F → z x → p (F.chain hw C x).1 ∧ z (F.chain hw C x).2) :
    p (E.process hw C n) ∧ ∀ i < n, z (Mem.read hw.zero (E.process hw C n).scr i) := by
  have hvoices := runVoices_silent (N := hw) (C := C) E.prm n E.voices (Mem.zeroBelow hw.zero n E.scr) fun v hv =>
    (isActive_eq_false_iff v).2 (hsilent v hv)
  suffices h : p (E.process hw C n) ∧ Mem.wf hw.zero C.blockMax (E.process hw C n).scr = true ∧
      ∀ i < n, z (Mem.read hw.zero (E.process hw C n).scr i) from ⟨h.1, h.2.2⟩
  refine EngineState.process_induct (p := fun F => p F ∧ Mem.wf hw.zero C.blockMax F.scr = true ∧
    ∀ i < n, z (Mem.read hw.zero F.scr i)) n E ?start fun i F hi ⟨hF, hwf, hread⟩ => ?sample
  case start =>
    rw [hvoices]
    refine ⟨hpscr E _ hp, Mem.wf_zeroBelow hscr n hn, fun i hi => ?_⟩
    rwa [Mem.read_zeroBelow hscr n hn, if_pos hi, hw_zero]
  case sample =>
    obtain ⟨hF', hword⟩ := hchain F _ hF (hread i hi)
    refine ⟨hpscr _ _ hF', Mem.wf_write hwf (hi.trans_le hn) _, fun j hj => ?_⟩
    rcases eq_or_ne j i with rfl | hne
    · exact (Mem.read_write_same hwf j _).symm ▸ hword
    · exact (Mem.read_write_other hne F.scr _).symm ▸ hread j hj

theorem isZero_mix {t l volT volL master : Word} (ht : Spec.IsZero t) (hl : Spec.IsZero l) (hvt : isFinite volT = true)
    (hvl : isFinite volL = true) (hm : isFinite master = true) : Spec.IsZero (mix hw t l volT volL master) :=
  isZero_add (isZero_mul_left (isZero_mul_left ht hvt) hm) (isZero_mul_left (isZero_mul_left hl hvl) hm)

/-- PROCESS over engines whose blocks leave zeros emits zeros. -/
theorem isZero_emitted {s : State} {n : BitVec 32} (hm : isFinite s.masterVol = true)
    (hvol : ∀ e, isFinite (s.vol e) = true) (hzero : ∀ e, ∀ i < blockLength s.cfg n,
      Spec.IsZero (Mem.read hw.zero ((s.engine e).process hw s.cfg (blockLength s.cfg n)).scr i)) :
    ∀ x ∈ (s.afterProcess n).outPort.drop s.outPort.length, Spec.IsZero x.word := by
  rw [State.afterProcess_outPort, List.drop_left, State.blockSamples, List.forall_mem_map]
  intro i hi
  have hi := List.mem_range.1 hi
  refine isZero_toBits32 ?_
  rw [mixerSample_runEngines]
  exact isZero_mix (hzero .timeline i hi) (hzero .live i hi) (hvol .timeline) (hvol .live) hm

end Sys2Proof.Machine

namespace Sys2Proof.Proofs

open Sys2Proof.Machine Sys2Proof.Machine.F32

/-- Settles O38: with all six flags false the chain is the identity, so that the zeros it is given stay. -/
theorem silentBlock : Obligations.SilentBlock := by
  intro n s hwf hsilent hoff hm hl ht
  obtain ⟨hfits, -⟩ := state_wf_iff.1 hwf
  have hblock (e : EngineSel) := silent_process_induct (p := fun F => F = { s.engine e with scr := F.scr })
    (z := (· = 0#32)) (blockLength_le s.cfg n) (hfits e).scr (hsilent e) rfl rfl
    (fun F m hF => congrArg (fun G : EngineState Word => { G with scr := m }) hF) fun F x hF hx => by
      have hFoff : Spec.AllOff F := hF ▸ hoff e
      rw [chain_allOff s.cfg hFoff]
      exact ⟨hF, hx⟩
  refine ⟨_, exec_process n s, ?zeros, fun e => ?frame⟩
  case zeros =>
    refine isZero_emitted ((isFinite_iff _).2 hm) (fun e => ?_) fun e i hi => .inl ((hblock e).2 i hi)
    cases e
    exacts [(isFinite_iff _).2 hl, (isFinite_iff _).2 ht]
  case frame =>
    rw [State.afterProcess_engine, ← hw_zero]
    exact hblock e

end Sys2Proof.Proofs

/-! ## Zeros through the units of the chain (spec/46_engine.md R225; spec/44_filter.md R172; spec/47_effects.md R242,
R252, R262, R272) -/

namespace Sys2Proof.Machine

open F32

/-! ### Memories of zeros -/

theorem Mem.mem_put {i : Nat} {v : Word} {q : Nat × Word} : ∀ {m : Mem Word}, q ∈ Mem.put i v m → q = (i, v) ∨ q ∈ m
  | [], h => .inl (List.mem_singleton.1 h)
  | (j, w) :: t, h => by
    rw [put] at h
    split at h
    · exact List.mem_cons.1 h
    · split at h
      · exact (List.mem_cons.1 h).imp_right (List.mem_cons_of_mem _)
      · rcases List.mem_cons.1 h with rfl | h
        · exact .inr List.mem_cons_self
        · exact (mem_put h).imp_right (List.mem_cons_of_mem _)

theorem Mem.mem_of_mem_erase {i : Nat} {q : Nat × Word} : ∀ {m : Mem Word}, q ∈ Mem.erase i m → q ∈ m
  | (j, w) :: t, h => by
    rw [erase] at h
    split at h
    · exact h
    · split at h
      · exact List.mem_cons_of_mem _ h
      · rcases List.mem_cons.1 h with rfl | h
        · exact List.mem_cons_self
        · exact List.mem_cons_of_mem _ (mem_of_mem_erase h)

theorem zeroMem_read : ∀ {m : Mem Word}, Spec.ZeroMem m → ∀ i, Spec.IsZero (Mem.read hw.zero m i)
  | [], _, _ => hw_zero ▸ isZero_zero
  | (j, w) :: t, h, i => by
    obtain ⟨hword, ht⟩ := List.forall_mem_cons.1 h
    rw [Mem.read_cons]
    split
    · exact hword
    · exact zeroMem_read ht i

theorem zeroMem_write {m : Mem Word} {v : Word} (h : Spec.ZeroMem m) (hv : Spec.IsZero v) (i : Nat) :
    Spec.ZeroMem (Mem.write hw.zero m i v) := by
  intro q hq
  rw [Mem.write] at hq
  split at hq
  · exact h q (Mem.mem_of_mem_erase hq)
  · rcases Mem.mem_put hq with rfl | hq
    exacts [hv, h q hq]

/-! ### The units -/

theorem isZero_dryWet {x y m : Word} (hx : Spec.IsZero x) (hy : Spec.IsZero y) (hm : Within 0 1 m) :
    Spec.IsZero (dryWet hw x y m) := by
  rw [dryWet, hw_one]
  exact isZero_add (isZero_mul_left hx (within_one_sub hm).1) (isZero_mul_left hy hm.1)

/-- The filter's four state variables are zeros. -/
def FilterState.Zeros (t : FilterState Word) : Prop :=
  Spec.IsZero t.low ∧ Spec.IsZero t.band ∧ Spec.IsZero t.high ∧ Spec.IsZero t.notch

/-- R171 clamps the quotient, which is finite. -/
theorem FilterState.isFinite_normFreq {C : Config} {t : FilterState Word} (hfs : Within 1000 192000 (ofInt C.fs))
    (hc : Within 20 20000 t.cutoff) : isFinite (t.normFreq hw C) = true := by
  have h2 : Within 2 2 0x40000000#32 := by exact_mod_cast within_ofInt (n := 2) (by decide)
  have hmul : Within 0 40000 (mul 0x40000000#32 t.cutoff) :=
    within_mul h2 hc (by norm_num) (by norm_num) isDatum_zero (by exact_mod_cast isDatum_nat (n := 40000) (by omega))
      (by norm_num) (by norm_num)
  have hne : val (ofInt C.fs) ≠ 0 := by linarith [hfs.2.1]
  have hin := inRange_clamp (lo := 0#32) (hi := 0x3F000000#32) (rounds_div hmul.1 hfs.1 hne).num (by decide)
  rw [normFreq_hw]
  exact ((inRange_iff_within (by decide) (by decide)).1 hin).1

theorem FilterState.Zeros.process {C : Config} {t : FilterState Word} {x : Word} (h : t.Zeros)
    (hf : isFinite (t.normFreq hw C) = true) (hq : isFinite t.q = true) (hx : Spec.IsZero x) (mode : FilterMode) :
    (t.process hw C mode x).1.Zeros ∧ Spec.IsZero (t.process hw C mode x).2 := by
  obtain ⟨hl, hb, -, -⟩ := h
  have hlow : Spec.IsZero (t.step hw C x).low := isZero_add hl (isZero_mul_right hf hb)
  have hhigh : Spec.IsZero (t.step hw C x).high := isZero_sub (isZero_sub hx hlow) (isZero_mul_right hq hb)
  have hband : Spec.IsZero (t.step hw C x).band := isZero_add hb (isZero_mul_right hf hhigh)
  have hnotch : Spec.IsZero (t.step hw C x).notch := isZero_add hhigh hlow
  refine ⟨⟨hlow, hband, hhigh, hnotch⟩, ?_⟩
  cases mode
  exacts [hlow, hhigh, hband]

theorem delay_process_zero {C : Config} {d : DelayState Word} {x : Word} (h : Spec.ZeroMem d.mem)
    (hfb : isFinite d.feedback = true) (hm : Within 0 1 d.mix) (hx : Spec.IsZero x) :
    Spec.ZeroMem (d.process hw C x).1.mem ∧ Spec.IsZero (d.process hw C x).2 := by
  have hy := zeroMem_read h (idxBack C.delayLen d.w (d.samples hw C))
  exact ⟨zeroMem_write h (isZero_add hx (isZero_mul_left hy hfb)) _, isZero_dryWet hx hy hm⟩

/-- The interpolation between two words that are zeros, at a finite delay. -/
theorem flanger_process_zero {C : Config} {f : FlangerState Word} {x : Word} (h : Spec.ZeroMem f.mem)
    (hdl : isFinite (f.delay hw C (Spec.phaseOn C f.phase f.rate)) = true) (hfb : isFinite f.feedback = true)
    (hm : Within 0 1 f.mix) (hx : Spec.IsZero x) :
    Spec.ZeroMem (f.process hw C x).1.mem ∧ Spec.IsZero (f.process hw C x).2 := by
  have hy {i j : Nat} : Spec.IsZero (add (Mem.read hw.zero f.mem i) (mul (sub (Mem.read hw.zero f.mem j)
      (Mem.read hw.zero f.mem i)) (sub (f.delay hw C (Spec.phaseOn C f.phase f.rate))
        (floor (f.delay hw C (Spec.phaseOn C f.phase f.rate)))))) :=
    isZero_add (zeroMem_read h i)
      (isZero_mul_left (isZero_sub (zeroMem_read h j) (zeroMem_read h i)) (within_sub_floor hdl).1)
  exact ⟨zeroMem_write h (isZero_add hx (isZero_mul_left hy hfb)) _, isZero_dryWet hx hy hm⟩

theorem tremolo_process_zero {C : Config} {t : TremoloState Word} {x : Word} (hd : Within 0 1 t.depth)
    (hp : inUnit (Spec.phaseOn C t.phase t.rate) = true) (hx : Spec.IsZero x) : Spec.IsZero (t.process hw C x).2 := by
  have hgain := within_one_sub (within_unit_mul hd (swing_within hp))
  rw [← hw_one, Spec.swing, ← hw_half] at hgain
  exact isZero_mul_left hx hgain.1

/-- A comb's filter and its memory hold zeros. -/
def CombState.Zeros (c : CombState Word) : Prop := Spec.IsZero c.lp ∧ Spec.ZeroMem c.mem

theorem CombState.Zeros.process {c : CombState Word} (h : c.Zeros) {fb d1 d2 input acc : Word}
    (hfb : isFinite fb = true) (hd1 : isFinite d1 = true) (hd2 : isFinite d2 = true) (hin : Spec.IsZero input)
    (hacc : Spec.IsZero acc) (len : Nat) :
    (c.process hw len fb d1 d2 input acc).1.Zeros ∧ Spec.IsZero (c.process hw len fb d1 d2 input acc).2 := by
  have hy := zeroMem_read h.2 c.ci
  have hlp := isZero_add (isZero_mul_left hy hd2) (isZero_mul_left h.1 hd1)
  exact ⟨⟨hlp, zeroMem_write h.2 (isZero_add hin (isZero_mul_left hlp hfb)) _⟩, isZero_add hacc hy⟩

theorem allPass_process_zero {a : AllPassState Word} (h : Spec.ZeroMem a.mem) {g acc : Word} (hg : isFinite g = true)
    (hacc : Spec.IsZero acc) (len : Nat) :
    Spec.ZeroMem (a.process hw len g acc).1.mem ∧ Spec.IsZero (a.process hw len g acc).2 := by
  have hb := zeroMem_read h a.ai
  have hv := isZero_add hacc (isZero_mul_left hb hg)
  exact ⟨zeroMem_write h hv _, isZero_sub hb (isZero_mul_left hv hg)⟩

/-- The combs and all-passes hold zeros. -/
structure ReverbState.Zeros (r : ReverbState Word) : Prop where
  k0 : r.combs.k0.Zeros
  k1 : r.combs.k1.Zeros
  k2 : r.combs.k2.Zeros
  k3 : r.combs.k3.Zeros
  j0 : Spec.ZeroMem r.aps.j0.mem
  j1 : Spec.ZeroMem r.aps.j1.mem

/-- With the default gains, all of them in `[0, 1]`. -/
theorem ReverbState.Zeros.process {r : ReverbState Word} (h : r.Zeros) (hroom : Within 0 1 r.room)
    (hdamp : Within 0 1 r.damp) {x : Word} (hx : Spec.IsZero x) :
    (r.process hw Config.default x).1.Zeros ∧ Spec.IsZero (r.process hw Config.default x).2 := by
  have hunit {d : Dec} (hd : inRange 0#32 0x3F800000#32 (hw.ofDec d) = true) : Within 0 1 (hw.ofDec d) :=
    inRange_unit_iff.1 hd
  have hfb : Within 0 2 (add (hw.ofDec Config.default.revFbBase) (mul (hw.ofDec Config.default.revFbScale) r.room)) :=
    within_add (hunit (by decide)) (within_unit_mul (hunit (by decide)) hroom) isDatum_zero isDatum_two (by norm_num)
      (by norm_num)
  have hd1 : Within 0 1 (mul (hw.ofDec Config.default.revDampScale) r.damp) :=
    within_unit_mul (hunit (by decide)) hdamp
  have hd2 := within_one_sub hd1
  rw [← hw_one] at hd2
  have hin : Spec.IsZero (mul x (hw.ofDec Config.default.revInGain)) := isZero_mul_left hx (by decide)
  have h0 := h.k0.process hfb.1 hd1.1 hd2.1 hin (hw_zero ▸ isZero_zero) Config.default.combLen.k0
  have h1 := h.k1.process hfb.1 hd1.1 hd2.1 hin h0.2 Config.default.combLen.k1
  have h2 := h.k2.process hfb.1 hd1.1 hd2.1 hin h1.2 Config.default.combLen.k2
  have h3 := h.k3.process hfb.1 hd1.1 hd2.1 hin h2.2 Config.default.combLen.k3
  have hg : isFinite (hw.ofDec Config.default.revApG) = true := by decide
  have h4 := allPass_process_zero h.j0 hg h3.2 Config.default.apLen.j0
  have h5 := allPass_process_zero h.j1 hg h4.2 Config.default.apLen.j1
  exact ⟨⟨h0.1, h1.1, h2.1, h3.1, h4.1, h5.1⟩, isZero_dryWet hx h5.2 (hunit (by decide))⟩

end Sys2Proof.Machine

/-! ## Silence is kept (spec/46_engine.md R225) -/

namespace Sys2Proof.Machine

open F32

/-! ### The chain and a block -/

/-- A stage that keeps its unit at zero and returns a zero does so under its flag. -/
theorem zero_under_flag {σ : Type} {Z : σ → Prop} {r : σ × Word} {t : σ} {x : Word} (hr : Z r.1 ∧ Spec.IsZero r.2)
    (ht : Z t) (hx : Spec.IsZero x) (b : Bool) :
    Z (if b then r else (t, x)).1 ∧ Spec.IsZero (if b then r else (t, x)).2 := by
  cases b
  exacts [⟨ht, hx⟩, hr]

theorem reverb_zeros {E : EngineState Word} (h : Spec.Quiet E) : E.rev.Zeros := by
  obtain ⟨-, -, -, -, ⟨l0, l1, l2, l3⟩, ⟨m0, m1, m2, m3⟩, a0, a1⟩ := h
  exact ⟨⟨l0, m0⟩, ⟨l1, m1⟩, ⟨l2, m2⟩, ⟨l3, m3⟩, a0, a1⟩

theorem defaultBounds_default : DefaultBounds Config.default := defaultBounds_of (by decide)

theorem isFinite_of_inRange {lo hi w : Word} (h : inRange lo hi w = true) (hlo : isFinite lo = true)
    (hhi : isFinite hi = true) : isFinite w = true := ((inRange_iff_within hlo hhi).1 h).1

/-- The engine the stages after the LFO are fed with. -/
def EngineState.modulated (E : EngineState Word) : EngineState Word :=
  if E.lfoRoute then E.lfoStage hw Config.default else E

theorem modulated_quiet {E : EngineState Word} (h : Spec.Quiet E) : Spec.Quiet E.modulated := by
  unfold EngineState.modulated
  split
  exacts [{ h with voices := h.voices }, h]

/-- The filter's coefficients are finite, whether the cutoff is the LFO's or the register's. -/
theorem isFinite_modulated {E : EngineState Word} (h : EngineInRange Config.default E) :
    isFinite (E.modulated.flt.normFreq hw Config.default) = true ∧ isFinite E.modulated.flt.q = true := by
  have hwf : Config.default.wf = true := by decide
  have hb := defaultBounds_default
  have hfs := fs_within_of_wf hwf
  have hq : isFinite E.flt.q = true := isFinite_of_inRange h.regs.q (by decide) (by decide)
  unfold EngineState.modulated
  split
  · exact ⟨FilterState.isFinite_normFreq hfs (hb.cutoff_within (cutoff_lfoStage hwf hb h)), hq⟩
  · exact ⟨FilterState.isFinite_normFreq hfs (hb.cutoff_within h.cutoff), hq⟩

/-- R222 of an engine at zero: from registers in their ranges each stage, enabled or not, passes the zero on. -/
theorem chain_quiet {E : EngineState Word} (hE : EngineInRange Config.default E) (hq : Spec.Quiet E) {x : Word}
    (hx : Spec.IsZero x) :
    Spec.Quiet (E.chain hw Config.default x).1 ∧ Spec.IsZero (E.chain hw Config.default x).2 := by
  have hwf : Config.default.wf = true := by decide
  have hb := defaultBounds_default
  have hr := hE.regs
  have hq1 := modulated_quiet hq
  obtain ⟨hfreq, hfin⟩ := isFinite_modulated hE
  have hfbFinite {w : Word} (h : inRange hw.zero (hw.ofDec Config.default.fbMax) w = true) : isFinite w = true :=
    isFinite_of_inRange h (by decide) (by decide)
  have hdelay := flanger_delay_within (C := Config.default) (f := E.flg) (by decide) (by decide) rfl rfl
    (within_of_unit hr.flgDepth) (phase_inUnit hwf hb hE.flgPhase hr.flgRate)
  have hflt := zero_under_flag (Z := FilterState.Zeros)
    (FilterState.Zeros.process hq1.filter hfreq hfin hx E.fltMode) hq1.filter hx E.fltEnable
  have hflg := zero_under_flag (Z := fun f : FlangerState Word => Spec.ZeroMem f.mem)
    (flanger_process_zero hq.flange hdelay.1 (hfbFinite hr.flgFeedback) (within_of_unit hr.flgMix) hflt.2)
    hq.flange hflt.2 E.flgEnable
  have htrm := zero_under_flag (Z := fun _ : TremoloState Word => True) (t := E.trm)
    ⟨trivial, tremolo_process_zero (within_of_unit hr.trmDepth) (phase_inUnit hwf hb hE.trmPhase hr.trmRate) hflg.2⟩
    trivial hflg.2 E.trmEnable
  have hdly := zero_under_flag (Z := fun d : DelayState Word => Spec.ZeroMem d.mem)
    (delay_process_zero (C := Config.default) hq.delay (hfbFinite hr.dlyFeedback) (within_of_unit hr.dlyMix)
      htrm.2) hq.delay htrm.2 E.dlyEnable
  have hrev := zero_under_flag (Z := ReverbState.Zeros)
    ((reverb_zeros hq).process (within_of_unit hr.revRoom) (within_of_unit hr.revDamp) hdly.2) (reverb_zeros hq) hdly.2
    E.revEnable
  rw [chain_eq]
  obtain ⟨⟨k0, k1, k2, k3, j0, j1⟩, hout⟩ := hrev
  exact ⟨⟨hq1.voices, hflt.1, hdly.1, hflg.1, ⟨k0.1, k1.1, k2.1, k3.1⟩, ⟨k0.2, k1.2, k2.2, k3.2⟩, j0, j1⟩, hout⟩

/-- A block of a quiet engine. -/
theorem process_quiet {E : EngineState Word} (hfit : Fits Config.default E) (hE : EngineInRange Config.default E)
    (hq : Spec.Quiet E) {n : Nat} (hn : n ≤ Config.default.blockMax) :
    Spec.Quiet (E.process hw Config.default n) ∧
      ∀ i < n, Spec.IsZero (Mem.read hw.zero (E.process hw Config.default n).scr i) := by
  obtain ⟨⟨-, hq'⟩, hzero⟩ := silent_process_induct (p := fun F => EngineInRange Config.default F ∧ Spec.Quiet F)
    (z := fun w => Spec.IsZero w) hn hfit.scr hq.voices ⟨hE, hq⟩ isZero_zero
    (fun F m ⟨hF, hqF⟩ => ⟨{ hF with regs := hF.regs }, { hqF with voices := hqF.voices }⟩) fun F x ⟨hF, hqF⟩ hx =>
      ⟨⟨hF.chain (by decide) defaultBounds_default x, (chain_quiet hF hqF hx).1⟩, (chain_quiet hF hqF hx).2⟩
  exact ⟨hq', hzero⟩

/-! ### Commands -/

theorem quiet_reset (C : Config) : Spec.Quiet (EngineState.reset hw C) := by
  rw [engine_reset_eq]
  refine ⟨fun v hv => ?_, ?_, nofun, nofun, ?_, ⟨nofun, nofun, nofun, nofun⟩, nofun, nofun⟩
  · rw [List.eq_of_mem_replicate hv]
    decide
  · exact ⟨isZero_zero, isZero_zero, isZero_zero, isZero_zero⟩
  · exact ⟨isZero_zero, isZero_zero, isZero_zero, isZero_zero⟩

/-- The two commands that write a voice not sounding (R213, R216). -/
def IsNote (i : Instr) : Prop := (∃ e a f, i = .noteOn e a f) ∨ ∃ e a, i = .noteOff e a

theorem not_isNote_executedAs {d : Decoded}
    (h : ∀ e a, d ≠ .command (.noteOff e a) ∧ ∀ f, d ≠ .command (.noteOn e a f)) : ¬IsNote d.executedAs := by
  cases d with
  | command i =>
    rintro (⟨e, a, f, rfl⟩ | ⟨e, a, rfl⟩)
    exacts [(h e a).2 f rfl, (h e a).1 rfl]
  | reservedOpcode | reservedStopAllLive => rintro (⟨_, _, _, h⟩ | ⟨_, _, h⟩) <;> cases h

/-- R219: among silent voices none is released. -/
theorem stopAll_silent {E : EngineState Word} (h : ∀ v ∈ E.voices, ¬Spec.Sounding v) : E.stopAll = E := by
  have hmap : (E.voices.map fun v => if v.isActive then v.noteOff else v) = E.voices :=
    (List.map_congr_left fun v hv => by rw [(isActive_eq_false_iff v).2 (h v hv)]; rfl).trans (List.map_id _)
  rw [EngineState.stopAll, hmap]

/-- Of the commands' effects none writes a memory or a state variable of the filter, and those of the notes alone a
silent voice. -/
theorem quiet_engineEffect {C : Config} {E : EngineState Word} (h : Spec.Quiet E) {i : Instr} (hi : ¬IsNote i) :
    Spec.Quiet (engineEffect C i E) := by
  cases i
  case noteOn e a f => exact absurd (.inl ⟨e, a, f, rfl⟩) hi
  case noteOff e a => exact absurd (.inr ⟨e, a, rfl⟩) hi
  case stopAllNotes e =>
    cases e
    · exact h
    · change Spec.Quiet E.stopAll
      rwa [stopAll_silent h.voices]
  case setLfoRoute e a =>
    change Spec.Quiet (E.setLfoRoute (boolOperand a))
    cases boolOperand a <;> exact { h with voices := h.voices }
  all_goals exact { h with voices := h.voices }

/-! ### The state -/

section State

variable {s t : State} (h : Spec.Silent s)
include h

theorem silent_process (e : EngineSel) (n : BitVec 32) :
    Spec.Quiet ((s.engine e).process hw s.cfg (blockLength s.cfg n)) ∧ ∀ i < blockLength s.cfg n,
      Spec.IsZero (Mem.read hw.zero ((s.engine e).process hw s.cfg (blockLength s.cfg n)).scr i) := by
  obtain ⟨hfits, -⟩ := state_wf_iff.1 h.wf
  obtain ⟨hin, -⟩ := state_inRanges_iff.1 h.inRanges
  have hlen := blockLength_le s.cfg n
  rw [h.cfg] at hfits hin hlen ⊢
  exact process_quiet (hfits e) (hin e) (h.quiet e) hlen

theorem quiet_of_executes {i : Instr} (hi : ¬IsNote i) (ht : Executes i s t) (e : EngineSel) :
    Spec.Quiet (t.engine e) := by
  cases ht with
  | nothing | respond | masterVol => exact h.quiet e
  | reset => cases e <;> exact quiet_reset _
  | process n => exact State.afterProcess_engine s n e ▸ (silent_process h e n).1
  | engine e' => exact State.forall_engine_updEngine h.quiet (fun hE => quiet_engineEffect hE hi) e
  | engineVol e' => exact (State.setVol_engine s e' e _).symm ▸ h.quiet e

end State

theorem cfg_of_executes {i : Instr} {s t : State} (h : Executes i s t) : t.cfg = s.cfg := by
  cases h with
  | nothing | respond | masterVol | reset | process => rfl
  | engine => exact State.updEngine_cfg _ _ _
  | engineVol => exact State.setVol_cfg _ _ _

end Sys2Proof.Machine

namespace Sys2Proof.Proofs

open Sys2Proof.Machine Sys2Proof.Machine.F32

theorem silent_reset : Spec.Silent State.reset where
  cfg := rfl
  wf := resetMeetsInvariants.1
  inRanges := resetMeetsInvariants.2.1
  quiet e := by cases e <;> exact quiet_reset _

/-- Settles O39: the two invariants by their step lemmas, and zeros through every command but the notes'. -/
theorem quietStaysQuiet : Obligations.QuietStaysQuiet := by
  refine ⟨silent_reset, fun s t hs hstep hcmd => ?step, fun n s hs => ?process⟩
  case step =>
    have hcfg : t.cfg = s.cfg := step_keeps (p := fun u => u.cfg = s.cfg) hstep rfl (fun _ => rfl)
      (fun _ => State.drain_cfg s) fun _ rest _ _ _ ht => cfg_of_executes (s := { s with cmdIn := rest }) ht
    have hbounds : hasDefaultBounds s.cfg = true := hs.cfg ▸ by decide
    refine ⟨hcfg.trans hs.cfg, stepKeepsWf s t hs.wf hstep, stepKeepsRanges s t hbounds hs.inRanges hstep, fun e => ?_⟩
    obtain ⟨-, ⟨-, rfl⟩ | ⟨-, -, rfl⟩ | ⟨-, -, -, rfl⟩ | ⟨-, -, w, rest, hc, hexec⟩⟩ := step_cases hstep
    · cases e <;> exact quiet_reset _
    · exact (State.drain_engine s e).symm ▸ hs.quiet e
    · exact hs.quiet e
    · have hi := not_isNote_executedAs fun e a => hcmd w rest e a hc
      exact quiet_of_executes (s := { s with cmdIn := rest }) ⟨hs.cfg, hs.wf, hs.inRanges, hs.quiet⟩ hi
        (executes_of_exec hexec) e
  case process =>
    obtain ⟨-, hmaster, hvol⟩ := state_inRanges_iff.1 hs.inRanges
    refine ⟨_, exec_process n s, fun e => ?_, isZero_emitted (within_of_unit hmaster).1 (fun e => ?_) fun e =>
      (silent_process hs e n).2⟩
    · rw [State.afterProcess_engine]
      exact (silent_process hs e n).1
    · have hv := hvol e
      rw [hs.cfg] at hv
      exact isFinite_of_inRange hv (by decide) (by decide)

end Sys2Proof.Proofs

/-! ## The delay's, the reverb's, the tremolo's and the flanger's registers (spec/47_effects.md R244 to R278) -/

namespace Sys2Proof.Proofs

open Sys2Proof.Machine

/-- Settles O23: seven setters of one engine's registers. -/
theorem delayAndReverbCommands : Obligations.DelayAndReverbCommands := by
  unfold Obligations.DelayAndReverbCommands
  simp only [clampTo_eq, clampUnit_eq, ← boolOperand_eq]
  exact ⟨intSetter, numSetter, numSetter, numSetter, by decide, by decide, intSetter, numSetter, numSetter⟩

/-- Settles O24: eight setters of one engine's registers. -/
theorem tremoloAndFlangerCommands : Obligations.TremoloAndFlangerCommands := by
  unfold Obligations.TremoloAndFlangerCommands
  simp only [clampTo_eq, clampUnit_eq, ← boolOperand_eq]
  exact ⟨intSetter, numSetter, numSetter, intSetter, numSetter, numSetter, numSetter, numSetter⟩

end Sys2Proof.Proofs

/-! ## The volumes (spec/48_mixer.md R298, R300) -/

namespace Sys2Proof.Machine

theorem exec_setMasterVolume {f : BitVec 32} (hf : F32.isNaN f = false) (s : State) :
    exec (.setMasterVolume f) s = .next { s with masterVol := hw.clamp f hw.zero hw.one } :=
  if_neg (Bool.eq_false_iff.1 hf)

/-- A command with a `Num` operand is discarded by a NaN, and else answers `t` of the state. -/
theorem exec_num {i : Instr} {f : BitVec 32} (hi : Spec.numOperand i = some f) {s t : State}
    (hexec : F32.isNaN f = false → exec i s = .next t) : exec i s = .next (if Spec.IsNaN f then s else t) := by
  by_cases hf : Spec.IsNaN f
  · rw [if_pos hf]
    exact Proofs.exec_of_nan hi ((F32.isNaN_iff f).2 hf) s
  · rw [if_neg hf]
    exact hexec ((F32.isNaN_eq_false_iff f).2 hf)

end Sys2Proof.Machine

namespace Sys2Proof.Proofs

open Sys2Proof.Machine

/-- Settles O18: the two commands by their opcodes, each clamping its operand into one register. -/
theorem volumeCommands : Obligations.VolumeCommands := by
  unfold Obligations.VolumeCommands
  simp only [clampTo_eq, clampUnit_eq]
  exact ⟨fun w (h : (fieldOP w).toNat = 0x04) => by rw [decode, h]; rfl,
    fun f s => exec_num rfl fun hf => exec_setMasterVolume hf s,
    fun w (h : (fieldOP w).toNat = 0x05) => by rw [decode, h]; rfl,
    fun f s => exec_num rfl fun hf => exec_setEngineVolume .live hf s,
    fun f s => exec_num rfl fun hf => exec_setEngineVolume .timeline hf s, by decide⟩

end Sys2Proof.Proofs

/-! ## PROCESS, and the system commands (spec/48_mixer.md R292 to R296; spec/49_system.md R310 to R314) -/

namespace Sys2Proof.Machine

/-- Only GET_SAMPLE_RATE and RESET touch the response port. -/
theorem rsp_of_exec {i : Instr} {s t : State} (h : exec i s = .next t) :
    t.rsp = s.rsp ∨ i = .getSampleRate ∨ (i = .reset ∧ t.rsp = []) := by
  cases he : Spec.engineOf i with
  | some e =>
    left
    rcases exec_engine_cases he with hs | ⟨-, hs⟩ | ⟨f, -, hs⟩ <;> cases (hs s).symm.trans h
    · rfl
    · exact State.updEngine_rsp _ _ _
    · exact State.setVol_rsp _ _ _
  | none =>
    cases i <;> simp only [Spec.engineOf, reduceCtorEq] at he
    case nop => cases h; exact .inl rfl
    case reset => cases h; exact .inr (.inr ⟨rfl, rfl⟩)
    case getSampleRate => exact .inr (.inl rfl)
    case process n => cases h; exact .inl rfl
    case setMasterVolume f =>
      cases (exec_num rfl fun hf => exec_setMasterVolume hf s).symm.trans h
      left
      split <;> rfl

/-- `rst_n` low: the hardware reset, whatever the block was doing. -/
theorem step_rst {s : State} (hwf : s.cfg.wf = true) (hr : s.rst = true) :
    step s = .next { s.afterReset hw with rst := false } := by
  simp [step, stepWith, hwf, hr]

end Sys2Proof.Machine

namespace Sys2Proof.Proofs

open Sys2Proof.Machine

/-- Settles O33: PROCESS by its definition, the mixing formula written out. -/
theorem processBlock : Obligations.ProcessBlock := by
  refine ⟨fun w (h : (fieldOP w).toNat = 0x03) => by rw [decode, h]; rfl, fun n s => (exec_process n s).trans ?_⟩
  rw [← hw_zero]
  rfl

/-- Settles O9: both are the reset of the same configuration with the host's side kept. -/
theorem resetEffect : Obligations.ResetEffect := ⟨fun _ => rfl, fun _ => step_rst⟩

/-- Settles O17: both by their definitions; every other command leaves the response port, or empties it, and a legal
`FS` fits 32 bits. -/
theorem nopAndSampleRate : Obligations.NopAndSampleRate := by
  refine ⟨fun _ => rfl, fun _ => rfl, fun _ _ _ => rsp_of_exec, fun C hC => ?_,
    fun w (h : (fieldOP w).toNat = 0x00) => by rw [decode, h]; rfl,
    fun w (h : (fieldOP w).toNat = 0x02) => by rw [decode, h]; rfl⟩
  obtain ⟨-, hfs⟩ := fs_bounds hC
  rw [BitVec.toNat_ofNat, Nat.mod_eq_of_lt (by omega)]

end Sys2Proof.Proofs

/-! ## No command fails, and no step changes the configuration (spec/60_exceptions.md R320;
spec/70_reset_and_hazards.md R352) -/

namespace Sys2Proof.Machine

section AnyNumerics

variable {α : Type} {N : Numerics α}

/-- Where every command completes, a step of a legal configuration does. -/
theorem stepWith_next {ex : Instr → State α → Host.Outcome (State α) Fault Refusal} (hex : ∀ i s, ∃ t, ex i s = .next t)
    {s : State α} (hwf : s.cfg.wf = true) : ∃ t, stepWith N ex s = .next t := by
  rw [stepWith, if_pos hwf]
  split_ifs
  · exact ⟨_, rfl⟩
  · exact ⟨_, rfl⟩
  · split
    · exact ⟨_, rfl⟩
    · exact hex _ _

variable [DecidableEq α] (N)

/-- No command has a branch that is not a next state: those without a `Num` operand answer one directly, the others
(`withNum`) with the operand a NaN and with it none. -/
theorem execAt_next (i : Instr) (s : State α) : ∃ t, execAt N i s = .next t := by
  cases i
  case nop | reset | getSampleRate | process | noteOff | setWaveform | setFilterMode | setFilterEnable |
      setLfoWaveform | setLfoRoute | setDelayEnable | setReverbEnable | setTremoloEnable | setFlangerEnable =>
    exact ⟨_, rfl⟩
  case stopAllNotes e => cases e <;> exact ⟨_, rfl⟩
  all_goals
    rename_i f
    by_cases hf : F32.isNaN f = true
    · exact ⟨_, if_pos hf⟩
    · exact ⟨_, if_neg hf⟩

end AnyNumerics

theorem cfg_of_step {s t : State} (h : step s = .next t) : t.cfg = s.cfg :=
  step_keeps (p := fun u => u.cfg = s.cfg) h rfl (fun _ => rfl) (fun _ => State.drain_cfg s)
    fun _ rest _ _ _ ht => cfg_of_executes (s := { s with cmdIn := rest }) ht

/-- What every step keeps, every run keeps. -/
theorem run_keeps {p : State → Prop} (hstep : ∀ s t, p s → step s = .next t → p t) :
    ∀ (k : Nat) {s t : State}, p s → Spec.run k s = .next t → p t
  | 0, _, _, hs, h => by cases h; exact hs
  | k + 1, s, t, hs, h => by
    cases hu : step s with
    | next u =>
      rw [run_succ hu] at h
      exact run_keeps hstep k (hstep s u hs hu) h
    | fault r => cases r
    | refused r => simp [Spec.run, Host.Core.run, core, hu] at h

end Sys2Proof.Machine

namespace Sys2Proof.Proofs

open Sys2Proof.Machine

/-- Settles O12: the machine at any numerics record never fails, and the machine is that one at `hw`. -/
theorem neverFails : Obligations.NeverFails := by
  refine ⟨fun i s => ?_, fun s hwf => ?_, fun α _ N => ⟨execAt_next N, fun _ => stepWith_next (execAt_next N)⟩⟩
  · rw [exec_eq_execAt]
    exact execAt_next hw i s
  · rw [step_eq_stepAt]
    exact stepWith_next (execAt_next hw) hwf

/-- Settles O16: every step keeps the configuration, and so does every run. -/
theorem configIsConstant : Obligations.ConfigIsConstant :=
  ⟨fun _ _ => cfg_of_step, fun k s _ =>
    run_keeps (p := fun u => u.cfg = s.cfg) (fun _ _ hc h => (cfg_of_step h).trans hc) k rfl⟩

end Sys2Proof.Proofs

/-! ## The tremolo (spec/47_effects.md R262) -/

namespace Sys2Proof.Machine

open F32

section Tremolo

variable {C : Config} {phase rate depth : Word}

/-- A modulator's phase one sample on, at a rate of up to 20 Hz: the increment is below 1. -/
theorem phaseOn_inUnit (hfs : Within 1000 192000 (ofInt C.fs)) (hrate : Within 0 20 rate)
    (hphase : inUnit phase = true) :
    inUnit (Spec.phaseOn C phase rate) = true := by
  obtain ⟨hphase, -⟩ := (inUnit_iff phase).1 hphase
  have hpos : 0 < val (ofInt C.fs) := by linarith [hfs.2.1]
  have hinc : Within 0 1 (div rate (ofInt C.fs)) := by
    refine (rounds_div hrate.1 hfs.1 hpos.ne').within isDatum_zero isDatum_one (div_nonneg hrate.2.1 hpos.le) ?_
    exact (div_le_one hpos).2 (by linarith [hrate.2.2, hfs.2.1])
  have hsum := within_add hphase hinc isDatum_zero isDatum_two (by norm_num) (by norm_num)
  exact wrap01_inUnit hsum.1 hsum.2.1

theorem tremolo_gain_within (hdepth : Within 0 1 depth) (hphase : inUnit phase = true) :
    Within 0 1 (sub 0x3F800000#32 (mul depth (Spec.swing phase))) :=
  within_one_sub (within_unit_mul hdepth (swing_within hphase))

/-- At depth 0, of either sign, the swing does not reach the gain. -/
theorem tremolo_gain_depth_zero (hdepth : F32.eq depth 0#32 = true) (hphase : inUnit phase = true) :
    sub 0x3F800000#32 (mul depth (Spec.swing phase)) = 0x3F800000#32 := by
  have hzero : Spec.IsZero depth := by
    rcases eq_cases hdepth with h | ⟨h, -⟩
    · exact .inl h
    · exact (isZero_iff depth).2 h
  rcases isZero_mul_left hzero (swing_within hphase).1 with h | h <;> rw [h] <;> decide

end Tremolo

theorem tremolo_process_eq (C : Config) (t : TremoloState Word) (x : Word) :
    let phase := Spec.phaseOn C t.phase t.rate
    t.process hw C x =
      (⟨t.rate, t.depth, phase⟩, F32.mul x (F32.sub 0x3F800000#32 (F32.mul t.depth (Spec.swing phase)))) := by
  intro phase
  rw [Spec.swing, ← hw_half, ← hw_one]
  rfl

theorem val_twenty : val 0x41A00000#32 = 20 := by
  have h : scaled 0x41A00000#32 = 20 * 2 ^ 149 := by decide
  rw [val, h]
  norm_num

end Sys2Proof.Machine

namespace Sys2Proof.Proofs

open Sys2Proof.Machine Sys2Proof.Machine.F32

/-- Settles O53: the step by its definition, and the bounds from those of the swing. -/
theorem tremoloGain : Obligations.TremoloGain := by
  refine fun C t x => ⟨tremolo_process_eq C t x, fun hlo hhi hrate hdepth hphase => ?_⟩
  rw [inRange_iff_within (by decide) (by decide), val_zero, val_twenty] at hrate
  rw [inRange_unit_iff] at hdepth ⊢
  have hphase' := phaseOn_inUnit (fs_within hlo hhi) hrate hphase
  exact ⟨hphase', tremolo_gain_within hdepth hphase', fun hzero => tremolo_gain_depth_zero hzero hphase'⟩

end Sys2Proof.Proofs

/-! ## Splitting a block (spec/48_mixer.md R297; spec/45_voice.md R194) -/

namespace Sys2Proof.Machine

/-! ### The chain -/

theorem chainOver_withBuffers (C : Config) (x : Nat → Word) (V : List (VoiceState Word)) (m : Mem Word)
    (E : EngineState Word) (n : Nat) :
    (E.withBuffers V m).chainOver C x n = (E.chainOver C x n).withBuffers V m := by
  induction n with
  | zero => rfl
  | succ n ih =>
    rw [chainOver_succ, ih, chain_withBuffers]
    rfl

theorem chainWord_withBuffers (C : Config) (x : Nat → Word) (V : List (VoiceState Word)) (m : Mem Word)
    (E : EngineState Word) (i : Nat) : (E.withBuffers V m).chainWord C x i = E.chainWord C x i := by
  rw [EngineState.chainWord, chainOver_withBuffers, chain_withBuffers]
  rfl

theorem chainOver_add (C : Config) (x : Nat → Word) (E : EngineState Word) (a b : Nat) :
    E.chainOver C x (a + b) = (E.chainOver C x a).chainOver C (fun i => x (a + i)) b := by
  induction b with
  | zero => rfl
  | succ b ih => rw [← Nat.add_assoc, chainOver_succ, ih, chainOver_succ]

theorem chainWord_add (C : Config) (x : Nat → Word) (E : EngineState Word) (a i : Nat) :
    E.chainWord C x (a + i) = (E.chainOver C x a).chainWord C (fun i => x (a + i)) i := by
  rw [EngineState.chainWord, chainOver_add, EngineState.chainWord]

/-! ### The voices: the age moves once a block, and nothing reads it -/

/-- The voice without its age. -/
def VoiceState.ageless (v : VoiceState Word) : VoiceState Word := { v with age := 0 }

section Voices

variable {C : Config} (P : VoiceParams Word)

/-- A sounding voice's block is its samples, but for the age. -/
theorem ageless_process {v : VoiceState Word} (h : v.isActive = true) (n : Nat) (buf : Mem Word) :
    (v.process hw C P n buf).1.ageless = (fun u : VoiceState Word => (u.tick hw C P).1)^[n] v.ageless := by
  induction n with
  | zero => rw [VoiceState.process_sounding P 0 h]; rfl
  | succ n ih =>
    rw [voice_process_succ P h, Function.iterate_succ_apply', ← ih]
    rfl

/-- A block of `a + i` samples is one of `a` and one of `i`, but for the age, if the voice sounds after the first as it
did before. -/
theorem ageless_process_add {v : VoiceState Word} {a : Nat}
    (h : (v.process hw C P a []).1.isActive = v.isActive) (i : Nat) :
    (v.process hw C P (a + i) []).1.ageless = ((v.process hw C P a []).1.process hw C P i []).1.ageless := by
  cases hv : v.isActive with
  | false => simp only [VoiceState.process_silent P _ hv]
  | true =>
    rw [ageless_process P (h.trans hv), ageless_process P hv, ageless_process P hv, Nat.add_comm a i,
      Function.iterate_add_apply]

/-- A silent voice is silent after a block. -/
theorem isActive_process {v : VoiceState Word} {n : Nat} {buf : Mem Word}
    (h : v.isActive = true → (v.process hw C P n buf).1.isActive = true) :
    (v.process hw C P n buf).1.isActive = v.isActive := by
  cases hv : v.isActive with
  | false => rw [VoiceState.process_silent P n hv, hv]
  | true => exact h hv

theorem beforeSample_add {v : VoiceState Word} {a : Nat} (h : (v.process hw C P a []).1.isActive = v.isActive)
    (i : Nat) :
    Prod.map id VoiceState.ageless (v.beforeSample C P (a + i)) =
      Prod.map id VoiceState.ageless ((v.process hw C P a []).1.beforeSample C P i) :=
  Prod.ext h.symm (ageless_process_add P h i)

/-- The sum of a streamed sample reads no age. -/
theorem streamVoices_ageless : ∀ (vs : List (Bool × VoiceState Word)) (sum : Word),
    (Spec.streamVoices C P (vs.map (Prod.map id VoiceState.ageless)) sum).2 = (Spec.streamVoices C P vs sum).2
  | [], _ => rfl
  | (sounding, v) :: t, sum => streamVoices_ageless t (if sounding then F32.add sum (v.tick hw C P).2 else sum)

end Voices

/-! ### A block -/

/-- Each voice sounds after a block of `a` samples as it did before. -/
def EngineState.KeepsSounding (C : Config) (E : EngineState Word) (a : Nat) : Prop :=
  ∀ v ∈ E.voices, (v.process hw C E.prm a []).1.isActive = v.isActive

section Split

variable {C : Config} {E : EngineState Word} {a : Nat}

theorem process_voices (C : Config) (E : EngineState Word) (n : Nat) :
    (E.process hw C n).voices = E.voices.map fun v => (v.process hw C E.prm n []).1 := by
  rw [(EngineState.process_frame n E).1, runVoices_voices, List.map_map]
  rfl

theorem process_prm (C : Config) (E : EngineState Word) (n : Nat) : (E.process hw C n).prm = E.prm :=
  congrArg Registers.prm (EngineState.process_frame n E).2

/-- A silent voice stays silent, so only the sounding ones are asked about. -/
theorem keepsSounding_of (h : ∀ (k : Nat) (v v' : VoiceState Word), E.voices[k]? = some v →
    (E.process hw C a).voices[k]? = some v' → Spec.Sounding v → Spec.Sounding v') : E.KeepsSounding C a := by
  intro v hv
  obtain ⟨k, hk⟩ := List.mem_iff_getElem?.1 hv
  refine isActive_process E.prm fun hs => ?_
  rw [isActive_iff] at hs ⊢
  exact h k v _ hk (by rw [process_voices, List.getElem?_map, hk]; rfl) hs

variable (h : E.KeepsSounding C a)
include h

/-- Before sample `a + i` of one block and before sample `i` of the second of two, the voices differ in ages only. -/
theorem voices_beforeSample_add (i : Nat) :
    (E.voices.map (VoiceState.beforeSample C E.prm (a + i))).map (Prod.map id VoiceState.ageless) =
      ((E.process hw C a).voices.map (VoiceState.beforeSample C (E.process hw C a).prm i)).map
        (Prod.map id VoiceState.ageless) := by
  rw [process_voices, process_prm, List.map_map, List.map_map, List.map_map]
  exact List.map_congr_left fun v hv => beforeSample_add E.prm (h v hv) i

theorem voiceSum_process (i : Nat) : (E.process hw C a).voiceSum C i = E.voiceSum C (a + i) := by
  rw [EngineState.voiceSum, ← streamVoices_ageless, ← voices_beforeSample_add h, streamVoices_ageless, process_prm]
  rfl

end Split

theorem withoutAges_withBuffers (E : EngineState Word) (vs : List (Bool × VoiceState Word)) (m : Mem Word) :
    Spec.withoutAges (E.withBuffers (vs.map Prod.snd) m) =
      E.withBuffers ((vs.map (Prod.map id VoiceState.ageless)).map Prod.snd) [] := by
  rw [Spec.withoutAges, EngineState.withBuffers, EngineState.withBuffers, List.map_map, List.map_map]
  rfl

end Sys2Proof.Machine

namespace Sys2Proof.Proofs

open Sys2Proof.Machine

/-- Settles O41: the second block's voices sum what the whole block's do from sample `a` on, and the chain goes on over
those sums where the first block left it. -/
theorem blockSplit : Obligations.BlockSplit := by
  intro C E a b hab hscr hsound
  rw [← hw_zero] at hscr ⊢
  have hkeep : E.KeepsSounding C a := keepsSounding_of hsound
  have ha : a ≤ C.blockMax := Nat.le_of_add_right_le hab
  have hvoices := voices_beforeSample_add hkeep b
  obtain ⟨m, hE, hread⟩ := engine_process_eq hab hscr
  obtain ⟨m₁, hE₁, hread₁⟩ := engine_process_eq ha hscr
  obtain ⟨m₂, hE₂, hread₂⟩ := engine_process_eq (Nat.le_of_add_left_le hab) (EngineState.process_scr_wf ha E hscr)
  rw [funext (voiceSum_process hkeep)] at hE₂ hread₂
  refine ⟨fun i hi => ?_, fun i hi => ?_, ?_⟩
  · rw [hE, hE₁]
    exact (hread i (Nat.lt_add_right b hi)).trans (hread₁ i hi).symm
  · rw [hE, hE₂]
    refine (hread (a + i) (Nat.add_lt_add_left hi a)).trans (Eq.trans ?_ (hread₂ i hi).symm)
    rw [chainWord_add, hE₁, chainWord_withBuffers]
  · rw [hE, hE₂, withoutAges_withBuffers, withoutAges_withBuffers, hvoices, hE₁, chainOver_withBuffers, chainOver_add]
    rfl

end Sys2Proof.Proofs

/-! ## Delay lines: a word leaves a line as many samples after it was written as the reads lag (spec/20_memory.md R62;
spec/47_effects.md R242, R252) -/

namespace Sys2Proof.Machine

/-! ### Indices -/

/-- The index `d` samples back, `n` samples on from `w`. -/
theorem idxBack_mod {L : Nat} (w n : Nat) {d : Nat} (hd : d ≤ L) :
    idxBack L ((w + n) % L) d = (w + n + (L - d)) % L := by
  have h : (((w + n) % L : ℕ) : ℤ) - (d : ℤ) = ((w + n) % L + (L - d) : ℕ) - (L : ℤ) := by
    push_cast [hd]
    ring
  rw [idxBack_eq, h, Int.sub_emod_right, ← Int.natCast_emod, Int.toNat_natCast, Nat.mod_add_mod]

/-- Two indices less than a line's length apart are different. -/
theorem add_mod_ne {L x k : Nat} (h0 : 0 < k) (hk : k < L) : (x + k) % L ≠ x % L := by
  intro h
  have hsub := Nat.sub_mod_eq_zero_of_mod_eq h
  rw [Nat.add_sub_cancel_left, Nat.mod_eq_of_lt hk] at hsub
  exact h0.ne' hsub

/-! ### Any unit with a line -/

/-- A unit that at each input writes one word into its memory at its index and moves the index on. -/
structure LineUnit (σ : Type) where
  step : σ → Word → σ
  idx : σ → Nat
  mem : σ → Mem Word

namespace LineUnit

variable {σ β : Type} (U : LineUnit σ)

/-- Its memory is a line of `L` words. -/
structure IsLine (L : Nat) : Prop where
  idx_step : ∀ s x, U.idx (U.step s x) = idxNext L (U.idx s)
  mem_step : ∀ s x, ∃ v, U.mem (U.step s x) = Mem.write hw.zero (U.mem s) (U.idx s) v

/-- The unit after a list of inputs. -/
def after (s : σ) (xs : List Word) : σ := xs.foldl U.step s

/-- Over a list of inputs: at each step the word written, and `out` of the unit before the step and the input. -/
def run (out : σ → Word → β) : σ → List Word → List (Word × β)
  | _, [] => []
  | s, x :: t => (Mem.read hw.zero (U.mem (U.step s x)) (U.idx s), out s x) :: run out (U.step s x) t

/-- What runs over the inputs as `run` does is `run`. -/
theorem eq_run {R : σ → List Word → List (Word × β)} {out : σ → Word → β} (hnil : ∀ s, R s [] = [])
    (hcons : ∀ s x t, R s (x :: t) =
      (Mem.read hw.zero (U.mem (U.step s x)) (U.idx s), out s x) :: R (U.step s x) t) (s : σ) (xs : List Word) :
    R s xs = U.run out s xs := by
  induction xs generalizing s with
  | nil => exact hnil s
  | cons x t ih => rw [hcons, ih, run]

theorem run_getElem? (out : σ → Word → β) (s : σ) (xs : List Word) (i : Nat) :
    (U.run out s xs)[i]? = xs[i]?.map fun x =>
      (Mem.read hw.zero (U.mem (U.step (U.after s (xs.take i)) x)) (U.idx (U.after s (xs.take i))),
        out (U.after s (xs.take i)) x) := by
  induction xs generalizing s i with
  | nil => rfl
  | cons x t ih =>
    cases i with
    | zero => rfl
    | succ i => exact ih (U.step s x) i

theorem after_concat (s : σ) (xs : List Word) (x : Word) : U.after s (xs ++ [x]) = U.step (U.after s xs) x :=
  List.foldl_append

theorem after_take_succ {s : σ} {xs : List Word} {i : Nat} {x : Word} (hx : xs[i]? = some x) :
    U.after s (xs.take (i + 1)) = U.step (U.after s (xs.take i)) x := by
  rw [List.take_add_one, hx]
  exact U.after_concat s _ x

variable {U} {L : Nat} (hU : U.IsLine L) {s : σ}
include hU

theorem IsLine.line_after (h : Line L (U.idx s) (U.mem s)) (xs : List Word) :
    Line L (U.idx (U.after s xs)) (U.mem (U.after s xs)) := by
  refine List.foldlRecOn (motive := fun s => Line L (U.idx s) (U.mem s)) xs U.step h fun s hs x _ => ?_
  obtain ⟨v, hv⟩ := hU.mem_step s x
  rw [hU.idx_step, hv]
  exact hs.advance v

theorem IsLine.idx_after (hs : U.idx s < L) (xs : List Word) : U.idx (U.after s xs) = (U.idx s + xs.length) % L := by
  induction xs using List.reverseRecOn with
  | nil => exact (Nat.mod_eq_of_lt hs).symm
  | append_singleton xs x ih =>
    rw [after_concat, hU.idx_step, ih, idxNext, Nat.mod_add_mod, List.length_append, List.length_singleton,
      Nat.add_assoc]

/-- From an empty line, the word `d` samples back is the one written `d` steps earlier, +0 before that. -/
theorem IsLine.read_back (hs : U.idx s < L) (hempty : U.mem s = []) (out : σ → Word → β) (xs : List Word) {i d : Nat}
    (hi : i ≤ xs.length) (hd : 1 ≤ d) (hdL : d ≤ L) :
    Mem.read hw.zero (U.mem (U.after s (xs.take i))) (idxBack L (U.idx (U.after s (xs.take i))) d) =
      if i < d then hw.zero else (((U.run out s xs)[i - d]?).map Prod.fst).getD hw.zero := by
  have hidx : ∀ j ≤ xs.length, U.idx (U.after s (xs.take j)) = (U.idx s + j) % L := fun j hj => by
    rw [hU.idx_after hs, List.length_take_of_le hj]
  induction i generalizing d with
  | zero =>
    rw [if_pos (Nat.lt_of_lt_of_le Nat.zero_lt_one hd)]
    exact congrArg (Mem.read hw.zero · _) hempty
  | succ i ih =>
    obtain ⟨x, hx⟩ : ∃ x, xs[i]? = some x := ⟨_, List.getElem?_eq_getElem hi⟩
    have hi' : i ≤ xs.length := Nat.le_of_succ_le hi
    rw [hidx _ hi, idxBack_mod _ _ hdL, U.after_take_succ hx]
    rcases hd.eq_or_lt with rfl | hd1
    case inl =>
      have hback : (U.idx s + (i + 1) + (L - 1)) % L = U.idx (U.after s (xs.take i)) := by
        rw [hidx i hi', show U.idx s + (i + 1) + (L - 1) = U.idx s + i + L by omega, Nat.add_mod_right]
      rw [if_neg (by omega), hback, Nat.add_sub_cancel, U.run_getElem?, hx]
      rfl
    case inr =>
      have hback : U.idx s + (i + 1) + (L - d) = U.idx s + i + (L - (d - 1)) := by omega
      have hne : (U.idx s + i + (L - (d - 1))) % L ≠ U.idx (U.after s (xs.take i)) := by
        rw [hidx i hi']
        exact add_mod_ne (by omega) (by omega)
      obtain ⟨v, hv⟩ := hU.mem_step (U.after s (xs.take i)) x
      have hearlier := ih (d := d - 1) hi' (by omega) (by omega)
      rw [hidx i hi', idxBack_mod _ _ (by omega)] at hearlier
      rw [hback, hv, Mem.read_write_other hne, hearlier, show i - (d - 1) = i + 1 - d by omega]
      exact if_congr (by omega) rfl rfl

/-- A unit that reads its line at the index, where the word of a whole length ago stands, is a delay of that length. -/
theorem IsLine.run_snd (hs : U.idx s < L) (hempty : U.mem s = []) (xs : List Word) {i : Nat} (hi : i < xs.length) :
    ((U.run (fun t _ => Mem.read hw.zero (U.mem t) (U.idx t)) s xs)[i]?).map Prod.snd = some
      (if i < L then hw.zero
        else (((U.run (fun t _ => Mem.read hw.zero (U.mem t) (U.idx t)) s xs)[i - L]?).map Prod.fst).getD hw.zero) := by
  have hline := hU.line_after (s := s) ⟨hs, hempty ▸ Mem.wf_nil⟩ (xs.take i)
  have hback : idxBack L (U.idx (U.after s (xs.take i))) L = U.idx (U.after s (xs.take i)) := by
    rw [idxBack_eq, Int.sub_emod_right, ← Int.natCast_emod, Int.toNat_natCast, Nat.mod_eq_of_lt hline.1]
  rw [← hU.read_back hs hempty _ xs hi.le (Nat.one_le_of_lt hs) le_rfl, hback, U.run_getElem?,
    List.getElem?_eq_getElem hi]
  rfl

end LineUnit

/-! ### The delay -/

theorem dryWet_eq (x y wet : Word) : dryWet hw x y wet = Spec.wetMix x y wet := by
  rw [dryWet, hw_one]
  rfl

/-- R241's clamp, between one sample and the line's length. -/
theorem delay_samples_eq {C : Config} (hC : 1 ≤ C.delayLen) (d : DelayState Word) :
    d.samples hw C = max 1 (min C.delayLen (F32.toNat (F32.floor (F32.mul d.time (F32.ofInt C.fs))))) := by
  change (clampI (F32.toNat (F32.floor (F32.mul d.time (F32.ofInt C.fs)))) 1 C.delayLen).toNat = _
  unfold clampI
  omega

/-- The word the delay reads. -/
def DelayState.heard (C : Config) (d : DelayState Word) : Word :=
  Mem.read hw.zero d.mem (idxBack C.delayLen d.w (d.samples hw C))

/-- R242's step, by the word it reads. -/
theorem delay_process_eq (C : Config) (d : DelayState Word) (x : Word) : d.process hw C x =
    (⟨d.time, d.feedback, d.mix, idxNext C.delayLen d.w,
      Mem.write hw.zero d.mem d.w (F32.add x (F32.mul (d.heard C) d.feedback))⟩, Spec.wetMix x (d.heard C) d.mix) := by
  rw [← dryWet_eq]
  rfl

/-- The delay, its line `DL`. -/
def delayUnit (C : Config) : LineUnit (DelayState Word) where
  step d x := (d.process hw C x).1
  idx := DelayState.w
  mem := DelayState.mem

theorem delayUnit_isLine (C : Config) : (delayUnit C).IsLine C.delayLen where
  idx_step _ _ := rfl
  mem_step _ _ := ⟨_, rfl⟩

theorem delayRun_eq (C : Config) (d : DelayState Word) (xs : List Word) :
    Spec.delayRun C d xs = (delayUnit C).run (fun d x => (d.process hw C x).2) d xs :=
  LineUnit.eq_run _ (fun _ => rfl) (fun _ _ _ => by rw [Spec.delayRun, ← hw_zero]; rfl) d xs

/-- No input moves a register of the delay. -/
theorem delay_after_frame (C : Config) (d : DelayState Word) (xs : List Word) :
    ((delayUnit C).after d xs).time = d.time ∧ ((delayUnit C).after d xs).feedback = d.feedback ∧
      ((delayUnit C).after d xs).mix = d.mix :=
  List.foldlRecOn (motive := fun u : DelayState Word => u.time = d.time ∧ u.feedback = d.feedback ∧ u.mix = d.mix)
    xs _ ⟨rfl, rfl, rfl⟩ fun _ hu _ _ => hu

/-- At each step of a run from a line in canonical form: the word written, and the word returned. -/
theorem delayRun_getElem? {C : Config} {d : DelayState Word} (h : Line C.delayLen d.w d.mem) {xs : List Word} {i : Nat}
    {x : Word} (hx : xs[i]? = some x) :
    let y := ((delayUnit C).after d (xs.take i)).heard C
    (Spec.delayRun C d xs)[i]? = some (F32.add x (F32.mul y d.feedback), Spec.wetMix x y d.mix) := by
  intro y
  obtain ⟨-, hfb, hmix⟩ := delay_after_frame C d (xs.take i)
  obtain ⟨-, hwf⟩ := (delayUnit_isLine C).line_after h (xs.take i)
  rw [delayRun_eq, LineUnit.run_getElem?, hx, Option.map_some, delay_process_eq, hmix, ← hfb]
  exact congrArg (fun v => some (v, Spec.wetMix x y d.mix)) (Mem.read_write_same hwf _ _)

/-- The word heard is the one written `dlyD` steps earlier. -/
theorem delay_heard_after {C : Config} {d : DelayState Word} (hC : 1 ≤ C.delayLen) (hempty : d.mem = [])
    (hidx : d.w < C.delayLen) {xs : List Word} {i : Nat} (hi : i ≤ xs.length) :
    ((delayUnit C).after d (xs.take i)).heard C = if i < d.samples hw C then hw.zero
      else (((Spec.delayRun C d xs)[i - d.samples hw C]?).map Prod.fst).getD hw.zero := by
  have hsamples := delay_samples_eq hC d
  have htime : ((delayUnit C).after d (xs.take i)).samples hw C = d.samples hw C := by
    rw [DelayState.samples, (delay_after_frame C d (xs.take i)).1]
    rfl
  rw [DelayState.heard, htime, delayRun_eq]
  exact (delayUnit_isLine C).read_back hidx hempty _ xs hi (by omega) (by omega)

/-! ### The combs and the all-passes -/

/-- A comb of `len` words; the accumulator it is given does not reach its state. -/
def combUnit (len : Nat) (fb d1 d2 : Word) : LineUnit (CombState Word) where
  step c x := (c.process hw len fb d1 d2 x hw.zero).1
  idx := CombState.ci
  mem := CombState.mem

theorem combUnit_isLine (len : Nat) (fb d1 d2 : Word) : (combUnit len fb d1 d2).IsLine len where
  idx_step _ _ := rfl
  mem_step _ _ := ⟨_, rfl⟩

theorem combRun_eq (len : Nat) (fb d1 d2 : Word) (c : CombState Word) (xs : List Word) :
    Spec.combRun len fb d1 d2 c xs =
      (combUnit len fb d1 d2).run (fun c _ => Mem.read hw.zero c.mem c.ci) c xs :=
  LineUnit.eq_run _ (fun _ => rfl) (fun _ _ _ => by rw [Spec.combRun, ← hw_zero]; rfl) c xs

/-- An all-pass of `len` words. -/
def allPassUnit (len : Nat) (g : Word) : LineUnit (AllPassState Word) where
  step a x := (a.process hw len g x).1
  idx := AllPassState.ai
  mem := AllPassState.mem

theorem allPassUnit_isLine (len : Nat) (g : Word) : (allPassUnit len g).IsLine len where
  idx_step _ _ := rfl
  mem_step _ _ := ⟨_, rfl⟩

theorem allPassRun_eq (len : Nat) (g : Word) (a : AllPassState Word) (xs : List Word) :
    Spec.allPassRun len g a xs = (allPassUnit len g).run (fun a _ => Mem.read hw.zero a.mem a.ai) a xs :=
  LineUnit.eq_run _ (fun _ => rfl) (fun _ _ _ => by rw [Spec.allPassRun, ← hw_zero]; rfl) a xs

end Sys2Proof.Machine

namespace Sys2Proof.Proofs

open Sys2Proof.Machine

/-- Settles O51: the step by its definition, and the delay as a line read `dlyD` samples back. -/
theorem delayLine : Obligations.DelayLine := by
  refine ⟨fun len m i j v hm => ?read, fun C d hC => delay_samples_eq hC d, fun C d x => ?step,
    fun C d xs hC hempty hidx => ?run⟩
  case read =>
    split_ifs with h
    · rw [h, Mem.read_write_same hm]
    · exact Mem.read_write_other h m v
  case step =>
    rw [← hw_zero]
    exact delay_process_eq C d x
  case run =>
    have hsamples := delay_samples_eq hC d
    refine ⟨by omega, by omega, fun i x hx => ?_⟩
    have hi : i < xs.length := (List.getElem?_eq_some_iff.1 hx).1
    rw [← hw_zero, ← delay_heard_after hC hempty hidx hi.le]
    exact delayRun_getElem? ⟨hidx, hempty ▸ Mem.wf_nil⟩ hx

/-- Settles O52: the steps by their definitions, and each comb and all-pass as a line read a whole length back. -/
theorem combLine : Obligations.CombLine := by
  unfold Obligations.CombLine
  rw [← hw_zero, ← hw_one]
  refine ⟨fun _ _ _ _ _ _ _ => rfl, fun len fb d1 d2 c xs _ hempty hidx i hi => ?_, fun _ _ _ _ => rfl,
    fun len g a xs _ hempty hidx i hi => ?_, fun C r x => ?_⟩
  · rw [combRun_eq]
    exact (combUnit_isLine len fb d1 d2).run_snd hidx hempty xs hi
  · rw [allPassRun_eq]
    exact (allPassUnit_isLine len g).run_snd hidx hempty xs hi
  · intros
    rw [← dryWet_eq]
    rfl

end Sys2Proof.Proofs
